-- ==== Sys2Proof/Word.lean ====
section
/-!
DEFINITION. The word types of MC70L-IR CORE and the bit and byte numbering of a frame
(spec/00_scope.md R7, spec/20_memory.md R45, R46). Everything is unsigned (R7, R119).
-/
namespace Sys2Proof

/-- `W_TIME` = 32 bits: `now`, `lastEdgeTime` and `elapsed`, in microseconds (R6, R16, R94). -/
abbrev Time := BitVec 32

/-- `FRAME_BITS` = 128 bits, the frame buffer. Frame bit `F[i]` (`F[0]` first on the wire) is bit
`127 - i` of this number, so the number written in hexadecimal is `B[0] B[1] ... B[15]` (R7). -/
abbrev Frame := BitVec 128

/-- `HALF_BITS` = 64 bits, a half or a sender message; `msg[0]`, first on the wire, is bit 63 (R42). -/
abbrev Half := BitVec 64

/-- A 24-bit command body, `body[23:16]` the first byte on the wire (R62, R69). -/
abbrev Body := BitVec 24

/-- `W_TIMEOUT_CNT` = 2 bits, the timeout counter (R14). -/
abbrev Count := BitVec 2

/-- The running bit index, stored in 8 bits, 0 to 128 in reachable states (R13). -/
abbrev BitIndex := BitVec 8

/-- A segment's level: `M` (mark, line 1) or `S` (space, line 0) (R74). -/
inductive Level where
  | mark
  | space
  deriving DecidableEq, Repr

/-- The value the line driver gives the output for a level (R181). -/
def Level.line : Level → Bool
  | .mark => true
  | .space => false

/-- A segment of the sender's waveform: a level and a duration in microseconds (R74). -/
structure Segment where
  level : Level
  duration : Nat
  deriving DecidableEq, Repr

end Sys2Proof
end

