-- ==== Sys2Proof/Config.lean ====
section
/-!
DEFINITION. The implementation parameters of spec/00_scope.md R5 and R6 as one record of named
fields. A field that the spec gives or decides has that value as its default; a field that the spec
leaves OPEN is filled in `Config.params` from a constant without a body, so that nothing proved of
the machine depends on what it is. The registers' widths are the types of Word.lean, at the default
values (notes/assumptions/1.md).
-/
namespace Sys2Proof

/-- The names of the nine buttons. The spec prints `ONOFF` and `FAN`; the other seven names are not
in the source (spec/91_not_in_source.md N1) and are told apart by a number only. -/
inductive ButtonName where
  | onoff
  | fan
  | unprinted (n : Nat)
  deriving DecidableEq, Repr

/-- One row of the `BUTTONS` table: a name and a 24-bit command body (R6, R44). -/
structure ButtonEntry where
  name : ButtonName
  body : Body
  deriving DecidableEq, Repr

/-- What an edge does in `ReadTimeout` after the second timeout-mark: `SECOND_TIMEOUT_POLICY` (R6). -/
inductive SecondTimeout where
  | hold
  | error
  deriving DecidableEq, Repr

/-- The parameters of R5 and R6. `cmdGapExcess` is the free part of the OPEN `T_CMD_GAP`: see
`Params.tCmdGap`. -/
structure Params where
  /-- R5, the bits of a frame and of a half, and the number of known buttons. -/
  frameBits : Nat := 128
  halfBits : Nat := 64
  nButtons : Nat := 9
  /-- R5, receiver nominals in microseconds. -/
  tLongSpace : Nat := 3500
  tStartMark : Nat := 1760
  tBitSpace : Nat := 435
  tZeroMark : Nat := 435
  tOneMark : Nat := 1295
  tTimeoutMark : Nat := 30000
  /-- R5, the symmetric tolerance and the absolute ceiling. -/
  tol : Nat := 200
  tCeiling : Nat := 31000
  /-- R5, the ProtocolConstants. -/
  framePrefix : BitVec 24 := 0x885BE9#24
  hdrBegin : BitVec 16 := 0x0F00#16
  hdrBody : BitVec 24 := 0x00004E#24
  cmdBegin : BitVec 16 := 0x00F1#16
  bodyOnoff : Body := 0x800048#24
  bodyFan : Body := 0x081084#24
  /-- R6, decided: `TIMEOUT_LO`, `TIMEOUT_HI` (D8), `WINDOW_CLOSED` (D9),
  `SECOND_TIMEOUT_POLICY` (D10), `STRICT_DECODE` (D11). -/
  timeoutLo : Nat := tTimeoutMark - tol
  timeoutHi : Nat := tCeiling
  windowClosed : Bool := true
  secondTimeout : SecondTimeout := .hold
  strictDecode : Bool := false
  /-- R6, OPEN: `RX_ACTIVE_LEVEL`, `BUTTONS`, `T_CMD_GAP`, `TICK_PERIOD`, `CARRIER_HZ`.
  No rule of the step relation reads the last two. -/
  rxActiveLevel : Bool
  buttons : List ButtonEntry
  cmdGapExcess : Nat
  tickPeriod : Nat
  carrierHz : Nat
  deriving DecidableEq, Repr

/-- R13, R112: the bit index of a whole frame. -/
def Params.frameEnd (p : Params) : BitIndex := BitVec.ofNat 8 p.frameBits

/-- R6, R189: the sender's durations are read from the receiver's own table (decision D12). -/
def Params.tSyncMark (p : Params) : Nat := p.tLongSpace
/-- R6, R189. -/
def Params.tSyncSpace (p : Params) : Nat := p.tStartMark
/-- R6, R189. -/
def Params.tBitMark (p : Params) : Nat := p.tBitSpace
/-- R6, R189. -/
def Params.tZeroSpace (p : Params) : Nat := p.tZeroMark
/-- R6, R189. -/
def Params.tOneSpace (p : Params) : Nat := p.tOneMark
/-- R6, R183: the inter-half gap is `T_TIMEOUT_MARK` (decision D13). -/
def Params.tHalfGap (p : Params) : Nat := p.tTimeoutMark
/-- R6, R184: the inter-command gap is OPEN under the one constraint `T_CMD_GAP > T_HALF_GAP`; every
value the constraint allows is this sum for some `cmdGapExcess`. -/
def Params.tCmdGap (p : Params) : Nat := p.tHalfGap + 1 + p.cmdGapExcess

/-- R6, D14: what the spec requires of `BUTTONS[0..8]`: `N_BUTTONS` rows, among them `ONOFF` with
`BODY_ONOFF` and `FAN` with `BODY_FAN`, bodies pairwise distinct. -/
def buttonTableOk (p : Params) : Bool :=
  decide (p.buttons.length = p.nButtons) && p.buttons.contains ⟨.onoff, p.bodyOnoff⟩
    && p.buttons.contains ⟨.fan, p.bodyFan⟩ && decide (p.buttons.map ButtonEntry.body).Nodup

/-- R72, D14: the provisional table of the spec's test vectors. Its last seven rows are placeholders
and not data about the product. -/
def provisionalButtons : List ButtonEntry :=
  [⟨.onoff, 0x800048#24⟩, ⟨.fan, 0x081084#24⟩, ⟨.unprinted 2, 0xFFFF02#24⟩,
   ⟨.unprinted 3, 0xFFFF03#24⟩, ⟨.unprinted 4, 0xFFFF04#24⟩, ⟨.unprinted 5, 0xFFFF05#24⟩,
   ⟨.unprinted 6, 0xFFFF06#24⟩, ⟨.unprinted 7, 0xFFFF07#24⟩, ⟨.unprinted 8, 0xFFFF08#24⟩]

/-- R6, D5, U11: the OPEN `RX_ACTIVE_LEVEL`. -/
opaque Config.freeActiveLevel : Bool
/-- R6, D14, U10: the OPEN `BUTTONS`, before the check of `buttonTableOk`. -/
opaque Config.freeButtons : List ButtonEntry
/-- R6, D13, U12: the OPEN part of `T_CMD_GAP`. -/
opaque Config.freeCmdGapExcess : Nat
/-- R6, D6: the OPEN `TICK_PERIOD`. -/
opaque Config.freeTickPeriod : Nat
/-- R6, N7: the OPEN `CARRIER_HZ`. -/
opaque Config.freeCarrierHz : Nat

/-- The machine's parameters under a button table. -/
def Config.withButtons (t : List ButtonEntry) : Params :=
  { rxActiveLevel := Config.freeActiveLevel
    buttons := t
    cmdGapExcess := Config.freeCmdGapExcess
    tickPeriod := Config.freeTickPeriod
    carrierHz := Config.freeCarrierHz }

/-- The machine's `BUTTONS`: any table that meets the constraint of R6 (every such table is this one
for some value of `Config.freeButtons`); the provisional one where the free list does not meet it. -/
def Config.buttons : List ButtonEntry :=
  if buttonTableOk (Config.withButtons Config.freeButtons) then Config.freeButtons else provisionalButtons

/-- The machine's parameters. -/
def Config.params : Params := Config.withButtons Config.buttons

end Sys2Proof
end

