-- ==== Sys2Proof/Syntax.lean ====
section
/-!
DEFINITION. The names of the machine's enumerations and the one inductive of instructions: a
constructor for every row of spec/opcode_table.json (spec/30_encoding.md R66 to R77).
-/
namespace Sys2Proof

/-- R10, R66: the receiver's coarse lifecycle. -/
inductive ReceiverState where
  | stopped
  | idle
  | running
  | timedOut
  | overflowed
  deriving DecidableEq, Repr

/-- R11, R67: the receiver's protocol position. -/
inductive ReadState where
  | none
  | readStart
  | readSpace
  | readMark
  | readTimeout
  | error
  deriving DecidableEq, Repr

/-- R23, R187: the sender's phase. -/
inductive Phase where
  | rest
  | hdrHalf
  | halfGap
  | cmdHalf
  | cmdGap
  deriving DecidableEq, Repr

/-- R63, R77 item 2: the class of an edge. The first eight are the answers of `classify` (R114); the
last two are the edges that steps 1 and 2 of `onEdge` take (R112, R113). -/
inductive EdgeClass where
  | longSpace
  | startMark
  | bitSpace
  | zeroMark
  | oneMark
  | timeoutMark
  | invalid
  | done
  | ceiling
  | overflowEdge
  deriving DecidableEq, Repr

/-- R74: the nine segments the sender emits. -/
inductive SegKind where
  | syncMark
  | syncSpace
  | bitMark
  | zeroSpace
  | oneSpace
  | stopMark
  | stopSpace
  | halfGap
  | cmdGap
  deriving DecidableEq, Repr

/-- The instructions: one constructor per row of spec/opcode_table.json, in the table's order. An edge
symbol carries the duration `e` it was measured with (R63). -/
inductive Instr where
  /-- Receiver operations (R68, R90 to R97). -/
  | rxNop
  | rxTick (level : Bool) (now : Time)
  | rxReset
  | rxInit
  /-- Sender operations (R69, R180, R185, R186). -/
  | txNop
  | txSend (body : Body)
  | txConstruct
  | txReserved
  /-- Queries (R70, R150 to R159). -/
  | rxHasdata
  | rxIserror
  | rxDecode
  /-- Symbols on the receiver's line (R63, R112, R113, R130 to R137). -/
  | longSpace (e : Time)
  | startMark (e : Time)
  | bitSpace (e : Time)
  | zeroMark (e : Time)
  | oneMark (e : Time)
  | timeoutMark (e : Time)
  | ceiling (e : Time)
  | invalid (e : Time)
  | overflowEdge (e : Time)
  | done (e : Time)
  /-- Segments of the sender's line driver (R74, R182 to R184). -/
  | syncMark
  | syncSpace
  | bitMark
  | zeroSpace
  | oneSpace
  | stopMark
  | stopSpace
  | halfGap
  | cmdGap
  /-- Frame patterns (R60, R61, R156). -/
  | hdrHalf
  | cmdHalf (body : Body)
  | cmdOnoff
  | cmdFan
  | frame (body : Body)
  deriving DecidableEq, Repr

end Sys2Proof
end

