-- ==== Sys2Proof/WellFormed.lean ====
section
/-!
DEFINITION. Which instructions are well formed, whatever the state: the operand conditions of the
rows of spec/opcode_table.json, with the table's own numbers (R63, R115). A half or a frame whose
body has a row of its own is written with that row's constructor.
-/
namespace Sys2Proof

/-- A closed window of the table, in microseconds. -/
def Time.within (lo hi : Nat) (e : Time) : Bool := decide (lo ≤ e.toNat) && decide (e.toNat ≤ hi)

/-- The operand condition of an instruction's row. -/
def Instr.wellFormed : Instr → Bool
  | .rxNop => true
  | .rxTick _ _ => true
  | .rxReset => true
  | .rxInit => true
  | .txNop => true
  | .txSend _ => true
  | .txConstruct => true
  | .txReserved => true
  | .rxHasdata => true
  | .rxIserror => true
  | .rxDecode => true
  | .longSpace e => e.within 3300 3700
  | .startMark e => e.within 1560 1960
  | .bitSpace e => e.within 235 635
  | .zeroMark e => e.within 235 635
  | .oneMark e => e.within 1095 1495
  | .timeoutMark e => e.within 29800 31000
  | .ceiling e => decide (31000 < e.toNat)
  | .invalid e => decide (e.toNat ≤ 31000)
  | .overflowEdge _ => true
  | .done e => decide (e.toNat ≤ 31000)
  | .syncMark => true
  | .syncSpace => true
  | .bitMark => true
  | .zeroSpace => true
  | .oneSpace => true
  | .stopMark => true
  | .stopSpace => true
  | .halfGap => true
  | .cmdGap => true
  | .hdrHalf => true
  | .cmdHalf b => decide (b ≠ 0x800048#24) && decide (b ≠ 0x081084#24)
  | .cmdOnoff => true
  | .cmdFan => true
  | .frame _ => true

end Sys2Proof
end

