-- ==== Sys2Proof/Decode.lean ====
section
/-!
DEFINITION. The encodings (spec/30_encoding.md) and the decoder. The block has no stored program: a
word is presented on one of its ports, so a word is a port and the bits on it. The decoder of the
symbol port is the receiver's `classify` (R114), and the decoder of the driver port compares the
segment with the one the sender's position calls for (R187), so decoding takes a context: the fields
of the two components that these two read.
-/
namespace Sys2Proof

/-- Where a word is presented. `rx` and `tx` are the operation ports of R68 and R69; `hasData`,
`isError` and `decoded` the reading of an output (R70), which has no bits; `symbol` an edge's duration on the receiver's line (R63), `driver`
a segment on the sender's line (R74), `half` and `frame` the two wire formats of R60. -/
inductive Port where
  | rx
  | tx
  | hasData
  | isError
  | decoded
  | symbol
  | driver
  | half
  | frame
  deriving DecidableEq, Repr

/-- A word on a port; bit 0 of `bits` is the least significant. Bits above the port's width are no
bits of the port and are not looked at (notes/assumptions/4.md). -/
structure PortWord where
  port : Port
  bits : Nat
  deriving DecidableEq, Repr

/-- What decoding reads of the two components. -/
structure DecodeCtx where
  bitIndex : BitIndex
  readState : ReadState
  timeoutCount : Count
  due : Option SegKind
  deriving DecidableEq, Repr

/-- Why a word is no instruction of the table. -/
inductive Reject where
  /-- 64 bits that are neither the header half nor a command half (R61). The receiver takes them all
  the same (R75, R155): `takeUnlisted` in Machine/Patterns.lean. -/
  | unknownHalf
  /-- 128 bits that are not the frame pattern of R60. The receiver takes them all the same. -/
  | unknownFrame
  /-- The sender rests, so the line carries no segment (R187, row `Rest`). -/
  | noSegmentDue
  /-- Not the segment that the sender's position calls for (R187). -/
  | notTheDueSegment
  deriving DecidableEq, Repr

/-! ### Bit fields -/

/-- The low `n` bits of a word from bit `lo` up. -/
def fieldOf (bits lo n : Nat) : BitVec n := BitVec.ofNat n (bits / 2 ^ lo)

/-! ### The timing classifier -/

/-- R110: the window test, `n - TOL <= e <= n + TOL` in unbounded integers, ends included exactly when
`WINDOW_CLOSED`. -/
def matchWindow (p : Params) (e : Time) (n : Nat) : Bool :=
  if p.windowClosed then decide (n ≤ e.toNat + p.tol) && decide (e.toNat ≤ n + p.tol)
  else decide (n < e.toNat + p.tol) && decide (e.toNat < n + p.tol)

/-- R110: the timeout-mark's window, `TIMEOUT_LO <= e <= TIMEOUT_HI`. -/
def matchTimeout (p : Params) (e : Time) : Bool :=
  decide (p.timeoutLo ≤ e.toNat) && decide (e.toNat ≤ p.timeoutHi)

/-- R114: step 3 of `onEdge`. -/
def classify (p : Params) (rs : ReadState) (tc : Count) (e : Time) : EdgeClass :=
  match rs with
  | .none => if matchWindow p e p.tLongSpace then .longSpace else .invalid
  | .readStart => if matchWindow p e p.tStartMark then .startMark else .invalid
  | .readSpace => if matchWindow p e p.tBitSpace then .bitSpace else .invalid
  | .readMark =>
    if matchWindow p e p.tZeroMark then .zeroMark
    else if matchWindow p e p.tOneMark then .oneMark
    else if matchTimeout p e then .timeoutMark
    else .invalid
  | .readTimeout =>
    if tc = 1#2 then (if matchWindow p e p.tLongSpace then .longSpace else .invalid) else .done
  | .error => .done

/-- R111, R206: the class of an edge, the two checks of steps 1 and 2 before the classification. -/
def edgeClass (p : Params) (bi : BitIndex) (rs : ReadState) (tc : Count) (e : Time) : EdgeClass :=
  if bi = p.frameEnd then .overflowEdge
  else if p.tCeiling < e.toNat then .ceiling
  else classify p rs tc e

/-- The instruction of an edge class. -/
def symbolInstr (e : Time) : EdgeClass → Instr
  | .longSpace => .longSpace e
  | .startMark => .startMark e
  | .bitSpace => .bitSpace e
  | .zeroMark => .zeroMark e
  | .oneMark => .oneMark e
  | .timeoutMark => .timeoutMark e
  | .invalid => .invalid e
  | .done => .done e
  | .ceiling => .ceiling e
  | .overflowEdge => .overflowEdge e

/-! ### Segments and halves -/

/-- R74: level and duration of each segment. -/
def segmentOf (p : Params) : SegKind → Segment
  | .syncMark => ⟨.mark, p.tSyncMark⟩
  | .syncSpace => ⟨.space, p.tSyncSpace⟩
  | .bitMark => ⟨.mark, p.tBitMark⟩
  | .zeroSpace => ⟨.space, p.tZeroSpace⟩
  | .oneSpace => ⟨.space, p.tOneSpace⟩
  | .stopMark => ⟨.mark, p.tBitMark⟩
  | .stopSpace => ⟨.space, 0⟩
  | .halfGap => ⟨.space, p.tHalfGap⟩
  | .cmdGap => ⟨.space, p.tCmdGap⟩

/-- The instruction of a segment. -/
def segInstr : SegKind → Instr
  | .syncMark => .syncMark
  | .syncSpace => .syncSpace
  | .bitMark => .bitMark
  | .zeroSpace => .zeroSpace
  | .oneSpace => .oneSpace
  | .stopMark => .stopMark
  | .stopSpace => .stopSpace
  | .halfGap => .halfGap
  | .cmdGap => .cmdGap

/-- The bits of a segment on the driver port: the level in bit 0 (`M` = 1), the duration above it. -/
def segmentBits (g : Segment) : Nat := 2 * g.duration + (if g.level.line then 1 else 0)

/-- R61, R171: `PREFIX ∥ HDR_BEGIN ∥ HDR_BODY`. -/
def hdrMessage (p : Params) : Half := (p.framePrefix ++ p.hdrBegin) ++ p.hdrBody

/-- R61, R172: `PREFIX ∥ CMD_BEGIN ∥ body`. -/
def cmdMessage (p : Params) (body : Body) : Half := (p.framePrefix ++ p.cmdBegin) ++ body

/-- R60: the frame, header half then command half. -/
def frameWord (p : Params) (body : Body) : Frame := hdrMessage p ++ cmdMessage p body

/-! ### Decoding, port by port -/

/-- R68: `rx_op` in bits 1:0, `level` in bit 2, `now` in bits 34:3. Bits that an operation takes no
operand from are not looked at (the table's mask `0x3`). -/
def decodeRx (w : Nat) : Except Reject Instr :=
  match w % 4 with
    | 0 => .ok .rxNop
    | 1 => .ok (.rxTick ((fieldOf w 2 1) == 1#1) (fieldOf w 3 32))
    | 2 => .ok .rxReset
    | _ => .ok .rxInit

/-- R69: `tx_op` in bits 1:0, `body` in bits 25:2. -/
def decodeTx (w : Nat) : Except Reject Instr :=
  match w % 4 with
    | 0 => .ok .txNop
    | 1 => .ok (.txSend (fieldOf w 2 24))
    | 2 => .ok .txConstruct
    | _ => .ok .txReserved

/-- R63, R114: an edge's duration, classified at the receiver's position. -/
def decodeSymbol (p : Params) (c : DecodeCtx) (w : Nat) : Except Reject Instr :=
  let e : Time := fieldOf w 0 32
  .ok (symbolInstr e (edgeClass p c.bitIndex c.readState c.timeoutCount e))

/-- R187: a segment on the line is the one the sender's position calls for. -/
def decodeDriver (p : Params) (c : DecodeCtx) (w : Nat) : Except Reject Instr :=
  match c.due with
  | none => .error .noSegmentDue
  | some k => if w = segmentBits (segmentOf p k) then .ok (segInstr k) else .error .notTheDueSegment

/-- R61, R156: the rows of format `HALF64`, the two rows with a known body before `CMD_HALF`. The table
has no row for a half with another prefix or begin, which the receiver takes leniently (R75); that
the decoder names it instead of giving it a row's instruction is this model's choice
(notes/assumptions/16.md). -/
def decodeHalf (p : Params) (w : Nat) : Except Reject Instr :=
  let m : Half := fieldOf w 0 64
  if m = hdrMessage p then .ok .hdrHalf
  else if m = cmdMessage p p.bodyOnoff then .ok .cmdOnoff
  else if m = cmdMessage p p.bodyFan then .ok .cmdFan
  else if m = cmdMessage p (m.extractLsb' 0 24) then .ok (.cmdHalf (m.extractLsb' 0 24))
  else .error .unknownHalf

/-- R60: the one row of format `FRAME128`. A frame with another prefix, begin or header body has no row
and is named, as in `decodeHalf` (R75; notes/assumptions/16.md). -/
def decodeFrame (p : Params) (w : Nat) : Except Reject Instr :=
  let f : Frame := fieldOf w 0 128
  if f = frameWord p (f.extractLsb' 0 24) then .ok (.frame (f.extractLsb' 0 24))
  else .error .unknownFrame

/-- The decoder, total on every port and every bits. -/
def decode (p : Params) (c : DecodeCtx) (w : PortWord) : Except Reject Instr :=
  match w.port with
  | .rx => decodeRx w.bits
  | .tx => decodeTx w.bits
  | .hasData => .ok .rxHasdata
  | .isError => .ok .rxIserror
  | .decoded => .ok .rxDecode
  | .symbol => decodeSymbol p c w.bits
  | .driver => decodeDriver p c w.bits
  | .half => decodeHalf p w.bits
  | .frame => decodeFrame p w.bits

/-! ### Encoding -/

/-- The word of an instruction, from the encodings of R61, R63, R68, R69, R70, R74. -/
def encode (p : Params) : Instr → PortWord
  | .rxNop => ⟨.rx, 0⟩
  | .rxTick level now => ⟨.rx, 1 + 4 * level.toNat + 8 * now.toNat⟩
  | .rxReset => ⟨.rx, 2⟩
  | .rxInit => ⟨.rx, 3⟩
  | .txNop => ⟨.tx, 0⟩
  | .txSend body => ⟨.tx, 1 + 4 * body.toNat⟩
  | .txConstruct => ⟨.tx, 2⟩
  | .txReserved => ⟨.tx, 3⟩
  | .rxHasdata => ⟨.hasData, 0⟩
  | .rxIserror => ⟨.isError, 0⟩
  | .rxDecode => ⟨.decoded, 0⟩
  | .longSpace e => ⟨.symbol, e.toNat⟩
  | .startMark e => ⟨.symbol, e.toNat⟩
  | .bitSpace e => ⟨.symbol, e.toNat⟩
  | .zeroMark e => ⟨.symbol, e.toNat⟩
  | .oneMark e => ⟨.symbol, e.toNat⟩
  | .timeoutMark e => ⟨.symbol, e.toNat⟩
  | .ceiling e => ⟨.symbol, e.toNat⟩
  | .invalid e => ⟨.symbol, e.toNat⟩
  | .overflowEdge e => ⟨.symbol, e.toNat⟩
  | .done e => ⟨.symbol, e.toNat⟩
  | .syncMark => ⟨.driver, segmentBits ⟨.mark, p.tSyncMark⟩⟩
  | .syncSpace => ⟨.driver, segmentBits ⟨.space, p.tSyncSpace⟩⟩
  | .bitMark => ⟨.driver, segmentBits ⟨.mark, p.tBitMark⟩⟩
  | .zeroSpace => ⟨.driver, segmentBits ⟨.space, p.tZeroSpace⟩⟩
  | .oneSpace => ⟨.driver, segmentBits ⟨.space, p.tOneSpace⟩⟩
  | .stopMark => ⟨.driver, segmentBits ⟨.mark, p.tBitMark⟩⟩
  | .stopSpace => ⟨.driver, segmentBits ⟨.space, 0⟩⟩
  | .halfGap => ⟨.driver, segmentBits ⟨.space, p.tHalfGap⟩⟩
  | .cmdGap => ⟨.driver, segmentBits ⟨.space, p.tCmdGap⟩⟩
  | .hdrHalf => ⟨.half, 0x885BE90F0000004E⟩
  | .cmdHalf body => ⟨.half, 0x885BE900F1 * 2 ^ 24 + body.toNat⟩
  | .cmdOnoff => ⟨.half, 0x885BE900F1800048⟩
  | .cmdFan => ⟨.half, 0x885BE900F1081084⟩
  | .frame body => ⟨.frame, 0x885BE90F0000004E885BE900F1 * 2 ^ 24 + body.toNat⟩

/-- The column `expected_in` of the table: the contexts in which an instruction's word stands for it.
A symbol is classified by duration and position (R63, R115), a segment by the sender's position
(R187); every other word means the same everywhere. -/
def Instr.expectedIn (c : DecodeCtx) : Instr → Bool
  | .longSpace _ => decide (c.bitIndex ≠ 128#8) &&
      (decide (c.readState = .none)
        || (decide (c.readState = .readTimeout) && decide (c.timeoutCount = 1#2)))
  | .startMark _ => decide (c.bitIndex ≠ 128#8) && decide (c.readState = .readStart)
  | .bitSpace _ => decide (c.bitIndex ≠ 128#8) && decide (c.readState = .readSpace)
  | .zeroMark _ => decide (c.bitIndex ≠ 128#8) && decide (c.readState = .readMark)
  | .oneMark _ => decide (c.bitIndex ≠ 128#8) && decide (c.readState = .readMark)
  | .timeoutMark _ => decide (c.bitIndex ≠ 128#8) && decide (c.readState = .readMark)
  | .ceiling _ => decide (c.bitIndex ≠ 128#8)
  | .invalid e => decide (c.bitIndex ≠ 128#8) &&
      match c.readState with
      | .none => !e.within 3300 3700
      | .readStart => !e.within 1560 1960
      | .readSpace => !e.within 235 635
      | .readMark => !e.within 235 635 && !e.within 1095 1495 && !e.within 29800 31000
      | .readTimeout => decide (c.timeoutCount = 1#2) && !e.within 3300 3700
      | .error => false
  | .overflowEdge _ => decide (c.bitIndex = 128#8)
  | .done _ => decide (c.bitIndex ≠ 128#8) &&
      ((decide (c.readState = .readTimeout) && decide (c.timeoutCount ≠ 1#2))
        || decide (c.readState = .error))
  | .syncMark => decide (c.due = some .syncMark)
  | .syncSpace => decide (c.due = some .syncSpace)
  | .bitMark => decide (c.due = some .bitMark)
  | .zeroSpace => decide (c.due = some .zeroSpace)
  | .oneSpace => decide (c.due = some .oneSpace)
  | .stopMark => decide (c.due = some .stopMark)
  | .stopSpace => decide (c.due = some .stopSpace)
  | .halfGap => decide (c.due = some .halfGap)
  | .cmdGap => decide (c.due = some .cmdGap)
  | .rxNop => true
  | .rxTick _ _ => true
  | .rxReset => true
  | .rxInit => true
  | .txNop => true
  | .txSend _ => true
  | .txConstruct => true
  | .txReserved => true
  | .rxHasdata => true
  | .rxIserror => true
  | .rxDecode => true
  | .hdrHalf => true
  | .cmdHalf _ => true
  | .cmdOnoff => true
  | .cmdFan => true
  | .frame _ => true

/-! ### The numbering of the opcode table -/

/-- Which port a word of `nbits` table bits is presented on. The table's words of 64 and 128 bits are a
half and a frame, 26 bits in whole bytes are 32 and belong to `TX_SEND`; the two-bit operation codes
of the two ports coincide, and a short word is read on the receiver's. -/
def tablePort (nbits : Nat) : Port :=
  if nbits = 32 then .tx else if nbits = 64 then .half else if nbits = 128 then .frame else .rx

/-- The decoding context right after reset: the receiver's position is `None` and the sender rests. -/
def resetCtx : DecodeCtx := ⟨0#8, .none, 0#2, none⟩

/-- The instruction the decoder reads from a table word. -/
def decodeTableWord (nbits w : Nat) : Option Instr :=
  match decode Config.params resetCtx ⟨tablePort nbits, w⟩ with
  | .ok i => some i
  | .error _ => none

end Sys2Proof
end

