-- ==== Sys2Proof/Machine/State.lean ====
section
/-!
DEFINITION. The state of MC70L-IR CORE as plain data: the receiver's record `s` (spec/10_state.md R10
to R17), the sender's record `t` (R19 to R24), the waveform on the sender's line (R8, R181), and what
the world outside the block needs to be shown in one deterministic machine: the words the Host and
the Environment have presented and the Host's own notes (R51). The reset values are those of R30.
-/
namespace Sys2Proof.Machine

/-- R10 to R16: the receiver. -/
structure Receiver where
  /-- R10 -/
  receiverState : ReceiverState
  /-- R11 -/
  readState : ReadState
  /-- R12 -/
  buf : Frame
  /-- R13 -/
  bitIndex : BitIndex
  /-- R14 -/
  timeoutCount : Count
  /-- R15 -/
  prevLevel : Bool
  /-- R16 -/
  lastEdgeTime : Time
  deriving DecidableEq, Repr

/-- R19 to R23: the sender. -/
structure Sender where
  /-- R19, the output line: `true` is mark. -/
  out : Bool
  /-- R20 -/
  carrierEn : Bool
  /-- R21 -/
  hdrMsg : Half
  /-- R21 -/
  cmdMsg : Half
  /-- R22 -/
  busy : Bool
  /-- R23 -/
  phase : Phase
  /-- R23, 0 to 131. -/
  seg : Fin 132
  deriving DecidableEq, Repr

/-- A reading of one of the result surface's outputs (R70). -/
inductive Reading where
  /-- `has_data` (R150). -/
  | hasData (b : Bool)
  /-- `is_error` (R151). -/
  | isError (b : Bool)
  /-- `button` and `diag` (R152). -/
  | decoded (button : BitVec 4) (diag : BitVec 7)
  deriving DecidableEq, Repr

/-- Why the sender ignored an operation (R75, R180, R188). -/
inductive TurnedAway where
  /-- `TX_SEND` or `TX_CONSTRUCT` while `t.busy = 1` (R188, U6). -/
  | senderBusy
  /-- `tx_op = 11` (R180, U7). -/
  | reservedOp
  deriving DecidableEq, Repr

/-- The Host's notes, outside the block (R51): what it read last, and by name what the sender last
turned away. No rule of the block reads them. -/
structure HostView where
  lastRead : Option Reading
  turnedAway : Option TurnedAway
  deriving DecidableEq, Repr

/-- The whole state. -/
structure State where
  /-- The Receiver's record `s`. -/
  rx : Receiver
  /-- The Sender's record `t`. -/
  tx : Sender
  /-- R8, R181: the segments emitted so far on the output line, oldest first. -/
  wave : List Segment
  /-- R51: the words the Host and the Environment present, the next one first. -/
  pending : List PortWord
  host : HostView
  deriving DecidableEq, Repr

/-- Why the machine stops with a fault. -/
inductive Fault where
  /-- `timeoutCount` holds its unused value 3 when an edge reads it: in `ReadTimeout` (R136), or to count
  a timeout-mark (R135) (U17 of spec/93_implementation_defined.md). Raised by `RX_TICK`, the symbols
  and the frame patterns. Safe: no reachable state holds the value (R14, R27). -/
  | timeoutCountUnused
  /-- `AppendBit` with `bitIndex` above 128, which R8 and R40 make illegal. Raised by the same
  instructions. Safe: no reachable state has such an index (R13, R47). -/
  | appendOutOfRange
  deriving DecidableEq, Repr

/-- Why the machine refuses. -/
inductive Refusal where
  /-- An instruction without a meaning in this model. Raised by no arm of `exec` as it stands. -/
  | notModelled (mnemonic : String)
  /-- A segment at a position of the sender that does not emit it (R187 gives the driver no such
  step). Raised by the nine segments, and by a word on the driver's port that is not the due segment.
  Safe. -/
  | segmentNotDue
  deriving DecidableEq, Repr

/-- R30, R230: the receiver after power-on. `prevLevel` and `lastEdgeTime` are unspecified there; the
model names `false` and 0 (notes/assumptions/2.md). -/
def Receiver.reset : Receiver :=
  { receiverState := .stopped
    readState := .none
    buf := 0#128
    bitIndex := 0#8
    timeoutCount := 0#2
    prevLevel := false
    lastEdgeTime := 0#32 }

/-- R30, R230: the sender after power-on. `hdrMsg` and `cmdMsg` are unspecified there; the model names
0 (notes/assumptions/2.md). -/
def Sender.reset : Sender :=
  { out := false
    carrierEn := false
    hdrMsg := 0#64
    cmdMsg := 0#64
    busy := false
    phase := .rest
    seg := 0 }

/-- The machine right after power-on: nothing on the line, nothing presented, nothing read. -/
def State.reset : State :=
  { rx := Receiver.reset
    tx := Sender.reset
    wave := []
    pending := []
    host := { lastRead := none, turnedAway := none } }

end Sys2Proof.Machine
end

