-- ==== Sys2Proof/Machine/Ops.lean ====
section
/-!
DEFINITION. The named operations over the frame buffer, the receiver, the sender and the line:
the frame buffer's accesses (spec/20_memory.md R40), raising a condition and returning from one
(spec/60_exceptions.md R201 to R208), emitting a segment (R181), and the lifting of an operation of
one component to the whole machine (R51, R213).
-/
namespace Sys2Proof.Machine

/-! ### The frame buffer -/

/-- R7: frame bit `buf[i]`, `buf[0]` the most significant. -/
def bufBit (buf : Frame) (i : Nat) : Bool := buf.getMsbD i

/-- R40: `buf[i] <- b`. -/
def setBufBit (buf : Frame) (i : Nat) (b : Bool) : Frame :=
  let m : Frame := 1#128 <<< (127 - i)
  if b then buf ||| m else buf &&& ~~~m

/-- R7, R40: `ByteAt(k)`, `k` in 0 to 15. -/
def byteAt (buf : Frame) (k : Nat) : BitVec 8 := buf.extractLsb' (8 * (15 - k)) 8

/-- R8, R152: `ByteRange(a, 2)`. -/
def bytes2 (buf : Frame) (a : Nat) : BitVec 16 := byteAt buf a ++ byteAt buf (a + 1)

/-- R8, R152: `ByteRange(a, 3)`. -/
def bytes3 (buf : Frame) (a : Nat) : BitVec 24 :=
  (byteAt buf a ++ byteAt buf (a + 1)) ++ byteAt buf (a + 2)

/-- R40: `AppendBit(b)`, legal only when `bitIndex < FRAME_BITS`. -/
def appendBit (b : Bool) (r : Receiver) : Except Fault Receiver :=
  if r.bitIndex.toNat < Config.params.frameBits then
    .ok { r with buf := setBufBit r.buf r.bitIndex.toNat b, bitIndex := r.bitIndex + 1#8 }
  else .error .appendOutOfRange

/-! ### Conditions: entry and return -/

/-- R200: the three conditions that an edge raises. -/
inductive Condition where
  /-- E1 -/
  | unrecognizedSymbol
  /-- E2 -/
  | midFrameSilence
  /-- E3 -/
  | overflow
  deriving DecidableEq, Repr

/-- R201, R202, R203, R207: raising a condition writes `receiverState` (and `readState` for E1) and
nothing else. -/
def raise (c : Condition) (r : Receiver) : Receiver :=
  match c with
  | .unrecognizedSymbol => { r with readState := .error, receiverState := .stopped }
  | .midFrameSilence => { r with receiverState := .timedOut }
  | .overflow => { r with receiverState := .overflowed }

/-- R96, R208: the soft reset, the only way out of a terminal state. It restores nothing and does not
write `prevLevel` and `lastEdgeTime`. -/
def softReset (r : Receiver) : Receiver :=
  { r with
    buf := 0#128
    bitIndex := 0#8
    timeoutCount := 0#2
    receiverState := .idle
    readState := .none }

/-! ### The line -/

/-- R181, D28: the driver puts a segment on the line: the output takes the segment's level unless the
segment has no length. -/
def driveLine (g : Segment) (t : Sender) : Sender :=
  if g.duration = 0 then t else { t with out := g.level.line }

/-- R8: `emit` appends the segment to the line's waveform. -/
def appendSegment (g : Segment) (wave : List Segment) : List Segment := wave ++ [g]

/-! ### One component's operation in the whole machine -/

/-- An operation of the receiver: it writes only `s` (R213). -/
def onReceiver (s : State) (res : Except Fault Receiver) : Host.Outcome State Fault Refusal :=
  match res with
  | .ok r => .next { s with rx := r }
  | .error f => .fault f

/-- R75, R188: the sender ignores an operation. Neither component changes; the Host's note names why. -/
def turnAway (why : TurnedAway) (s : State) : State :=
  { s with host := { s.host with turnedAway := some why } }

/-- R48, R70: the Host reads an output. Neither component changes; the note holds what was read. -/
def noteReading (v : Reading) (s : State) : State :=
  { s with host := { s.host with lastRead := some v } }

end Sys2Proof.Machine
end

