-- ==== Sys2Proof/Machine/Operands.lean ====
section
/-!
DEFINITION. Where the operations take their operands from: the elapsed time of an edge (R94), the
durations that carry a bit and a half on the wire (R65, R76), and the segment that the sender's
position calls for with the position after it (R182, R187).
-/
namespace Sys2Proof.Machine

/-- R94: `(now - lastEdgeTime) mod 2^32`. -/
def elapsedAt (now : Time) (r : Receiver) : Time := now - r.lastEdgeTime

/-- A duration of the table as a value of the time base. -/
def micros (n : Nat) : Time := BitVec.ofNat 32 n

/-- R42, R174: message bit `msg[i]`, `msg[0]` first on the wire. -/
def msgBit (m : Half) (i : Nat) : Bool := m.getMsbD i

/-- The bits of a half in wire order. -/
def msgBits (m : Half) : List Bool := (List.range Config.params.halfBits).map (msgBit m)

/-- R65, R76 `BITRX b`: the two durations of a bit as the receiver sees them. -/
def bitDurations (p : Params) (b : Bool) : List Time :=
  [micros p.tBitSpace, micros (if b then p.tOneMark else p.tZeroMark)]

/-- R65, R76 `HALFRX m`: the durations of a half, without the one that closes it. -/
def halfDurations (p : Params) (m : Half) : List Time :=
  micros p.tLongSpace :: micros p.tStartMark :: (msgBits m).flatMap (bitDurations p)

/-- R76 `FRAMERX`: the 263 durations of a frame of two halves after its start (R140). -/
def frameDurations (p : Params) (first second : Half) : List Time :=
  halfDurations p first ++ [micros p.tBitSpace, micros p.tTimeoutMark]
    ++ halfDurations p second ++ [micros p.tBitSpace]

/-- R182, R187: the segment with index `seg` of a half. -/
def halfSegment (m : Half) (seg : Fin 132) : SegKind :=
  if seg.val = 0 then .syncMark
  else if seg.val = 1 then .syncSpace
  else if seg.val = 130 then .stopMark
  else if seg.val = 131 then .stopSpace
  else if seg.val % 2 = 0 then .bitMark
  else if msgBit m ((seg.val - 3) / 2) then .oneSpace
  else .zeroSpace

/-- R187: the segment that the sender's position calls for, none at rest. -/
def dueSegment (t : Sender) : Option SegKind :=
  match t.phase with
  | .rest => none
  | .hdrHalf => some (halfSegment t.hdrMsg t.seg)
  | .halfGap => if t.seg = 0 then some .halfGap else none
  | .cmdHalf => some (halfSegment t.cmdMsg t.seg)
  | .cmdGap => if t.seg = 0 then some .cmdGap else none

/-- R187: the position after the segment, and the end of `busy` after the inter-command gap. -/
def advance (t : Sender) : Sender :=
  match t.phase with
  | .rest => t
  | .hdrHalf =>
    if t.seg.val = 131 then { t with phase := .halfGap, seg := 0 } else { t with seg := t.seg + 1 }
  | .halfGap => { t with phase := .cmdHalf, seg := 0 }
  | .cmdHalf =>
    if t.seg.val = 131 then { t with phase := .cmdGap, seg := 0 } else { t with seg := t.seg + 1 }
  | .cmdGap => { t with phase := .rest, seg := 0, busy := false }

/-- What the decoder reads of the two components. -/
def decodeCtx (s : State) : DecodeCtx :=
  { bitIndex := s.rx.bitIndex
    readState := s.rx.readState
    timeoutCount := s.rx.timeoutCount
    due := dueSegment s.tx }

end Sys2Proof.Machine
end

