-- ==== Sys2Proof/Machine/Flags.lean ====
section
/-!
DEFINITION. The outputs of the two components, pure functions of the state and none of them stored:
the receiver's status flags and decoded value (R18, spec/43_rx_validator.md R150 to R159) and the
sender's outputs (R71). Beside them, three readings of the state for proofs, which are not outputs of
the block (R211, U9; notes/assumptions/17.md): `receiverStateCode`, `readStateCode`, `shownCondition`.
-/
namespace Sys2Proof.Machine

/-- R150: `has_data`. -/
def hasData (r : Receiver) : Bool :=
  (decide (r.receiverState = .timedOut) || decide (r.receiverState = .overflowed))
    && decide (r.bitIndex = Config.params.frameEnd)

/-- R151: `is_error`. -/
def isError (r : Receiver) : Bool :=
  decide (r.readState = .error) || decide (r.receiverState = .stopped)

/-- R73: the seven diagnostic flags. -/
structure Diag where
  len : Bool := false
  hdrPrefix : Bool := false
  hdrBegin : Bool := false
  hdrBody : Bool := false
  cmdPrefix : Bool := false
  cmdBegin : Bool := false
  noMatch : Bool := false
  deriving DecidableEq, Repr

/-- R70, R73: the port `diag[6:0]`, `LEN` in bit 0 and `NO_MATCH` in bit 6. -/
def Diag.word (d : Diag) : BitVec 7 :=
  ((((((BitVec.ofBool d.noMatch ++ BitVec.ofBool d.cmdBegin) ++ BitVec.ofBool d.cmdPrefix)
    ++ BitVec.ofBool d.hdrBody) ++ BitVec.ofBool d.hdrBegin) ++ BitVec.ofBool d.hdrPrefix)
    ++ BitVec.ofBool d.len)

/-- R154: the five structural comparisons, every one made. -/
def structuralDiag (p : Params) (buf : Frame) : Diag :=
  { hdrPrefix := decide (bytes3 buf 0 ≠ p.framePrefix)
    hdrBegin := decide (bytes2 buf 3 ≠ p.hdrBegin)
    hdrBody := decide (bytes3 buf 5 ≠ p.hdrBody)
    cmdPrefix := decide (bytes3 buf 8 ≠ p.framePrefix)
    cmdBegin := decide (bytes2 buf 11 ≠ p.cmdBegin) }

/-- R155: whether some structural comparison failed (`diag[5:1]`). -/
def Diag.structural (d : Diag) : Bool :=
  d.hdrPrefix || d.hdrBegin || d.hdrBody || d.cmdPrefix || d.cmdBegin

/-- R156: the place of the first row of the table with that body. -/
def matchBody (t : List ButtonEntry) (b : Body) : Option Nat :=
  t.findIdx? (fun x => decide (x.body = b))

/-- R72: the 4-bit button code, 0 for `Unknown` and `1 + k` for `BUTTONS[k]`. -/
def buttonCode : Option Nat → BitVec 4
  | none => 0#4
  | some k => BitVec.ofNat 4 (1 + k)

/-- The outputs `button` and `diag` together. -/
structure Decoded where
  button : BitVec 4
  diag : Diag
  deriving DecidableEq, Repr

/-- R152 to R159: `decodeButton`, from the bit count and the buffer alone (D18). -/
def decodeButton (p : Params) (r : Receiver) : Decoded :=
  if r.bitIndex ≠ p.frameEnd then ⟨0#4, { len := true }⟩
  else
    let d := structuralDiag p r.buf
    if p.strictDecode && d.structural then ⟨0#4, d⟩
    else match matchBody p.buttons (bytes3 r.buf 13) with
      | some k => ⟨buttonCode (some k), d⟩
      | none => ⟨buttonCode none, { d with noMatch := true }⟩

/-! ### Codes, and readings of the state for proofs -/

/-- R66: the 3-bit code of `receiverState`. No output of the block shows it: exposing it for proofs is
this model's choice, outside the document's surface (R211, U9; notes/assumptions/17.md). -/
def receiverStateCode : ReceiverState → BitVec 3
  | .stopped => 0#3
  | .idle => 1#3
  | .running => 2#3
  | .timedOut => 3#3
  | .overflowed => 4#3

/-- R67: the 3-bit code of `readState`. For proofs, outside the document's surface, as
`receiverStateCode`. -/
def readStateCode : ReadState → BitVec 3
  | .none => 0#3
  | .readStart => 1#3
  | .readSpace => 2#3
  | .readMark => 3#3
  | .readTimeout => 4#3
  | .error => 5#3

/-- R200: the block has no cause register; which of E1, E2 and E3 an edge raised is read off the
state. `Stopped` before the first reset shows none (R10). This is no output of the block: through
`has_data` and `is_error` a `TimedOut` receiver looks like one in `Idle` or `Running` (R211). Telling
them apart is exposed for proofs only, by this model's choice and outside the document's surface (U9;
notes/assumptions/17.md). -/
def shownCondition (r : Receiver) : Option Condition :=
  match r.receiverState with
  | .stopped => if r.readState = .error then some .unrecognizedSymbol else none
  | .timedOut => some .midFrameSilence
  | .overflowed => some .overflow
  | .idle => none
  | .running => none

/-- R72: the table row of a button code, none for `Unknown`. -/
def buttonOfCode (t : List ButtonEntry) (code : BitVec 4) : Option ButtonEntry :=
  if code = 0#4 then none else t[code.toNat - 1]?

/-! ### The sender's outputs -/

/-- R71: `tx_mark`. -/
def txMark (t : Sender) : Bool := t.out
/-- R71: `tx_busy`. -/
def txBusy (t : Sender) : Bool := t.busy
/-- R71: `tx_carrier_en`. -/
def txCarrierEn (t : Sender) : Bool := t.carrierEn

end Sys2Proof.Machine
end

