-- ==== Sys2Proof/Machine/Symbols.lean ====
section
/-!
DEFINITION. The receiver's internal step `onEdge` (spec/41_rx_classifier.md R111) and the ten symbol
instructions (spec/42_rx_frame_assembler.md R130 to R138): what the receiver does with one edge of a
given duration. A symbol is never identified by its name or by the line level, only by its duration
and the receiver's position (R63), so an edge that the position classifies otherwise than the
instruction's name says is taken for what the position makes of it. Outside `Running` no edge is
classified (R91, R92).
-/
namespace Sys2Proof.Machine

/-! ### What each class does (step 3 and step 4 of `onEdge`) -/

/-- A rule that reads the timeout counter; its unused value 3 is a fault (U17). -/
def readCount (r : Receiver) (k : Except Fault Receiver) : Except Fault Receiver :=
  if r.timeoutCount = 3#2 then .error .timeoutCountUnused else k

/-- R130, R136: a long space starts a half. -/
def applyLongSpace (r : Receiver) : Except Fault Receiver := .ok { r with readState := .readStart }

/-- R131. -/
def applyStartMark (r : Receiver) : Except Fault Receiver := .ok { r with readState := .readSpace }

/-- R132. -/
def applyBitSpace (r : Receiver) : Except Fault Receiver := .ok { r with readState := .readMark }

/-- R133, R134: `AppendBit(b)` and back to `ReadSpace`. -/
def applyBit (b : Bool) (r : Receiver) : Except Fault Receiver :=
  match appendBit b r with
  | .ok r' => .ok { r' with readState := .readSpace }
  | .error f => .error f

/-- R133. -/
def applyZeroMark (r : Receiver) : Except Fault Receiver := applyBit false r

/-- R134. -/
def applyOneMark (r : Receiver) : Except Fault Receiver := applyBit true r

/-- R135: the counter goes up; no bit is appended. -/
def applyTimeoutMark (r : Receiver) : Except Fault Receiver :=
  readCount r (.ok { r with timeoutCount := r.timeoutCount + 1#2, readState := .readTimeout })

/-- R137: `raise Error`. -/
def applyInvalid (r : Receiver) : Except Fault Receiver := .ok (raise .unrecognizedSymbol r)

/-- R136, R138: an edge that is consumed with no effect, or, in `ReadTimeout` under the policy `error`,
raises `Error`. -/
def applyDone (p : Params) (r : Receiver) : Except Fault Receiver :=
  if r.readState = .readTimeout then
    readCount r (.ok (if p.secondTimeout = .error then raise .unrecognizedSymbol r else r))
  else .ok r

/-- R113: `raise TimedOut`. -/
def applyCeiling (r : Receiver) : Except Fault Receiver := .ok (raise .midFrameSilence r)

/-- R112: `raise Overflowed`. -/
def applyOverflow (r : Receiver) : Except Fault Receiver := .ok (raise .overflow r)

/-- Step 3 and step 4: the effect of the class that `classify` answers. -/
def applyClass (p : Params) (c : EdgeClass) (r : Receiver) : Except Fault Receiver :=
  match c with
  | .longSpace => applyLongSpace r
  | .startMark => applyStartMark r
  | .bitSpace => applyBitSpace r
  | .zeroMark => applyZeroMark r
  | .oneMark => applyOneMark r
  | .timeoutMark => applyTimeoutMark r
  | .invalid => applyInvalid r
  | .done => applyDone p r
  | .ceiling => applyCeiling r
  | .overflowEdge => applyOverflow r

/-- R111: `onEdge(elapsed)`, the order of its steps. -/
def onEdge (p : Params) (e : Time) (r : Receiver) : Except Fault Receiver :=
  if r.bitIndex = p.frameEnd then applyOverflow r
  else if p.tCeiling < e.toNat then applyCeiling r
  else applyClass p (classify p r.readState r.timeoutCount e) r

/-! ### The symbol instructions -/

/-- The class of an edge at the receiver's position. -/
def classAt (p : Params) (e : Time) (r : Receiver) : EdgeClass :=
  edgeClass p r.bitIndex r.readState r.timeoutCount e

/-- An edge of duration `e` named as class `c` with effect `f`, taken by the receiver. -/
def symbolEdge (c : EdgeClass) (f : Receiver → Except Fault Receiver) (e : Time) (r : Receiver) :
    Except Fault Receiver :=
  if r.receiverState = .running then
    if classAt Config.params e r = c then f r else onEdge Config.params e r
  else .ok r

/-- `LONG_SPACE` (R130, R136). -/
def execLongSpace (e : Time) (s : State) : Host.Outcome State Fault Refusal :=
  onReceiver s (symbolEdge .longSpace applyLongSpace e s.rx)

/-- `START_MARK` (R131). -/
def execStartMark (e : Time) (s : State) : Host.Outcome State Fault Refusal :=
  onReceiver s (symbolEdge .startMark applyStartMark e s.rx)

/-- `BIT_SPACE` (R132). -/
def execBitSpace (e : Time) (s : State) : Host.Outcome State Fault Refusal :=
  onReceiver s (symbolEdge .bitSpace applyBitSpace e s.rx)

/-- `ZERO_MARK` (R133). -/
def execZeroMark (e : Time) (s : State) : Host.Outcome State Fault Refusal :=
  onReceiver s (symbolEdge .zeroMark applyZeroMark e s.rx)

/-- `ONE_MARK` (R134). -/
def execOneMark (e : Time) (s : State) : Host.Outcome State Fault Refusal :=
  onReceiver s (symbolEdge .oneMark applyOneMark e s.rx)

/-- `TIMEOUT_MARK` (R135). -/
def execTimeoutMark (e : Time) (s : State) : Host.Outcome State Fault Refusal :=
  onReceiver s (symbolEdge .timeoutMark applyTimeoutMark e s.rx)

/-- `CEILING` (R113). -/
def execCeiling (e : Time) (s : State) : Host.Outcome State Fault Refusal :=
  onReceiver s (symbolEdge .ceiling applyCeiling e s.rx)

/-- `INVALID` (R137). -/
def execInvalid (e : Time) (s : State) : Host.Outcome State Fault Refusal :=
  onReceiver s (symbolEdge .invalid applyInvalid e s.rx)

/-- `OVERFLOW_EDGE` (R112). -/
def execOverflowEdge (e : Time) (s : State) : Host.Outcome State Fault Refusal :=
  onReceiver s (symbolEdge .overflowEdge applyOverflow e s.rx)

/-- `DONE` (R136, R138). -/
def execDone (e : Time) (s : State) : Host.Outcome State Fault Refusal :=
  onReceiver s (symbolEdge .done (applyDone Config.params) e s.rx)

end Sys2Proof.Machine
end

