-- ==== Sys2Proof/Machine/Rx.lean ====
section
/-!
DEFINITION. The receiver's operations (spec/40_rx_sampling.md R90 to R97): the sampling state machine
and the edge detector.
-/
namespace Sys2Proof.Machine

/-- R91, R92, R93: `tick(level, now)`. -/
def tick (p : Params) (level : Bool) (now : Time) (r : Receiver) : Except Fault Receiver :=
  match r.receiverState with
  | .stopped => .ok r
  | .timedOut => .ok r
  | .overflowed => .ok r
  | .idle =>
    if level = p.rxActiveLevel then
      .ok { r with lastEdgeTime := now, prevLevel := level, receiverState := .running }
    else .ok r
  | .running =>
    if level ≠ r.prevLevel then
      onEdge p (elapsedAt now r) { r with lastEdgeTime := now, prevLevel := level }
    else .ok r

/-- `RX_NOP` (R90). -/
def execRxNop (s : State) : Host.Outcome State Fault Refusal := .next s

/-- `RX_TICK` (R91 to R95). -/
def execRxTick (level : Bool) (now : Time) (s : State) : Host.Outcome State Fault Refusal :=
  onReceiver s (tick Config.params level now s.rx)

/-- `RX_RESET` (R96). -/
def execRxReset (s : State) : Host.Outcome State Fault Refusal :=
  onReceiver s (.ok (softReset s.rx))

/-- `RX_INIT` (R97): on the block's state exactly `RX_RESET` (D19). -/
def execRxInit (s : State) : Host.Outcome State Fault Refusal :=
  onReceiver s (.ok (softReset s.rx))

end Sys2Proof.Machine
end

