-- ==== Sys2Proof/Machine/Query.lean ====
section
/-!
DEFINITION. The three queries (spec/43_rx_validator.md R150 to R159). Reading an output changes
neither component (R48); what was read stands in the Host's note.
-/
namespace Sys2Proof.Machine

/-- `RX_HASDATA` (R150). -/
def execRxHasdata (s : State) : Host.Outcome State Fault Refusal :=
  .next (noteReading (.hasData (hasData s.rx)) s)

/-- `RX_ISERROR` (R151). -/
def execRxIserror (s : State) : Host.Outcome State Fault Refusal :=
  .next (noteReading (.isError (isError s.rx)) s)

/-- `RX_DECODE` (R152). -/
def execRxDecode (s : State) : Host.Outcome State Fault Refusal :=
  let d := decodeButton Config.params s.rx
  .next (noteReading (.decoded d.button d.diag.word) s)

end Sys2Proof.Machine
end

