-- ==== Sys2Proof/Machine/Tx.lean ====
section
/-!
DEFINITION. The sender's operations (spec/44_tx_bitstream.md R170 to R173, spec/45_tx_waveform.md
R180, R185, R186, R188). An accepted `TX_SEND` builds the two messages and puts the line driver at the
first segment; the 266 segments are the driver's own steps (Segments.lean, R187).
-/
namespace Sys2Proof.Machine

/-- R186, steps 1 to 3 and the driver's start (R187). -/
def acceptSend (p : Params) (body : Body) (t : Sender) : Sender :=
  { t with
    busy := true
    hdrMsg := hdrMessage p
    cmdMsg := cmdMessage p body
    carrierEn := true
    phase := .hdrHalf
    seg := 0 }

/-- R185. -/
def construct (t : Sender) : Sender :=
  { t with out := false, carrierEn := false, phase := .rest, seg := 0 }

/-- `TX_NOP` (R180). -/
def execTxNop (s : State) : Host.Outcome State Fault Refusal := .next s

/-- `TX_SEND` (R186, R188). -/
def execTxSend (body : Body) (s : State) : Host.Outcome State Fault Refusal :=
  if s.tx.busy then .next (turnAway .senderBusy s)
  else .next { s with tx := acceptSend Config.params body s.tx }

/-- `TX_CONSTRUCT` (R185, R188). -/
def execTxConstruct (s : State) : Host.Outcome State Fault Refusal :=
  if s.tx.busy then .next (turnAway .senderBusy s)
  else .next { s with tx := construct s.tx }

/-- `TX_RESERVED`: `tx_op = 11` is ignored, as `TX_NOP`, and named in the Host's note (R75, R180). -/
def execTxReserved (s : State) : Host.Outcome State Fault Refusal := .next (turnAway .reservedOp s)

end Sys2Proof.Machine
end

