-- ==== Sys2Proof/Machine/Segments.lean ====
section
/-!
DEFINITION. The nine segments: the steps of the sender's line driver (spec/45_tx_waveform.md R181 to
R184, R187). Each emits its level and duration where the sender's position calls for it and moves the
position; the driver has no other step, so elsewhere the segment is refused by name.
-/
namespace Sys2Proof.Machine

/-- R181, R187: one driver step that emits `(level, duration)` as segment `k`. -/
def driverStep (k : SegKind) (level : Level) (duration : Nat) (s : State) :
    Host.Outcome State Fault Refusal :=
  if dueSegment s.tx = some k then
    .next { s with
      tx := advance (driveLine ⟨level, duration⟩ s.tx)
      wave := appendSegment ⟨level, duration⟩ s.wave }
  else .refused .segmentNotDue

/-- `SYNC_MARK` (R182, segment 0). -/
def execSyncMark (s : State) : Host.Outcome State Fault Refusal :=
  driverStep .syncMark .mark Config.params.tSyncMark s

/-- `SYNC_SPACE` (R182, segment 1). -/
def execSyncSpace (s : State) : Host.Outcome State Fault Refusal :=
  driverStep .syncSpace .space Config.params.tSyncSpace s

/-- `BIT_MARK` (R182, segment 2 + 2i). -/
def execBitMark (s : State) : Host.Outcome State Fault Refusal :=
  driverStep .bitMark .mark Config.params.tBitMark s

/-- `ZERO_SPACE` (R182, segment 3 + 2i of a 0 bit). -/
def execZeroSpace (s : State) : Host.Outcome State Fault Refusal :=
  driverStep .zeroSpace .space Config.params.tZeroSpace s

/-- `ONE_SPACE` (R182, segment 3 + 2i of a 1 bit). -/
def execOneSpace (s : State) : Host.Outcome State Fault Refusal :=
  driverStep .oneSpace .space Config.params.tOneSpace s

/-- `STOP_MARK` (R182, segment 130). -/
def execStopMark (s : State) : Host.Outcome State Fault Refusal :=
  driverStep .stopMark .mark Config.params.tBitMark s

/-- `STOP_SPACE` (R182, segment 131). -/
def execStopSpace (s : State) : Host.Outcome State Fault Refusal :=
  driverStep .stopSpace .space 0 s

/-- `HALF_GAP` (R183). -/
def execHalfGap (s : State) : Host.Outcome State Fault Refusal :=
  driverStep .halfGap .space Config.params.tHalfGap s

/-- `CMD_GAP` (R184). -/
def execCmdGap (s : State) : Host.Outcome State Fault Refusal :=
  driverStep .cmdGap .space Config.params.tCmdGap s

end Sys2Proof.Machine
end

