-- ==== Sys2Proof/Machine/Patterns.lean ====
section
/-!
DEFINITION. The frame patterns (spec/30_encoding.md R60, R61) as what the receiver does when the
pattern arrives on its line with exact nominal durations: the expansions `EDGE`, `HALFRX` and
`FRAMERX` of R76, each edge one tick.
-/
namespace Sys2Proof.Machine

/-- R76 `EDGE d`: in `Running`, the tick that shows the opposite level `d` microseconds after the last
recorded edge. Outside `Running` there is no edge, as for a symbol (R91, R92). -/
def edgeTick (p : Params) (d : Time) (r : Receiver) : Except Fault Receiver :=
  if r.receiverState = .running then tick p (!r.prevLevel) (r.lastEdgeTime + d) r else .ok r

/-- A sequence of edges, each `d` after the one before it. -/
def runEdges (p : Params) : List Time → Receiver → Except Fault Receiver
  | [], r => .ok r
  | d :: ds, r =>
    match edgeTick p d r with
    | .ok r' => runEdges p ds r'
    | .error f => .error f

/-- R76 `HALFRX m`. -/
def receiveHalf (p : Params) (m : Half) (r : Receiver) : Except Fault Receiver :=
  runEdges p (halfDurations p m) r

/-- R76 `FRAMERX`: `START 0` and the 263 edges of a frame of two halves. R76 calls it valid after
`RESET`, and `START` in `Idle`. DESIGN CHOICE (notes/assumptions/7.md), unsafe: elsewhere the first
tick is run as any tick of the active level at time 0. In `Running` with the line last inactive it is
then an edge, of duration `-lastEdgeTime` modulo 2^32; with the line last active, or in a terminal
state, it changes nothing. The 263 edges follow it. -/
def receiveFrame (p : Params) (first second : Half) (r : Receiver) : Except Fault Receiver :=
  match tick p p.rxActiveLevel 0#32 r with
  | .ok r' => runEdges p (frameDurations p first second) r'
  | .error f => .error f

/-- `HDR_HALF` (R61). -/
def execHdrHalf (s : State) : Host.Outcome State Fault Refusal :=
  onReceiver s (receiveHalf Config.params (hdrMessage Config.params) s.rx)

/-- `CMD_HALF` (R61). -/
def execCmdHalf (body : Body) (s : State) : Host.Outcome State Fault Refusal :=
  onReceiver s (receiveHalf Config.params (cmdMessage Config.params body) s.rx)

/-- `CMD_ONOFF` (R61, R156). -/
def execCmdOnoff (s : State) : Host.Outcome State Fault Refusal :=
  onReceiver s (receiveHalf Config.params (cmdMessage Config.params Config.params.bodyOnoff) s.rx)

/-- `CMD_FAN` (R61, R156). -/
def execCmdFan (s : State) : Host.Outcome State Fault Refusal :=
  onReceiver s (receiveHalf Config.params (cmdMessage Config.params Config.params.bodyFan) s.rx)

/-- `FRAME` (R60). -/
def execFrame (body : Body) (s : State) : Host.Outcome State Fault Refusal :=
  onReceiver s
    (receiveFrame Config.params (hdrMessage Config.params) (cmdMessage Config.params body) s.rx)

/-- What the machine does with a word that is no instruction of the table. The receiver takes a half
or a frame whatever its prefix, begin and body (R75, R155: lenient), as `HALFRX` and `FRAMERX` of R76
with the bits presented; that such a word runs beside the table's rows is this model's choice
(notes/assumptions/16.md). A word on the driver's port that is not the due segment is refused like
the segment itself (R187). -/
def takeUnlisted (why : Reject) (bits : Nat) (s : State) : Host.Outcome State Fault Refusal :=
  match why with
  | .unknownHalf => onReceiver s (receiveHalf Config.params (fieldOf bits 0 64) s.rx)
  | .unknownFrame =>
    onReceiver s (receiveFrame Config.params (fieldOf bits 64 64) (fieldOf bits 0 64) s.rx)
  | .noSegmentDue => .refused .segmentNotDue
  | .notTheDueSegment => .refused .segmentNotDue

end Sys2Proof.Machine
end

