-- ==== Sys2Proof/Machine/Dispatch.lean ====
section
/-!
DEFINITION. Which meaning each instruction has: one arm per constructor of `Instr`.
-/
namespace Sys2Proof.Machine

def exec (i : Instr) (s : State) : Host.Outcome State Fault Refusal :=
  match i with
  | .rxNop => Sys2Proof.Machine.execRxNop s
  | .rxTick level now => Sys2Proof.Machine.execRxTick level now s
  | .rxReset => Sys2Proof.Machine.execRxReset s
  | .rxInit => Sys2Proof.Machine.execRxInit s
  | .txNop => Sys2Proof.Machine.execTxNop s
  | .txSend body => Sys2Proof.Machine.execTxSend body s
  | .txConstruct => Sys2Proof.Machine.execTxConstruct s
  | .txReserved => Sys2Proof.Machine.execTxReserved s
  | .rxHasdata => Sys2Proof.Machine.execRxHasdata s
  | .rxIserror => Sys2Proof.Machine.execRxIserror s
  | .rxDecode => Sys2Proof.Machine.execRxDecode s
  | .longSpace e => Sys2Proof.Machine.execLongSpace e s
  | .startMark e => Sys2Proof.Machine.execStartMark e s
  | .bitSpace e => Sys2Proof.Machine.execBitSpace e s
  | .zeroMark e => Sys2Proof.Machine.execZeroMark e s
  | .oneMark e => Sys2Proof.Machine.execOneMark e s
  | .timeoutMark e => Sys2Proof.Machine.execTimeoutMark e s
  | .ceiling e => Sys2Proof.Machine.execCeiling e s
  | .invalid e => Sys2Proof.Machine.execInvalid e s
  | .overflowEdge e => Sys2Proof.Machine.execOverflowEdge e s
  | .done e => Sys2Proof.Machine.execDone e s
  | .syncMark => Sys2Proof.Machine.execSyncMark s
  | .syncSpace => Sys2Proof.Machine.execSyncSpace s
  | .bitMark => Sys2Proof.Machine.execBitMark s
  | .zeroSpace => Sys2Proof.Machine.execZeroSpace s
  | .oneSpace => Sys2Proof.Machine.execOneSpace s
  | .stopMark => Sys2Proof.Machine.execStopMark s
  | .stopSpace => Sys2Proof.Machine.execStopSpace s
  | .halfGap => Sys2Proof.Machine.execHalfGap s
  | .cmdGap => Sys2Proof.Machine.execCmdGap s
  | .hdrHalf => Sys2Proof.Machine.execHdrHalf s
  | .cmdHalf body => Sys2Proof.Machine.execCmdHalf body s
  | .cmdOnoff => Sys2Proof.Machine.execCmdOnoff s
  | .cmdFan => Sys2Proof.Machine.execCmdFan s
  | .frame body => Sys2Proof.Machine.execFrame body s

end Sys2Proof.Machine
end

