-- ==== Sys2Proof/Machine/Fetch.lean ====
section
/-!
DEFINITION. Which word the machine takes next. The block stores no program (spec/20_memory.md R49,
R55): the words come from outside, in the order the Host and the Environment present them (R51, R52);
with none presented, a sender that is not at rest takes its own driver's next step (R187).
-/
namespace Sys2Proof.Machine

/-- The word of the segment that the sender's position calls for. -/
def driverWord (s : State) : Option PortWord :=
  (dueSegment s.tx).map (fun k => ⟨.driver, segmentBits (segmentOf Config.params k)⟩)

/-- The next word. -/
def fetch (s : State) : Option PortWord :=
  match s.pending with
  | w :: _ => some w
  | [] => driverWord s

/-- The state once the presented word is taken. -/
def takeWord (s : State) : State := { s with pending := s.pending.tail }

/-- A word put in front of the presented ones. -/
def present (w : PortWord) (s : State) : State := { s with pending := w :: s.pending }

end Sys2Proof.Machine
end

