-- ==== Sys2Proof/Machine/Step.lean ====
section
/-!
DEFINITION. One step of the machine: the next word is decoded at the position of the two components
and its instruction runs; a half or a frame without a row of the table is received all the same
(`takeUnlisted`). A step at which nothing is presented and the sender rests is the `RX_NOP`
and `TX_NOP` of R90 and R180.
-/
namespace Sys2Proof.Machine

def step (s : State) : Host.Outcome State Fault Refusal :=
  match fetch s with
  | none => exec .rxNop s
  | some w =>
    match decode Config.params (decodeCtx s) w with
    | .ok i => exec i (takeWord s)
    | .error why => takeUnlisted why w.bits (takeWord s)

/-- The state in which the next step runs the instruction of a table word: the word is presented, on
the port that the table's word belongs to, before everything else. -/
def State.withFetchWord (s : State) (nbits w : Nat) : State := present ⟨tablePort nbits, w⟩ s

end Sys2Proof.Machine
end

