-- ==== Sys2Proof/Safety.lean ====
section
/-!
DEFINITION. What claims are stated in: the invariants of reachable states (spec/10_state.md R27 for
the receiver), the terminal states (R9), and the waveform of a whole send as a list (R182, R186).
-/
namespace Sys2Proof.Machine

/-- R9: ticks are ignored until a reset. -/
def Receiver.terminal (r : Receiver) : Bool :=
  match r.receiverState with
  | .stopped => true
  | .timedOut => true
  | .overflowed => true
  | .idle => false
  | .running => false

/-- R27: what holds in every reachable receiver state. `item10` is not in R27; it is what makes item 2
survive a timeout-mark (`ReadMark` is not entered after the second one, D15). -/
structure Receiver.Inv (r : Receiver) : Prop where
  item1 : r.bitIndex.toNat ≤ 128
  item2 : r.timeoutCount.toNat ≤ 2
  item3a : r.readState = .error → r.receiverState = .stopped
  item3b : r.receiverState = .stopped → r.readState = .error ∨ r.readState = .none
  item4 : r.receiverState = .idle →
    r.readState = .none ∧ r.bitIndex = 0#8 ∧ r.timeoutCount = 0#2 ∧ r.buf = 0#128
  item5 : r.receiverState = .timedOut → r.bitIndex.toNat < 128
  item6 : r.receiverState = .overflowed → r.bitIndex = 128#8
  item7 : r.receiverState = .stopped → r.bitIndex.toNat < 128
  item8 : r.readState = .readTimeout → r.timeoutCount = 1#2 ∨ r.timeoutCount = 2#2
  item9 : ∀ i, r.bitIndex.toNat ≤ i → i < 128 → bufBit r.buf i = false
  item10 : r.timeoutCount = 2#2 → r.readState = .readTimeout ∨ r.readState = .error

/-- R22, R23, R187: what holds in every reachable sender state. -/
structure Sender.Inv (t : Sender) : Prop where
  busyPhase : t.busy = true ↔ t.phase ≠ .rest
  gapSeg : t.phase = .rest ∨ t.phase = .halfGap ∨ t.phase = .cmdGap → t.seg = 0
  restLine : t.phase = .rest → t.out = false
  sending : t.busy = true → t.carrierEn = true
    ∧ t.hdrMsg = hdrMessage Config.params ∧ ∃ body, t.cmdMsg = cmdMessage Config.params body

/-- The invariant of the whole machine. -/
structure State.Inv (s : State) : Prop where
  rx : s.rx.Inv
  tx : s.tx.Inv

/-- R182: the 132 segments of a half. -/
def halfWave (p : Params) (m : Half) : List Segment :=
  ⟨.mark, p.tSyncMark⟩ :: ⟨.space, p.tSyncSpace⟩
    :: (msgBits m).flatMap (fun b =>
      [⟨.mark, p.tBitMark⟩, ⟨.space, if b then p.tOneSpace else p.tZeroSpace⟩])
    ++ [⟨.mark, p.tBitMark⟩, ⟨.space, 0⟩]

/-- R186: the 266 segments of a `TX_SEND` as one list. -/
def sendWave (p : Params) (body : Body) : List Segment :=
  halfWave p (hdrMessage p) ++ [⟨.space, p.tHalfGap⟩] ++ halfWave p (cmdMessage p body)
    ++ [⟨.space, p.tCmdGap⟩]

/-- The time a list of segments takes (R181). -/
def waveTime (w : List Segment) : Nat := (w.map Segment.duration).sum

/-- The lengths of the line's level intervals: zero-length segments dropped, neighbours of one level
merged (R181). -/
def intervals : List Segment → List (Level × Nat)
  | [] => []
  | g :: w =>
    if g.duration = 0 then intervals w
    else match intervals w with
      | [] => [(g.level, g.duration)]
      | (l, d) :: rest =>
        if l = g.level then (l, g.duration + d) :: rest else (g.level, g.duration) :: (l, d) :: rest

/-- R181: the line at time `x` under a waveform that starts at `t0`; it rests before and after. -/
def lineAt : List Segment → Nat → Nat → Bool
  | [], _, _ => false
  | g :: w, t0, x =>
    if x < t0 then false
    else if x < t0 + g.duration then g.level.line
    else lineAt w (t0 + g.duration) x

/-! ### Sequences of receiver operations -/

/-- The `RX_TICK` operations of a list, one after another, up to the first that stops. -/
def runTicks : List (Bool × Time) → State → Host.Outcome State Fault Refusal
  | [], s => .next s
  | (level, now) :: ts, s =>
    match exec (.rxTick level now) s with
    | .next s' => runTicks ts s'
    | .fault f => .fault f
    | .refused r => .refused r

/-- The ticks that show the edges of a list of durations (R76 `EDGE`): the first shows `level` and
stands `d` after `start`, and the level alternates. -/
def edgeTicks (level : Bool) (start : Time) : List Time → List (Bool × Time)
  | [] => []
  | d :: ds => (level, start + d) :: edgeTicks (!level) (start + d) ds

/-- R190: the ticks at `0, T, 2T, ..., n T` of a receiver whose input is the active level exactly while
the waveform, started at `t0`, is at mark. -/
def sampleTicks (p : Params) (w : List Segment) (t0 T n : Nat) : List (Bool × Time) :=
  (List.range (n + 1)).map (fun k =>
    (if lineAt w t0 (k * T) then p.rxActiveLevel else !p.rxActiveLevel, BitVec.ofNat 32 (k * T)))

/-! ### The windows of a well-formed frame -/

/-- R65, R63: the windows of the two durations of a bit. -/
def bitWindows (b : Bool) : List (Nat × Nat) :=
  [(235, 635), if b then (1095, 1495) else (235, 635)]

/-- R65, R63: the windows of a half's durations without the one that closes it. -/
def halfWindows (bits : List Bool) : List (Nat × Nat) :=
  (3300, 3700) :: (1560, 1960) :: bits.flatMap bitWindows

/-- R140: the windows of the 263 durations of a frame with bits `F`. -/
def frameWindows (F : Frame) : List (Nat × Nat) :=
  halfWindows ((List.range 64).map (bufBit F)) ++ [(235, 635), (29800, 31000)]
    ++ halfWindows ((List.range 64).map (fun i => bufBit F (64 + i))) ++ [(235, 635)]

/-- Whether durations lie in windows, position by position, as many of one as of the other. -/
def within (ds : List Time) (ws : List (Nat × Nat)) : Prop :=
  List.Forall₂ (fun e w => w.1 ≤ e.toNat ∧ e.toNat ≤ w.2) ds ws

end Sys2Proof.Machine

namespace Sys2Proof

/-! ### Kinds of instructions -/

/-- Which agent's step an instruction is (R51). -/
inductive Side where
  /-- An operation on the receiver's port (R68). -/
  | receiverOp
  /-- A symbol or a frame pattern on the receiver's line (R63, R60). -/
  | symbol
  | pattern
  /-- An operation on the sender's port (R69). -/
  | senderOp
  /-- A step of the sender's line driver (R187). -/
  | segment
  /-- The Host's reading of an output (R70). -/
  | query
  deriving DecidableEq, Repr

/-- The agent of each instruction. -/
def Instr.side : Instr → Side
  | .rxNop => .receiverOp
  | .rxTick _ _ => .receiverOp
  | .rxReset => .receiverOp
  | .rxInit => .receiverOp
  | .txNop => .senderOp
  | .txSend _ => .senderOp
  | .txConstruct => .senderOp
  | .txReserved => .senderOp
  | .rxHasdata => .query
  | .rxIserror => .query
  | .rxDecode => .query
  | .longSpace _ => .symbol
  | .startMark _ => .symbol
  | .bitSpace _ => .symbol
  | .zeroMark _ => .symbol
  | .oneMark _ => .symbol
  | .timeoutMark _ => .symbol
  | .ceiling _ => .symbol
  | .invalid _ => .symbol
  | .overflowEdge _ => .symbol
  | .done _ => .symbol
  | .syncMark => .segment
  | .syncSpace => .segment
  | .bitMark => .segment
  | .zeroSpace => .segment
  | .oneSpace => .segment
  | .stopMark => .segment
  | .stopSpace => .segment
  | .halfGap => .segment
  | .cmdGap => .segment
  | .hdrHalf => .pattern
  | .cmdHalf _ => .pattern
  | .cmdOnoff => .pattern
  | .cmdFan => .pattern
  | .frame _ => .pattern

/-- The receiver's instructions: its port's operations and what arrives on its line. -/
def Instr.onReceiver (i : Instr) : Bool :=
  match i.side with
  | .receiverOp => true
  | .symbol => true
  | .pattern => true
  | .senderOp => false
  | .segment => false
  | .query => false

/-- R92, R76: the instructions that start a frame in `Idle`: a tick at the active level, and a `FRAME`,
which begins with one. -/
def Instr.startsFrame (i : Instr) : Prop :=
  (∃ now, i = .rxTick Config.params.rxActiveLevel now) ∨ ∃ body, i = .frame body

/-- The sender's instructions: its port's operations and its driver's segments. -/
def Instr.onSender (i : Instr) : Bool :=
  match i.side with
  | .receiverOp => false
  | .symbol => false
  | .pattern => false
  | .senderOp => true
  | .segment => true
  | .query => false

end Sys2Proof
end

