-- ==== Sys2Proof/Certificates/Slice0/Obligations.lean ====
section
/-!
DEFINITION. The statements for the provers. A docstring names the rules of spec/ the statement comes
from and, where a clause rests on a decision of the spec or on a choice of this model, says which.
-/
open Sys2Proof Sys2Proof.Machine

/-! ### Power-on -/

/-- The power-on column of R30 and the outputs of R230. Beyond `Stopped`, the values are the spec's
decision D16. Nothing is said of the four fields that R30 leaves unspecified. -/
def Obligations.PowerOnStateAndOutputs : Prop :=
  State.reset.rx.receiverState = .stopped ∧ State.reset.rx.readState = .none
    ∧ State.reset.rx.buf = 0#128 ∧ State.reset.rx.bitIndex = 0#8
    ∧ State.reset.rx.timeoutCount = 0#2
    ∧ State.reset.tx.out = false ∧ State.reset.tx.carrierEn = false
    ∧ State.reset.tx.busy = false ∧ State.reset.tx.phase = .rest ∧ State.reset.tx.seg = 0
    ∧ hasData State.reset.rx = false ∧ isError State.reset.rx = true
    ∧ decodeButton Config.params State.reset.rx = ⟨0#4, { len := true }⟩
    ∧ (decodeButton Config.params State.reset.rx).diag.word = 0b0000001#7
    ∧ txMark State.reset.tx = false ∧ txBusy State.reset.tx = false
    ∧ txCarrierEn State.reset.tx = false

/-- The invariants hold at power-on (R27). -/
def Obligations.PowerOnMeetsTheInvariants : Prop := State.reset.Inv

/-! ### The receiver's operations -/

/-- R90: `RX_NOP` writes nothing, and any number of them before an instruction changes nothing of it. -/
def Obligations.RxNopWritesNothing : Prop :=
  ∀ (s : State) (i : Instr),
    exec .rxNop s = .next s
    ∧ (∀ t, exec .rxNop s = .next t → exec i t = exec i s)

/-- R91: `RX_TICK` in `Stopped`, `TimedOut` and `Overflowed` writes nothing, whatever the level and the
time, and so does any sequence of ticks. -/
def Obligations.TerminalTickIsNoOp : Prop :=
  ∀ (s : State),
    (s.rx.receiverState = .stopped ∨ s.rx.receiverState = .timedOut
      ∨ s.rx.receiverState = .overflowed) →
    (∀ level now, exec (.rxTick level now) s = .next s) ∧ ∀ ts, runTicks ts s = .next s

/-- R92: `RX_TICK` in `Idle`. The level test is the spec's decision D5. -/
def Obligations.IdleTickStartsAFrame : Prop :=
  ∀ (s : State) (level : Bool) (now : Time), s.rx.receiverState = .idle →
    (level = Config.params.rxActiveLevel → exec (.rxTick level now) s =
      .next { s with rx := { s.rx with
        lastEdgeTime := now, prevLevel := level, receiverState := .running } })
    ∧ (level ≠ Config.params.rxActiveLevel → exec (.rxTick level now) s = .next s)
    ∧ ∀ t, exec (.rxTick level now) s = .next t →
        hasData t.rx = hasData s.rx ∧ isError t.rx = isError s.rx

/-- R93, R94, R95: `RX_TICK` in `Running` is the edge detector. An unchanged level changes nothing; a
changed level is recorded with its time and runs the symbol that the classifier names for the elapsed
time, taken modulo 2^32. The modulus is the spec's decision D7, the recording on every edge D26. -/
def Obligations.RunningTickRunsTheClassifiedSymbol : Prop :=
  ∀ (s : State) (level : Bool) (now : Time), s.rx.receiverState = .running →
    (level = s.rx.prevLevel → exec (.rxTick level now) s = .next s)
    ∧ (level ≠ s.rx.prevLevel → ∀ e : Time,
        e.toNat = (now.toNat + 2 ^ 32 - s.rx.lastEdgeTime.toNat) % 2 ^ 32 →
        exec (.rxTick level now) s = exec (symbolInstr e (classAt Config.params e s.rx))
          { s with rx := { s.rx with lastEdgeTime := now, prevLevel := level } })

/-- R96: `RX_RESET` in every state: the five fields it clears, nothing else, the flags and the decoded
value after it, and two of them are one. -/
def Obligations.RxResetClearsTheFrame : Prop :=
  ∀ (s : State), ∃ t,
    exec .rxReset s = .next t
    ∧ t = { s with rx := { s.rx with
        buf := 0#128, bitIndex := 0#8, timeoutCount := 0#2,
        receiverState := .idle, readState := .none } }
    ∧ (∀ i, i < 128 → bufBit t.rx.buf i = false)
    ∧ hasData t.rx = false ∧ isError t.rx = false
    ∧ decodeButton Config.params t.rx = ⟨0#4, { len := true }⟩
    ∧ exec .rxReset t = .next t

/-- R97: `RX_INIT` has exactly the effect of `RX_RESET` on the block's state (the spec's decision
D19). -/
def Obligations.RxInitIsRxReset : Prop :=
  ∀ (s : State), ∃ t,
    exec .rxInit s = .next t ∧ exec .rxReset s = .next t
    ∧ t.rx.receiverState = .idle ∧ t.rx.readState = .none ∧ t.rx.bitIndex = 0#8
    ∧ t.rx.timeoutCount = 0#2 ∧ t.rx.buf = 0#128
    ∧ t.rx.prevLevel = s.rx.prevLevel ∧ t.rx.lastEdgeTime = s.rx.lastEdgeTime
    ∧ t.tx = s.tx ∧ t.wave = s.wave ∧ t.pending = s.pending ∧ t.host = s.host

/-! ### Edges -/

/-- R112: step 1 of `onEdge`. With 128 bits any edge at all, whatever its duration, gives `Overflowed`
and writes nothing else. That a symbol instruction named as any class runs as this edge is this
model's choice (notes/assumptions/6.md). -/
def Obligations.EdgeAfterBit128Overflows : Prop :=
  ∀ (s : State) (e : Time), s.rx.receiverState = .running → s.rx.bitIndex = 128#8 →
    classAt Config.params e s.rx = .overflowEdge
    ∧ ∃ t, t = { s with rx := { s.rx with receiverState := .overflowed } }
      ∧ exec (.overflowEdge e) s = .next t
      ∧ (∀ c, exec (symbolInstr e c) s = .next t)
      ∧ hasData t.rx = true
      ∧ (s.rx.readState ≠ .error → isError t.rx = false)

/-- R113: step 2 of `onEdge`. With fewer than 128 bits an edge above the ceiling gives `TimedOut` in
every position and writes nothing else; 31000 itself is not above the ceiling. That a symbol
instruction named as any class runs as this edge is this model's choice (notes/assumptions/6.md). -/
def Obligations.EdgeAboveTheCeilingTimesOut : Prop :=
  (∀ (s : State) (e : Time), s.rx.receiverState = .running → s.rx.bitIndex.toNat < 128 →
    31000 < e.toNat →
    classAt Config.params e s.rx = .ceiling
    ∧ ∃ t, t = { s with rx := { s.rx with receiverState := .timedOut } }
      ∧ exec (.ceiling e) s = .next t
      ∧ (∀ c, exec (symbolInstr e c) s = .next t)
      ∧ hasData t.rx = false
      ∧ (s.rx.readState ≠ .error → isError t.rx = false))
  ∧ ∀ (r : Receiver) (e : Time), e.toNat ≤ 31000 → classAt Config.params e r ≠ .ceiling

/-- R130, R131, R132: the three positions that expect one symbol. The expected symbol writes
`readState` only and leaves the two flags; every other duration not above the ceiling is `INVALID`. -/
def Obligations.SingleSymbolPositions : Prop :=
  ∀ (s : State) (e : Time), s.rx.receiverState = .running → s.rx.bitIndex.toNat < 128 →
    e.toNat ≤ 31000 →
    (s.rx.readState = .none →
      (classAt Config.params e s.rx = .longSpace → ∃ t, exec (.longSpace e) s = .next t
        ∧ t = { s with rx := { s.rx with readState := .readStart } }
        ∧ hasData t.rx = hasData s.rx ∧ isError t.rx = isError s.rx)
      ∧ (classAt Config.params e s.rx ≠ .longSpace → exec (.invalid e) s =
          .next { s with rx := { s.rx with readState := .error, receiverState := .stopped } }))
    ∧ (s.rx.readState = .readStart →
      (classAt Config.params e s.rx = .startMark → ∃ t, exec (.startMark e) s = .next t
        ∧ t = { s with rx := { s.rx with readState := .readSpace } }
        ∧ hasData t.rx = hasData s.rx ∧ isError t.rx = isError s.rx)
      ∧ (classAt Config.params e s.rx ≠ .startMark → exec (.invalid e) s =
          .next { s with rx := { s.rx with readState := .error, receiverState := .stopped } }))
    ∧ (s.rx.readState = .readSpace →
      (classAt Config.params e s.rx = .bitSpace → ∃ t, exec (.bitSpace e) s = .next t
        ∧ t = { s with rx := { s.rx with readState := .readMark } }
        ∧ hasData t.rx = hasData s.rx ∧ isError t.rx = isError s.rx)
      ∧ (classAt Config.params e s.rx ≠ .bitSpace → exec (.invalid e) s =
          .next { s with rx := { s.rx with readState := .error, receiverState := .stopped } }))

/-- R133, R134, with the place of the bit as R45 says: a zero-mark or a one-mark in `ReadMark` appends
its bit at index `bitIndex`, which is bit `7 - (i mod 8)` of byte `i div 8`, counts it, and goes back
to `ReadSpace`. Every other bit, field and flag stays. -/
def Obligations.BitMarksAppendOneBit : Prop :=
  ∀ (s : State) (e : Time) (b : Bool), s.rx.receiverState = .running → s.rx.readState = .readMark →
    s.rx.bitIndex.toNat < 128 →
    classAt Config.params e s.rx = (if b then .oneMark else .zeroMark) →
    ∃ t, exec (if b then .oneMark e else .zeroMark e) s = .next t
      ∧ bufBit t.rx.buf s.rx.bitIndex.toNat = b
      ∧ (byteAt t.rx.buf (s.rx.bitIndex.toNat / 8)).getLsbD (7 - s.rx.bitIndex.toNat % 8) = b
      ∧ (∀ j, j < 128 → j ≠ s.rx.bitIndex.toNat → bufBit t.rx.buf j = bufBit s.rx.buf j)
      ∧ t.rx.bitIndex.toNat = s.rx.bitIndex.toNat + 1
      ∧ t.rx.readState = .readSpace ∧ t.rx.receiverState = .running
      ∧ t.rx.timeoutCount = s.rx.timeoutCount ∧ t.rx.prevLevel = s.rx.prevLevel
      ∧ t.rx.lastEdgeTime = s.rx.lastEdgeTime
      ∧ hasData t.rx = hasData s.rx ∧ isError t.rx = isError s.rx
      ∧ t.tx = s.tx ∧ t.wave = s.wave ∧ t.pending = s.pending ∧ t.host = s.host

/-- R135: a timeout-mark in `ReadMark` counts one up and goes to `ReadTimeout` after any number of bits
below 128; it appends no bit and writes nothing else. -/
def Obligations.TimeoutMarkEndsAHalf : Prop :=
  ∀ (s : State) (e : Time), s.rx.receiverState = .running → s.rx.readState = .readMark →
    s.rx.bitIndex.toNat < 128 → s.rx.timeoutCount ≠ 3#2 →
    classAt Config.params e s.rx = .timeoutMark →
    ∃ t, exec (.timeoutMark e) s = .next t
      ∧ t = { s with rx := { s.rx with
          timeoutCount := s.rx.timeoutCount + 1#2, readState := .readTimeout } }
      ∧ t.rx.timeoutCount.toNat = s.rx.timeoutCount.toNat + 1
      ∧ hasData t.rx = hasData s.rx ∧ isError t.rx = isError s.rx

/-- R136: `ReadTimeout` after the first timeout-mark expects a long space (window 3300 to 3700, closed
by the spec's decision D9) and stops on anything else not above the ceiling; after the second one an
edge changes nothing under `SECOND_TIMEOUT_POLICY = hold`, the spec's decision D10, and raises `Error`
under `error`. -/
def Obligations.ReadTimeoutPosition : Prop :=
  (∀ (s : State) (e : Time), s.rx.receiverState = .running → s.rx.readState = .readTimeout →
    s.rx.bitIndex.toNat < 128 → e.toNat ≤ 31000 →
    (s.rx.timeoutCount = 1#2 →
      (3300 ≤ e.toNat ∧ e.toNat ≤ 3700 →
        exec (.longSpace e) s = .next { s with rx := { s.rx with readState := .readStart } })
      ∧ (¬(3300 ≤ e.toNat ∧ e.toNat ≤ 3700) → exec (.invalid e) s =
          .next { s with rx := { s.rx with readState := .error, receiverState := .stopped } }))
    ∧ (s.rx.timeoutCount = 2#2 → exec (.done e) s = .next s))
  ∧ ∀ (r : Receiver) (e : Time), r.readState = .readTimeout → r.bitIndex.toNat < 128 →
      e.toNat ≤ 31000 → r.timeoutCount = 2#2 →
      onEdge { Config.params with secondTimeout := .error } e r
        = .ok { r with readState := .error, receiverState := .stopped }

/-- R141 (and R137 for the edge itself): an edge that matches no expected symbol sets `is_error`, keeps
the bits and the counts, and no further ticks change anything. -/
def Obligations.NoMutationAfterAnError : Prop :=
  ∀ (s : State) (e : Time), s.rx.receiverState = .running →
    classAt Config.params e s.rx = .invalid →
    ∃ t, exec (.invalid e) s = .next t
      ∧ t = { s with rx := { s.rx with readState := .error, receiverState := .stopped } }
      ∧ isError t.rx = true ∧ hasData t.rx = false
      ∧ ∀ ts, runTicks ts t = .next t

/-- R91, R92: outside `Running` no edge is classified, so a symbol on the line changes nothing. That a
symbol may be presented there is this model's choice (notes/assumptions/6.md). -/
def Obligations.SymbolOutsideRunningIsIgnored : Prop :=
  ∀ (s : State) (e : Time) (c : EdgeClass), s.rx.receiverState ≠ .running →
    exec (symbolInstr e c) s = .next s

/-- R206: which condition an edge raises. `Overflowed` comes before `TimedOut` and `TimedOut` before
`Error`; an edge raises at most one. That a symbol instruction named as any class runs as this edge is this model's
choice (notes/assumptions/6.md). -/
def Obligations.ConditionPriority : Prop :=
  ∀ (s t : State) (e : Time) (c : EdgeClass), s.rx.receiverState = .running →
    exec (symbolInstr e c) s = .next t →
    (t.rx.receiverState = .overflowed ↔ s.rx.bitIndex = 128#8)
    ∧ (t.rx.receiverState = .timedOut ↔ s.rx.bitIndex ≠ 128#8 ∧ 31000 < e.toNat)
    ∧ (t.rx.receiverState = .stopped ↔ classAt Config.params e s.rx = .invalid)
    ∧ t.rx.receiverState ≠ .idle

/-- R207: raising a condition writes `receiverState`, and `readState` for E1, and leaves every other
field as it was; from then on every tick is a no-op. That a symbol instruction named as any class
runs as this edge is this model's choice (notes/assumptions/6.md). -/
def Obligations.RaisingWritesNothingElse : Prop :=
  ∀ (s t : State) (e : Time) (c : EdgeClass), s.rx.receiverState = .running →
    exec (symbolInstr e c) s = .next t → t.rx.terminal = true →
    t = { s with rx := { s.rx with
        receiverState := t.rx.receiverState, readState := t.rx.readState } }
    ∧ (t.rx.receiverState = .stopped → t.rx.readState = .error)
    ∧ (t.rx.receiverState ≠ .stopped → t.rx.readState = s.rx.readState)
    ∧ ∀ ts, runTicks ts t = .next t

/-- R208: the only way out of `Stopped`, `TimedOut` and `Overflowed` is `RX_RESET` or `RX_INIT`: every
other instruction leaves the whole receiver as it is, and those two clear the frame and go to `Idle`. -/
def Obligations.OnlyResetLeavesATerminalState : Prop :=
  ∀ (s t : State) (i : Instr), s.rx.terminal = true → exec i s = .next t →
    (i ≠ .rxReset → i ≠ .rxInit → t.rx = s.rx)
    ∧ (i = .rxReset ∨ i = .rxInit →
        t.rx.receiverState = .idle ∧ t.rx.readState = .none ∧ t.rx.buf = 0#128
        ∧ t.rx.bitIndex = 0#8 ∧ t.rx.timeoutCount = 0#2)

/-- R10: the transitions of `receiverState`, one edge or operation at a time. A frame pattern is a
sequence of edges and is left out here: `FRAME` goes from `Idle` to `Overflowed` in one
instruction. -/
def Obligations.LifecycleTransitions : Prop :=
  ∀ (s t : State) (i : Instr), i.side ≠ .pattern → exec i s = .next t →
    t.rx.receiverState ≠ s.rx.receiverState →
    ((i = .rxReset ∨ i = .rxInit) ∧ t.rx.receiverState = .idle)
    ∨ (s.rx.receiverState = .idle ∧ t.rx.receiverState = .running
        ∧ ∃ now, i = .rxTick Config.params.rxActiveLevel now)
    ∨ (s.rx.receiverState = .running
        ∧ (t.rx.receiverState = .overflowed ∨ t.rx.receiverState = .timedOut
          ∨ t.rx.receiverState = .stopped)
        ∧ (i.side = .symbol ∨ ∃ level now, i = .rxTick level now))

/-! ### Frames on the receiver's line -/

/-- R61, R65, R76: a half on the line, from the start of a half, appends its 64 bits in wire order and
ends in `ReadSpace`. Taking a `HALF64` row for what arrives on the line is this model's choice
(notes/assumptions/7.md). -/
def Obligations.HalfPatternsAppendTheirBits : Prop :=
  ∀ (s : State) (i : Instr) (m : Half),
    ((i = .hdrHalf ∧ m = 0x885BE90F0000004E#64)
      ∨ (∃ body : Body, i = .cmdHalf body ∧ m = 0x885BE900F1#40 ++ body)
      ∨ (i = .cmdOnoff ∧ m = 0x885BE900F1800048#64)
      ∨ (i = .cmdFan ∧ m = 0x885BE900F1081084#64)) →
    s.rx.receiverState = .running →
    (s.rx.readState = .none ∨ (s.rx.readState = .readTimeout ∧ s.rx.timeoutCount = 1#2)) →
    s.rx.bitIndex.toNat + 64 ≤ 128 →
    ∃ t, exec i s = .next t
      ∧ t.rx.receiverState = .running ∧ t.rx.readState = .readSpace
      ∧ t.rx.bitIndex.toNat = s.rx.bitIndex.toNat + 64
      ∧ (∀ j, j < 64 → bufBit t.rx.buf (s.rx.bitIndex.toNat + j) = m.getMsbD j)
      ∧ (∀ j, j < 128 → j < s.rx.bitIndex.toNat ∨ s.rx.bitIndex.toNat + 64 ≤ j →
          bufBit t.rx.buf j = bufBit s.rx.buf j)
      ∧ t.rx.timeoutCount = s.rx.timeoutCount ∧ t.rx.prevLevel = s.rx.prevLevel
      ∧ t.tx = s.tx ∧ t.wave = s.wave ∧ t.pending = s.pending ∧ t.host = s.host

/-- R140: the path of a well-formed frame. From the state `RX_RESET` leaves, a start tick and 263
edges, each within its window (closed by D9, the gap's window by D8), end in `Overflowed` with the
128 bits of the frame. -/
def Obligations.WellFormedFrameIsCollected : Prop :=
  ∀ (s : State) (F : Frame) (start : Time) (ds : List Time),
    s.rx.receiverState = .idle → s.rx.readState = .none → s.rx.buf = 0#128 →
    s.rx.bitIndex = 0#8 → s.rx.timeoutCount = 0#2 →
    within ds (frameWindows F) →
    ∃ t, runTicks ((Config.params.rxActiveLevel, start)
        :: edgeTicks (!Config.params.rxActiveLevel) start ds) s = .next t
      ∧ t = { s with rx :=
          { receiverState := .overflowed
            readState := .readSpace
            buf := F
            bitIndex := 128#8
            timeoutCount := 1#2
            prevLevel := !Config.params.rxActiveLevel
            lastEdgeTime := ds.foldl (· + ·) start } }
      ∧ hasData t.rx = true ∧ isError t.rx = false

/-- R60, R76, R156 and the source's scenarios S6 to S8: the frame with command body `body`, received
in the state a reset leaves, is held whole, and reading `button` then gives the table row with that
body and no diagnostic, or `Unknown` with `NO_MATCH` alone. The last edge stands 169950 microseconds
after the start, and 860 more for each one bit of the command half. Taking the `FRAME128` row for
what arrives on the line is this model's choice (notes/assumptions/7.md). -/
def Obligations.ReceivedFrameDecodesToItsButton : Prop :=
  ∀ (s : State) (body : Body),
    s.rx.receiverState = .idle → s.rx.readState = .none → s.rx.buf = 0#128 →
    s.rx.bitIndex = 0#8 → s.rx.timeoutCount = 0#2 →
    ∃ t u button diag, exec (.frame body) s = .next t
      ∧ t = { s with rx :=
          { receiverState := .overflowed
            readState := .readSpace
            buf := 0x885BE90F0000004E885BE900F1#104 ++ body
            bitIndex := 128#8
            timeoutCount := 1#2
            prevLevel := !Config.params.rxActiveLevel
            lastEdgeTime := BitVec.ofNat 32
              (169950 + 860 * (msgBits (cmdMessage Config.params body)).count true) } }
      ∧ hasData t.rx = true ∧ isError t.rx = false
      ∧ exec .rxDecode t = .next u ∧ u.host.lastRead = some (.decoded button diag)
      ∧ (∀ k x, Config.buttons[k]? = some x → x.body = body →
          button = BitVec.ofNat 4 (1 + k) ∧ diag = 0b0000000#7)
      ∧ ((∀ x, x ∈ Config.buttons → x.body ≠ body) → button = 0#4 ∧ diag = 0b1000000#7)

/-! ### The result surface -/

/-- R150: `has_data`. Reading it changes neither component. -/
def Obligations.HasDataReading : Prop :=
  ∀ (s : State), ∃ t b, exec .rxHasdata s = .next t
    ∧ t.host.lastRead = some (.hasData b)
    ∧ (b = true ↔ (s.rx.receiverState = .timedOut ∨ s.rx.receiverState = .overflowed)
        ∧ s.rx.bitIndex = 128#8)
    ∧ t.rx = s.rx ∧ t.tx = s.tx ∧ t.wave = s.wave ∧ t.pending = s.pending
    ∧ t.host.turnedAway = s.host.turnedAway

/-- R151: `is_error`. Reading it changes neither component. -/
def Obligations.IsErrorReading : Prop :=
  ∀ (s : State), ∃ t b, exec .rxIserror s = .next t
    ∧ t.host.lastRead = some (.isError b)
    ∧ (b = true ↔ s.rx.readState = .error ∨ s.rx.receiverState = .stopped)
    ∧ t.rx = s.rx ∧ t.tx = s.tx ∧ t.wave = s.wave ∧ t.pending = s.pending
    ∧ t.host.turnedAway = s.host.turnedAway

/-- R27 items 3, 5 and 6 with R150 and R151: in every state that meets the invariants, `has_data` is
`Overflowed`, `is_error` is `Stopped`, and the two are never both 1. -/
def Obligations.FlagsUnderTheInvariants : Prop :=
  ∀ (r : Receiver), r.Inv →
    (hasData r = true ↔ r.receiverState = .overflowed)
    ∧ (isError r = true ↔ r.receiverState = .stopped)
    ∧ ¬(hasData r = true ∧ isError r = true)
    ∧ (r.bitIndex = 128#8 → r.receiverState = .running ∨ r.receiverState = .overflowed)

/-- R153: with a bit count other than 128 the result is `Unknown` with `LEN` alone, whatever the
buffer holds. -/
def Obligations.DecodeLengthMismatch : Prop :=
  ∀ (s : State), s.rx.bitIndex ≠ 128#8 →
    ∃ t, exec .rxDecode s = .next t
      ∧ t.host.lastRead = some (.decoded 0#4 0b0000001#7)
      ∧ t.rx = s.rx ∧ t.tx = s.tx ∧ t.wave = s.wave ∧ t.pending = s.pending

/-- R154 to R157, R159: with 128 bits, in any `receiverState`, the five comparisons each set their own
flag and the body alone decides `button`. Leniency and full evaluation are the spec's decision D11,
the codes D3 and D17; the table is any that meets R6. -/
def Obligations.DecodeResult : Prop :=
  ∀ (s : State), s.rx.bitIndex = 128#8 →
    ∃ t button diag, exec .rxDecode s = .next t
      ∧ t.host.lastRead = some (.decoded button diag)
      ∧ diag.getLsbD 0 = false
      ∧ (diag.getLsbD 1 = false ↔ byteAt s.rx.buf 0 = 0x88#8 ∧ byteAt s.rx.buf 1 = 0x5B#8
          ∧ byteAt s.rx.buf 2 = 0xE9#8)
      ∧ (diag.getLsbD 2 = false ↔ byteAt s.rx.buf 3 = 0x0F#8 ∧ byteAt s.rx.buf 4 = 0x00#8)
      ∧ (diag.getLsbD 3 = false ↔ byteAt s.rx.buf 5 = 0x00#8 ∧ byteAt s.rx.buf 6 = 0x00#8
          ∧ byteAt s.rx.buf 7 = 0x4E#8)
      ∧ (diag.getLsbD 4 = false ↔ byteAt s.rx.buf 8 = 0x88#8 ∧ byteAt s.rx.buf 9 = 0x5B#8
          ∧ byteAt s.rx.buf 10 = 0xE9#8)
      ∧ (diag.getLsbD 5 = false ↔ byteAt s.rx.buf 11 = 0x00#8 ∧ byteAt s.rx.buf 12 = 0xF1#8)
      ∧ (diag.getLsbD 6 = false ↔ ∃ x ∈ Config.buttons, x.body = bytes3 s.rx.buf 13)
      ∧ (∀ k x, Config.buttons[k]? = some x → x.body = bytes3 s.rx.buf 13 →
          button = BitVec.ofNat 4 (1 + k))
      ∧ ((∀ x ∈ Config.buttons, x.body ≠ bytes3 s.rx.buf 13) → button = 0#4)
      ∧ t.rx = s.rx ∧ t.tx = s.tx ∧ t.wave = s.wave ∧ t.pending = s.pending
      ∧ t.host.turnedAway = s.host.turnedAway

/-- R155, R157: the strict reading. Any failed comparison forces `Unknown` without `NO_MATCH` and leaves
the five flags as in the lenient reading; with none failed the two readings agree. -/
def Obligations.StrictDecode : Prop :=
  ∀ (r : Receiver),
    let lenient := decodeButton Config.params r
    let strict := decodeButton { Config.params with strictDecode := true } r
    (lenient.diag.structural = true →
      strict.button = 0#4 ∧ strict.diag = { lenient.diag with noMatch := false })
    ∧ (lenient.diag.structural = false → strict = lenient)

/-- R156: the two bodies the source prints decode to their own rows, whatever the rest of the table and
whatever the other thirteen bytes (lenient). -/
def Obligations.OnoffAndFanDecode : Prop :=
  ∀ (r : Receiver), r.bitIndex = 128#8 →
    (bytes3 r.buf 13 = 0x800048#24 → ∃ k, Config.buttons[k]? = some ⟨.onoff, 0x800048#24⟩
      ∧ (decodeButton Config.params r).button = BitVec.ofNat 4 (1 + k)
      ∧ (decodeButton Config.params r).diag.noMatch = false)
    ∧ (bytes3 r.buf 13 = 0x081084#24 → ∃ k, Config.buttons[k]? = some ⟨.fan, 0x081084#24⟩
      ∧ (decodeButton Config.params r).button = BitVec.ofNat 4 (1 + k)
      ∧ (decodeButton Config.params r).diag.noMatch = false)

/-! ### The sender -/

/-- R180, R75: `TX_NOP` writes nothing. `tx_op = 11` is treated as `TX_NOP` on both components; that it
runs instead of being refused, with its name in the Host's note, is this model's choice
(notes/assumptions/5.md). -/
def Obligations.TxNopAndReservedOperation : Prop :=
  ∀ (s : State), exec .txNop s = .next s
    ∧ ∃ t, exec .txReserved s = .next t ∧ t.rx = s.rx ∧ t.tx = s.tx ∧ t.wave = s.wave
      ∧ t.pending = s.pending ∧ t.host.lastRead = s.host.lastRead
      ∧ t.host.turnedAway = some .reservedOp

/-- R171, R172, R173: an accepted `TX_SEND` writes the two messages, for any 24-bit body. What else it
writes is R186's acceptance and steps 1 to 3. That the line driver's segments are steps of their own
after it, so that `out` and the waveform stay, is this model's choice between the two forms of the
spec's decision D23 (notes/assumptions/13.md). -/
def Obligations.AcceptedSendBuildsTheMessages : Prop :=
  ∀ (s : State) (body : Body), s.tx.busy = false →
    ∃ t, exec (.txSend body) s = .next t
      ∧ t.tx.hdrMsg = 0x885BE90F0000004E#64
      ∧ (msgBits t.tx.hdrMsg).count true = 20 ∧ (msgBits t.tx.hdrMsg).count false = 44
      ∧ t.tx.cmdMsg = 0x885BE900F1#40 ++ body
      ∧ t.tx.busy = true ∧ t.tx.carrierEn = true ∧ t.tx.phase = .hdrHalf ∧ t.tx.seg = 0
      ∧ t.tx.out = s.tx.out
      ∧ t.rx = s.rx ∧ t.wave = s.wave ∧ t.pending = s.pending ∧ t.host = s.host

/-- R174: message bit `i` is bit `7 - (i mod 8)` of message byte `i div 8`, with the prefix in bytes 0 to
2, the begin marker in bytes 3 and 4, the body in bytes 5 to 7; the frame the two messages make on the
wire is header message then command message. -/
def Obligations.MessageBitOrder : Prop :=
  ∀ (body : Body),
    let hdr := hdrMessage Config.params
    let cmd := cmdMessage Config.params body
    bytes3 (hdr ++ cmd) 0 = 0x885BE9#24 ∧ bytes2 (hdr ++ cmd) 3 = 0x0F00#16
    ∧ bytes3 (hdr ++ cmd) 5 = 0x00004E#24
    ∧ bytes3 (hdr ++ cmd) 8 = 0x885BE9#24 ∧ bytes2 (hdr ++ cmd) 11 = 0x00F1#16
    ∧ bytes3 (hdr ++ cmd) 13 = body
    ∧ ∀ i, i < 64 →
      bufBit (hdr ++ cmd) i = msgBit hdr i ∧ bufBit (hdr ++ cmd) (64 + i) = msgBit cmd i
      ∧ (byteAt (hdr ++ cmd) (i / 8)).getLsbD (7 - i % 8) = msgBit hdr i
      ∧ (byteAt (hdr ++ cmd) (8 + i / 8)).getLsbD (7 - i % 8) = msgBit cmd i

/-- R185: `TX_CONSTRUCT` rests the line of a sender that is not busy, and is ignored by a busy one (R188,
the spec's decision D20). After power-on it changes nothing. That a busy sender's `TX_CONSTRUCT` runs
instead of being refused by name is this model's choice (notes/assumptions/5.md). -/
def Obligations.ConstructRestsTheLine : Prop :=
  exec .txConstruct State.reset = .next State.reset
  ∧ ∀ (s : State),
    (s.tx.busy = false → exec .txConstruct s = .next { s with tx := { s.tx with
      out := false, carrierEn := false, phase := .rest, seg := 0 } })
    ∧ (s.tx.busy = true → ∃ t, exec .txConstruct s = .next t ∧ t.tx = s.tx ∧ t.rx = s.rx)

/-- R188, R75: a `TX_SEND` or `TX_CONSTRUCT` presented to a busy sender changes neither component and
nothing on the line (the spec's decision D20). That the model runs it as the hardware does instead of
refusing it, with its name in the Host's note, is this model's choice (notes/assumptions/5.md). -/
def Obligations.BusySenderIgnoresOperations : Prop :=
  ∀ (s : State) (i : Instr), s.tx.busy = true → (i = .txConstruct ∨ ∃ body, i = .txSend body) →
    ∃ t, exec i s = .next t ∧ t.rx = s.rx ∧ t.tx = s.tx ∧ t.wave = s.wave
      ∧ t.pending = s.pending ∧ t.host.lastRead = s.host.lastRead
      ∧ t.host.turnedAway = some .senderBusy

/-- R182, R183, R184, R187: every driver step, by position: the level and duration it emits, the line,
and the next position. The durations are the spec's decisions D12 and D13, the line under a segment of
length 0 is D28. -/
def Obligations.DriverSteps : Prop :=
  ∀ (s : State),
    (∀ m : Half, (s.tx.phase = .hdrHalf ∧ m = s.tx.hdrMsg) ∨ (s.tx.phase = .cmdHalf ∧ m = s.tx.cmdMsg) →
      (s.tx.seg.val = 0 → exec .syncMark s = .next { s with
        tx := { s.tx with out := true, seg := 1 }, wave := s.wave ++ [⟨.mark, 3500⟩] })
      ∧ (s.tx.seg.val = 1 → exec .syncSpace s = .next { s with
        tx := { s.tx with out := false, seg := 2 }, wave := s.wave ++ [⟨.space, 1760⟩] })
      ∧ (∀ i, i < 64 → s.tx.seg.val = 2 + 2 * i → ∃ t, exec .bitMark s = .next t
        ∧ t = { s with tx := { s.tx with out := true, seg := t.tx.seg }
                       wave := s.wave ++ [⟨.mark, 435⟩] }
        ∧ t.tx.seg.val = 3 + 2 * i)
      ∧ (∀ i, i < 64 → s.tx.seg.val = 3 + 2 * i → m.getMsbD i = true → ∃ t,
        exec .oneSpace s = .next t
        ∧ t = { s with tx := { s.tx with out := false, seg := t.tx.seg }
                       wave := s.wave ++ [⟨.space, 1295⟩] }
        ∧ t.tx.seg.val = 4 + 2 * i)
      ∧ (∀ i, i < 64 → s.tx.seg.val = 3 + 2 * i → m.getMsbD i = false → ∃ t,
        exec .zeroSpace s = .next t
        ∧ t = { s with tx := { s.tx with out := false, seg := t.tx.seg }
                       wave := s.wave ++ [⟨.space, 435⟩] }
        ∧ t.tx.seg.val = 4 + 2 * i)
      ∧ (s.tx.seg.val = 130 → exec .stopMark s = .next { s with
        tx := { s.tx with out := true, seg := 131 }, wave := s.wave ++ [⟨.mark, 435⟩] })
      ∧ (s.tx.seg.val = 131 → exec .stopSpace s = .next { s with
        tx := { s.tx with
          phase := if s.tx.phase = .hdrHalf then .halfGap else .cmdGap, seg := 0 }
        wave := s.wave ++ [⟨.space, 0⟩] }))
    ∧ (s.tx.phase = .halfGap → s.tx.seg = 0 → exec .halfGap s = .next { s with
        tx := { s.tx with out := false, phase := .cmdHalf, seg := 0 }
        wave := s.wave ++ [⟨.space, 30000⟩] })
    ∧ (s.tx.phase = .cmdGap → s.tx.seg = 0 → ∃ gap, 30000 < gap
        ∧ exec .cmdGap s = .next { s with
          tx := { s.tx with out := false, phase := .rest, seg := 0, busy := false }
          wave := s.wave ++ [⟨.space, gap⟩] })

/-- R187: the driver has no other step. A segment that the position does not call for is refused by
name, and at rest every segment is. -/
def Obligations.NoOtherDriverStep : Prop :=
  ∀ (s : State) (k : SegKind),
    ((∃ t, exec (segInstr k) s = .next t) ↔ dueSegment s.tx = some k)
    ∧ (dueSegment s.tx ≠ some k → exec (segInstr k) s = .refused .segmentNotDue)
    ∧ (s.tx.phase = .rest → exec (segInstr k) s = .refused .segmentNotDue)

/-- R186 and R187 agree on the line: an accepted `TX_SEND` followed by 266 steps with nothing presented
emits exactly the list of R186, and ends at rest, not busy, the line at space, the carrier still
enabled (R20, the spec's decision D21). The receiver is untouched. -/
def Obligations.SendEmitsItsWaveform : Prop :=
  ∀ (s : State) (body : Body), s.tx.busy = false → s.pending = [] →
    ∃ s1 t, exec (.txSend body) s = .next s1
      ∧ Host.Core.run Sys2Proof.core 266 s1 = .next t
      ∧ t.wave = s.wave ++ sendWave Config.params body
      ∧ (∀ n, n < 266 → ∃ u, Host.Core.run Sys2Proof.core n s1 = .next u ∧ u.tx.busy = true)
      ∧ t.tx.busy = false ∧ t.tx.phase = .rest ∧ t.tx.out = false ∧ t.tx.carrierEn = true
      ∧ t.rx = s.rx ∧ t.pending = [] ∧ t.host = s.host

/-- R182, R186, R250: how many segments and how long, for a half with `w` one bits and for a whole
send. -/
def Obligations.SendTakesItsTime : Prop :=
  (∀ m : Half, (halfWave Config.params m).length = 132
    ∧ waveTime (halfWave Config.params m) = 61375 + 860 * (msgBits m).count true)
  ∧ ∀ body : Body, (sendWave Config.params body).length = 266
    ∧ waveTime (sendWave Config.params body)
      = 2 * 61375 + 860 * (20 + (msgBits (cmdMessage Config.params body)).count true) + 30000
        + Config.params.tCmdGap
    ∧ 30000 < Config.params.tCmdGap

/-- R190: the round-trip law. A receiver fresh from a reset, ticked at `0, T, 2T, ...` with `T` not above
the tolerance of 200, its input at the active level exactly while the sender's waveform is at mark,
holds the sent frame at the first tick at or after the end of the last mark and at every later one,
and decodes it to the table's row for the body sent. -/
def Obligations.LoopbackRoundTrip : Prop :=
  ∀ (s : State) (body : Body) (t0 T n : Nat),
    s.rx.receiverState = .idle → s.rx.readState = .none → s.rx.buf = 0#128 →
    s.rx.bitIndex = 0#8 → s.rx.timeoutCount = 0#2 →
    0 < T → T ≤ 200 →
    t0 + (waveTime (sendWave Config.params body) - Config.params.tCmdGap) ≤ n * T →
    ∃ t, runTicks (sampleTicks Config.params (sendWave Config.params body) t0 T n) s = .next t
      ∧ t.rx.receiverState = .overflowed ∧ t.rx.bitIndex = 128#8
      ∧ t.rx.buf = hdrMessage Config.params ++ cmdMessage Config.params body
      ∧ hasData t.rx = true ∧ isError t.rx = false
      ∧ (∀ k x, Config.buttons[k]? = some x → x.body = body →
          decodeButton Config.params t.rx = ⟨BitVec.ofNat 4 (1 + k), {}⟩)
      ∧ ((∀ x ∈ Config.buttons, x.body ≠ body) →
          decodeButton Config.params t.rx = ⟨0#4, { noMatch := true }⟩)

/-! ### The whole machine -/

/-- R27 for the receiver, R22, R23 and R187 for the sender: every step keeps the invariants. Item 10 of
the receiver's and the sender's part are this model's own and only make the rest inductive. -/
def Obligations.EveryStepKeepsTheInvariants : Prop :=
  ∀ (s t : State), s.Inv → step s = .next t → t.Inv

/-- Under R27's invariants nothing faults, and every instruction but a segment out of its place
completes: the receiver's and the sender's operations, the symbols, the frame patterns and the
queries. Three of these completions are this model's choice: `TX_RESERVED`, and `TX_SEND` and
`TX_CONSTRUCT` on a busy sender, where the spec lets a model refuse (notes/assumptions/5.md); a symbol
where no decoding gives it (notes/assumptions/6.md); a frame pattern (notes/assumptions/7.md). -/
def Obligations.InstructionsCompleteUnderTheInvariants : Prop :=
  ∀ (s : State) (i : Instr), s.rx.Inv →
    (∀ f, exec i s ≠ .fault f) ∧ (i.side ≠ .segment → ∃ t, exec i s = .next t)

/-- R213 and the frame of every instruction: the receiver's instructions write only `s`, the sender's
only `t` and the line, a query neither; none touches what is still presented. -/
def Obligations.ComponentsAreSeparate : Prop :=
  ∀ (s t : State) (i : Instr), exec i s = .next t →
    t.pending = s.pending
    ∧ (i.onReceiver = true → t.tx = s.tx ∧ t.wave = s.wave ∧ t.host = s.host)
    ∧ (i.onSender = true → t.rx = s.rx ∧ t.host.lastRead = s.host.lastRead)
    ∧ (i.side = .senderOp → t.wave = s.wave)
    ∧ (i.side = .query → t.rx = s.rx ∧ t.tx = s.tx ∧ t.wave = s.wave
        ∧ t.host.turnedAway = s.host.turnedAway)

/-- R51: the steps of the Receiver and the Sender commute, whichever comes first. -/
def Obligations.ComponentStepsCommute : Prop :=
  ∀ (s s1 s2 : State) (i j : Instr),
    (i.onReceiver = true ∧ j.onSender = true) ∨ (i.onSender = true ∧ j.onReceiver = true) →
    exec i s = .next s1 → exec j s1 = .next s2 →
    ∃ s1', exec j s = .next s1' ∧ exec i s1' = .next s2

/-- R10 to R16, R19 to R23, R42: who writes what. A field that changed was written by one of the
instructions the spec names as its writers; `phase` and `seg` by the sender's operations and the line
driver (R185 to R187). -/
def Obligations.WritersOfEachField : Prop :=
  ∀ (s t : State) (i : Instr), exec i s = .next t →
    (t.rx.receiverState ≠ s.rx.receiverState ∨ t.rx.readState ≠ s.rx.readState →
      i.side = .pattern ∨ i.side = .symbol ∨ i = .rxReset ∨ i = .rxInit
        ∨ ∃ level now, i = .rxTick level now)
    ∧ (t.rx.prevLevel ≠ s.rx.prevLevel ∨ t.rx.lastEdgeTime ≠ s.rx.lastEdgeTime →
      i.side = .pattern ∨ ∃ level now, i = .rxTick level now)
    ∧ (t.rx.timeoutCount ≠ s.rx.timeoutCount ∨ t.rx.bitIndex ≠ s.rx.bitIndex
        ∨ t.rx.buf ≠ s.rx.buf →
      i.side = .pattern ∨ i.side = .symbol ∨ i = .rxReset ∨ i = .rxInit
        ∨ ∃ level now, i = .rxTick level now)
    ∧ (t.tx.hdrMsg ≠ s.tx.hdrMsg ∨ t.tx.cmdMsg ≠ s.tx.cmdMsg → ∃ body, i = .txSend body)
    ∧ (t.tx.carrierEn ≠ s.tx.carrierEn →
      (t.tx.carrierEn = true ∧ ∃ body, i = .txSend body) ∨ (t.tx.carrierEn = false ∧ i = .txConstruct))
    ∧ (t.tx.busy ≠ s.tx.busy →
      (t.tx.busy = true ∧ ∃ body, i = .txSend body) ∨ (t.tx.busy = false ∧ i = .cmdGap))
    ∧ (t.tx.phase ≠ s.tx.phase ∨ t.tx.seg ≠ s.tx.seg →
      i = .txConstruct ∨ i.side = .segment ∨ ∃ body, i = .txSend body)
    ∧ (t.tx.out ≠ s.tx.out → i = .txConstruct ∨ i.side = .segment)

/-- R15, R16, R30, U8: the previous sample and the last edge time are never read before a frame start
writes them. Outside `Running`, whatever the two hold, an instruction does the same to everything
else, and one that starts a frame, a tick at the active level or a `FRAME` in `Idle`, writes both. -/
def Obligations.HiddenReceiverStateIsNotRead : Prop :=
  ∀ (s t : State) (i : Instr) (level : Bool) (time : Time), s.rx.receiverState ≠ .running →
    exec i s = .next t →
    ∃ t', exec i { s with rx := { s.rx with prevLevel := level, lastEdgeTime := time } } = .next t'
      ∧ (i.startsFrame → s.rx.receiverState = .idle → t' = t)
      ∧ (¬i.startsFrame ∨ s.rx.receiverState ≠ .idle →
          t' = { t with rx := { t.rx with prevLevel := level, lastEdgeTime := time } })

/-- R21, R30, U8: the message registers are never read before a `TX_SEND` writes them. At rest, whatever
the two hold, an instruction does the same to everything else, and a `TX_SEND` that starts a
transmission writes both. -/
def Obligations.MessageRegistersAreNotReadAtRest : Prop :=
  ∀ (s t : State) (i : Instr) (a b : Half), s.tx.phase = .rest → exec i s = .next t →
    ∃ t', exec i { s with tx := { s.tx with hdrMsg := a, cmdMsg := b } } = .next t'
      ∧ (t.tx.phase ≠ .rest → t' = t)
      ∧ (t.tx.phase = .rest → t' = { t with tx := { t.tx with hdrMsg := a, cmdMsg := b } })

/-- Every step runs the decoded instruction: of the word presented first, else of the segment that the
sender's position calls for; with neither, nothing happens; a word that is no instruction of the table
does what `takeUnlisted` says (UnlistedWordsAreReceived). The order of presented words and driver steps is this model's choice
(notes/assumptions/3.md). -/
def Obligations.StepRunsTheDecodedInstruction : Prop :=
  ∀ (s : State),
    (∀ w rest i, s.pending = w :: rest → decode Config.params (decodeCtx s) w = .ok i →
      step s = exec i { s with pending := rest })
    ∧ (∀ w rest why, s.pending = w :: rest → decode Config.params (decodeCtx s) w = .error why →
      step s = takeUnlisted why w.bits { s with pending := rest })
    ∧ (∀ k, s.pending = [] → dueSegment s.tx = some k → step s = exec (segInstr k) s)
    ∧ (s.pending = [] → s.tx.phase = .rest → step s = .next s)

/-- A table word that the decoder reads is what the next step runs once it is presented. -/
def Obligations.PresentedTableWordRunsNext : Prop :=
  ∀ (s : State) (nbits w : Nat) (i : Instr), decodeTableWord nbits w = some i →
    step (s.withFetchWord nbits w) = exec i s

/-! ### Encodings -/

/-- Words written out from the encodings of R61, R68 and R69. The places of the operands beside the
operation codes are this model's choice (notes/assumptions/4.md). So is the last clause
(notes/assumptions/16.md): that the decoder gives a half with another prefix no row's instruction and
names it `unknownHalf`. -/
def Obligations.WordsFromTheEncodings : Prop :=
  ∀ c : DecodeCtx,
    decode Config.params c ⟨.rx, 0b00⟩ = .ok .rxNop
    ∧ decode Config.params c ⟨.tx, 0b00⟩ = .ok .txNop
    ∧ decode Config.params c ⟨.rx, 0b00000000000000000000110110101100101⟩ = .ok (.rxTick true 3500#32)
    ∧ decode Config.params c ⟨.rx, 0b10⟩ = .ok .rxReset
    ∧ decode Config.params c ⟨.rx, 0b11⟩ = .ok .rxInit
    ∧ decode Config.params c ⟨.tx, 0b10000000000000000100100001⟩ = .ok (.txSend 0x800048#24)
    ∧ decode Config.params c ⟨.tx, 0b10⟩ = .ok .txConstruct
    ∧ decode Config.params c ⟨.tx, 0b11⟩ = .ok .txReserved
    ∧ decode Config.params c
        ⟨.half, 0b1000100001011011111010010000111100000000000000000000000001001110⟩ = .ok .hdrHalf
    ∧ decode Config.params c
        ⟨.half, 0b1000100001011011111010010000000011110001000010000001000010000100⟩ = .ok .cmdFan
    ∧ decode Config.params c ⟨.half, 0x885BE900F1123456⟩ = .ok (.cmdHalf 0x123456#24)
    ∧ decode Config.params c ⟨.half, 0x085BE90F0000004E⟩ = .error .unknownHalf

/-- Decode and encode agree: for every well-formed instruction, in every context in which its word stands
for it (the table's `expected_in` for symbols, the sender's position for segments, every context for
the rest), decoding its word gives it back with every operand. -/
def Obligations.DecodeOfEncode : Prop :=
  ∀ (i : Instr) (c : DecodeCtx), i.wellFormed = true → i.expectedIn c = true →
    decode Config.params c (encode Config.params i) = .ok i

/-- R115, R63: an edge of any duration, at any position, is exactly one symbol: the one of the table
whose condition it meets and which is expected there. The closed windows are the spec's decision D9
and the timeout-mark's D8. -/
def Obligations.EdgesAreClassedByTheTable : Prop :=
  ∀ (c : DecodeCtx) (e : Time) (k : EdgeClass),
    decode Config.params c ⟨.symbol, e.toNat⟩ = .ok (symbolInstr e k)
      ↔ (symbolInstr e k).wellFormed = true ∧ (symbolInstr e k).expectedIn c = true

/-- Whatever the decoder accepts is a well-formed instruction that is expected where it was read. -/
def Obligations.DecodedInstructionsAreWellFormed : Prop :=
  ∀ (c : DecodeCtx) (w : PortWord) (i : Instr), decode Config.params c w = .ok i →
    i.wellFormed = true ∧ i.expectedIn c = true

/-! ### Words without a row in the table -/

/-- R75, R155, R76: the receiver takes a half or a frame without a row in the table all the same, with
the bits presented: a half at the start of a half appends its 64 bits, a half outside `Running`
changes nothing, and a frame in the state a reset leaves is held whole. A word on the driver's port
that is not the due segment is refused as that segment would be (R187). That such words run beside
the table's rows is this model's choice (notes/assumptions/16.md). -/
def Obligations.UnlistedWordsAreReceived : Prop :=
  ∀ (s : State) (w : PortWord) (rest : List PortWord) (why : Reject),
    s.pending = w :: rest → decode Config.params (decodeCtx s) w = .error why →
    (w.port = .half ∨ w.port = .frame ∨ w.port = .driver)
    ∧ (w.port = .half → s.rx.receiverState ≠ .running → step s = .next { s with pending := rest })
    ∧ (w.port = .half → s.rx.receiverState = .running →
        (s.rx.readState = .none ∨ (s.rx.readState = .readTimeout ∧ s.rx.timeoutCount = 1#2)) →
        s.rx.bitIndex.toNat + 64 ≤ 128 →
        ∃ t, step s = .next t
          ∧ t.rx.receiverState = .running ∧ t.rx.readState = .readSpace
          ∧ t.rx.bitIndex.toNat = s.rx.bitIndex.toNat + 64
          ∧ (∀ j, j < 64 → bufBit t.rx.buf (s.rx.bitIndex.toNat + j)
              = (BitVec.ofNat 64 w.bits).getMsbD j)
          ∧ (∀ j, j < 128 → j < s.rx.bitIndex.toNat ∨ s.rx.bitIndex.toNat + 64 ≤ j →
              bufBit t.rx.buf j = bufBit s.rx.buf j)
          ∧ t.rx.timeoutCount = s.rx.timeoutCount ∧ t.rx.prevLevel = s.rx.prevLevel
          ∧ t.tx = s.tx ∧ t.wave = s.wave ∧ t.pending = rest ∧ t.host = s.host)
    ∧ (w.port = .frame → s.rx.receiverState = .idle → s.rx.readState = .none → s.rx.buf = 0#128 →
        s.rx.bitIndex = 0#8 → s.rx.timeoutCount = 0#2 →
        ∃ t, step s = .next t
          ∧ t.rx.receiverState = .overflowed ∧ t.rx.readState = .readSpace
          ∧ t.rx.buf = BitVec.ofNat 128 w.bits ∧ t.rx.bitIndex = 128#8 ∧ t.rx.timeoutCount = 1#2
          ∧ t.rx.prevLevel = !Config.params.rxActiveLevel
          ∧ hasData t.rx = true ∧ isError t.rx = false
          ∧ t.tx = s.tx ∧ t.wave = s.wave ∧ t.pending = rest ∧ t.host = s.host)
    ∧ (w.port = .driver → step s = .refused .segmentNotDue)
end

