-- ==== Sys2Proof/Laws/State.lean ====
section
/-!
SUPPORT. One lemma per field per named update of the state, so that no later proof unfolds a record
update.
-/
namespace Sys2Proof.Machine

/-! ### The machine's sizes (R5) -/

@[simp] theorem params_frameBits : Config.params.frameBits = 128 := rfl
@[simp] theorem params_halfBits : Config.params.halfBits = 64 := rfl
@[simp] theorem params_frameEnd : Config.params.frameEnd = 128#8 := rfl

/-! ### The receiver -/

@[simp] theorem softReset_receiverState (r : Receiver) : (softReset r).receiverState = .idle := rfl
@[simp] theorem softReset_readState (r : Receiver) : (softReset r).readState = .none := rfl
@[simp] theorem softReset_buf (r : Receiver) : (softReset r).buf = 0#128 := rfl
@[simp] theorem softReset_bitIndex (r : Receiver) : (softReset r).bitIndex = 0#8 := rfl
@[simp] theorem softReset_timeoutCount (r : Receiver) : (softReset r).timeoutCount = 0#2 := rfl
@[simp] theorem softReset_prevLevel (r : Receiver) : (softReset r).prevLevel = r.prevLevel := rfl
@[simp] theorem softReset_lastEdgeTime (r : Receiver) : (softReset r).lastEdgeTime = r.lastEdgeTime := rfl
@[simp] theorem raise_unrecognizedSymbol_receiverState (r : Receiver) : (raise .unrecognizedSymbol r).receiverState = .stopped := rfl
@[simp] theorem raise_unrecognizedSymbol_readState (r : Receiver) : (raise .unrecognizedSymbol r).readState = .error := rfl
@[simp] theorem raise_unrecognizedSymbol_buf (r : Receiver) : (raise .unrecognizedSymbol r).buf = r.buf := rfl
@[simp] theorem raise_unrecognizedSymbol_bitIndex (r : Receiver) : (raise .unrecognizedSymbol r).bitIndex = r.bitIndex := rfl
@[simp] theorem raise_unrecognizedSymbol_timeoutCount (r : Receiver) : (raise .unrecognizedSymbol r).timeoutCount = r.timeoutCount := rfl
@[simp] theorem raise_unrecognizedSymbol_prevLevel (r : Receiver) : (raise .unrecognizedSymbol r).prevLevel = r.prevLevel := rfl
@[simp] theorem raise_unrecognizedSymbol_lastEdgeTime (r : Receiver) : (raise .unrecognizedSymbol r).lastEdgeTime = r.lastEdgeTime := rfl
@[simp] theorem raise_midFrameSilence_receiverState (r : Receiver) : (raise .midFrameSilence r).receiverState = .timedOut := rfl
@[simp] theorem raise_midFrameSilence_readState (r : Receiver) : (raise .midFrameSilence r).readState = r.readState := rfl
@[simp] theorem raise_midFrameSilence_buf (r : Receiver) : (raise .midFrameSilence r).buf = r.buf := rfl
@[simp] theorem raise_midFrameSilence_bitIndex (r : Receiver) : (raise .midFrameSilence r).bitIndex = r.bitIndex := rfl
@[simp] theorem raise_midFrameSilence_timeoutCount (r : Receiver) : (raise .midFrameSilence r).timeoutCount = r.timeoutCount := rfl
@[simp] theorem raise_midFrameSilence_prevLevel (r : Receiver) : (raise .midFrameSilence r).prevLevel = r.prevLevel := rfl
@[simp] theorem raise_midFrameSilence_lastEdgeTime (r : Receiver) : (raise .midFrameSilence r).lastEdgeTime = r.lastEdgeTime := rfl
@[simp] theorem raise_overflow_receiverState (r : Receiver) : (raise .overflow r).receiverState = .overflowed := rfl
@[simp] theorem raise_overflow_readState (r : Receiver) : (raise .overflow r).readState = r.readState := rfl
@[simp] theorem raise_overflow_buf (r : Receiver) : (raise .overflow r).buf = r.buf := rfl
@[simp] theorem raise_overflow_bitIndex (r : Receiver) : (raise .overflow r).bitIndex = r.bitIndex := rfl
@[simp] theorem raise_overflow_timeoutCount (r : Receiver) : (raise .overflow r).timeoutCount = r.timeoutCount := rfl
@[simp] theorem raise_overflow_prevLevel (r : Receiver) : (raise .overflow r).prevLevel = r.prevLevel := rfl
@[simp] theorem raise_overflow_lastEdgeTime (r : Receiver) : (raise .overflow r).lastEdgeTime = r.lastEdgeTime := rfl

/-! ### The sender -/

@[simp] theorem acceptSend_out (p : Params) (body : Body) (t : Sender) : (acceptSend p body t).out = t.out := rfl
@[simp] theorem acceptSend_carrierEn (p : Params) (body : Body) (t : Sender) : (acceptSend p body t).carrierEn = true := rfl
@[simp] theorem acceptSend_hdrMsg (p : Params) (body : Body) (t : Sender) : (acceptSend p body t).hdrMsg = hdrMessage p := rfl
@[simp] theorem acceptSend_cmdMsg (p : Params) (body : Body) (t : Sender) : (acceptSend p body t).cmdMsg = cmdMessage p body := rfl
@[simp] theorem acceptSend_busy (p : Params) (body : Body) (t : Sender) : (acceptSend p body t).busy = true := rfl
@[simp] theorem acceptSend_phase (p : Params) (body : Body) (t : Sender) : (acceptSend p body t).phase = .hdrHalf := rfl
@[simp] theorem acceptSend_seg (p : Params) (body : Body) (t : Sender) : (acceptSend p body t).seg = 0 := rfl
@[simp] theorem construct_out (t : Sender) : (construct t).out = false := rfl
@[simp] theorem construct_carrierEn (t : Sender) : (construct t).carrierEn = false := rfl
@[simp] theorem construct_hdrMsg (t : Sender) : (construct t).hdrMsg = t.hdrMsg := rfl
@[simp] theorem construct_cmdMsg (t : Sender) : (construct t).cmdMsg = t.cmdMsg := rfl
@[simp] theorem construct_busy (t : Sender) : (construct t).busy = t.busy := rfl
@[simp] theorem construct_phase (t : Sender) : (construct t).phase = .rest := rfl
@[simp] theorem construct_seg (t : Sender) : (construct t).seg = 0 := rfl
@[simp] theorem driveLine_carrierEn (g : Segment) (t : Sender) : (driveLine g t).carrierEn = t.carrierEn := by
  unfold driveLine; split <;> rfl
@[simp] theorem driveLine_hdrMsg (g : Segment) (t : Sender) : (driveLine g t).hdrMsg = t.hdrMsg := by
  unfold driveLine; split <;> rfl
@[simp] theorem driveLine_cmdMsg (g : Segment) (t : Sender) : (driveLine g t).cmdMsg = t.cmdMsg := by
  unfold driveLine; split <;> rfl
@[simp] theorem driveLine_busy (g : Segment) (t : Sender) : (driveLine g t).busy = t.busy := by
  unfold driveLine; split <;> rfl
@[simp] theorem driveLine_phase (g : Segment) (t : Sender) : (driveLine g t).phase = t.phase := by
  unfold driveLine; split <;> rfl
@[simp] theorem driveLine_seg (g : Segment) (t : Sender) : (driveLine g t).seg = t.seg := by
  unfold driveLine; split <;> rfl
@[simp] theorem advance_out (t : Sender) : (advance t).out = t.out := by
  unfold advance; split <;> (try split) <;> rfl
@[simp] theorem advance_carrierEn (t : Sender) : (advance t).carrierEn = t.carrierEn := by
  unfold advance; split <;> (try split) <;> rfl
@[simp] theorem advance_hdrMsg (t : Sender) : (advance t).hdrMsg = t.hdrMsg := by
  unfold advance; split <;> (try split) <;> rfl
@[simp] theorem advance_cmdMsg (t : Sender) : (advance t).cmdMsg = t.cmdMsg := by
  unfold advance; split <;> (try split) <;> rfl

/-! ### The whole state -/

@[simp] theorem turnAway_rx (why : TurnedAway) (s : State) : (turnAway why s).rx = s.rx := rfl
@[simp] theorem turnAway_tx (why : TurnedAway) (s : State) : (turnAway why s).tx = s.tx := rfl
@[simp] theorem turnAway_wave (why : TurnedAway) (s : State) : (turnAway why s).wave = s.wave := rfl
@[simp] theorem turnAway_pending (why : TurnedAway) (s : State) : (turnAway why s).pending = s.pending := rfl
@[simp] theorem turnAway_lastRead (why : TurnedAway) (s : State) : (turnAway why s).host.lastRead = s.host.lastRead := rfl
@[simp] theorem turnAway_turnedAway (why : TurnedAway) (s : State) : (turnAway why s).host.turnedAway = some why := rfl
@[simp] theorem noteReading_rx (v : Reading) (s : State) : (noteReading v s).rx = s.rx := rfl
@[simp] theorem noteReading_tx (v : Reading) (s : State) : (noteReading v s).tx = s.tx := rfl
@[simp] theorem noteReading_wave (v : Reading) (s : State) : (noteReading v s).wave = s.wave := rfl
@[simp] theorem noteReading_pending (v : Reading) (s : State) : (noteReading v s).pending = s.pending := rfl
@[simp] theorem noteReading_lastRead (v : Reading) (s : State) : (noteReading v s).host.lastRead = some v := rfl
@[simp] theorem noteReading_turnedAway (v : Reading) (s : State) : (noteReading v s).host.turnedAway = s.host.turnedAway := rfl
@[simp] theorem takeWord_rx (s : State) : (takeWord s).rx = s.rx := rfl
@[simp] theorem takeWord_tx (s : State) : (takeWord s).tx = s.tx := rfl
@[simp] theorem takeWord_wave (s : State) : (takeWord s).wave = s.wave := rfl
@[simp] theorem takeWord_host (s : State) : (takeWord s).host = s.host := rfl
@[simp] theorem takeWord_pending (s : State) : (takeWord s).pending = s.pending.tail := rfl
@[simp] theorem present_rx (w : PortWord) (s : State) : (present w s).rx = s.rx := rfl
@[simp] theorem present_tx (w : PortWord) (s : State) : (present w s).tx = s.tx := rfl
@[simp] theorem present_wave (w : PortWord) (s : State) : (present w s).wave = s.wave := rfl
@[simp] theorem present_host (w : PortWord) (s : State) : (present w s).host = s.host := rfl
@[simp] theorem present_pending (w : PortWord) (s : State) : (present w s).pending = w :: s.pending := rfl
@[simp] theorem takeWord_present (w : PortWord) (s : State) : takeWord (present w s) = s := rfl

end Sys2Proof.Machine
end

