-- ==== Sys2Proof/Laws/Buffer.lean ====
section
/-!
SUPPORT. The frame buffer: a read after a write, a byte as eight bits (spec/00_scope.md R7,
spec/20_memory.md R45), and all that `AppendBit` can do.
-/
namespace Sys2Proof.Machine

theorem bufBit_setBufBit (buf : Frame) (i j : Nat) (b : Bool) (hi : i < 128) (hj : j < 128) :
    bufBit (setBufBit buf i b) j = if j = i then b else bufBit buf j := by
  unfold bufBit setBufBit
  have key : (1#128 <<< (127 - i)).getMsbD j = decide (j = i) := by
    rw [BitVec.getMsbD_eq_getLsbD]
    simp only [BitVec.getLsbD_shiftLeft, BitVec.getLsbD_one]
    by_cases h : j = i
    · subst h; simp; omega
    · simp [h]; omega
  cases b
  · have hs : j < 128 := hj
    simp only [Bool.false_eq_true, if_false, BitVec.getMsbD_and, BitVec.getMsbD_not, key]
    by_cases h : j = i <;> simp [h, hs]
  · simp only [if_true, BitVec.getMsbD_or, key]
    by_cases h : j = i <;> simp [h]

theorem bufBit_zero (i : Nat) : bufBit 0#128 i = false := by
  simp [bufBit]

/-- Two buffers with the same 128 bits are one buffer. -/
theorem buf_ext {a b : Frame} (h : ∀ i, i < 128 → bufBit a i = bufBit b i) : a = b := by
  apply BitVec.eq_of_getMsbD_eq
  intro i hi
  exact h i hi

/-- R7, R45: frame bit `i` is bit `7 - (i mod 8)` of byte `i div 8`. -/
theorem byteAt_bit (buf : Frame) (i : Nat) (hi : i < 128) :
    (byteAt buf (i / 8)).getLsbD (7 - i % 8) = bufBit buf i := by
  unfold byteAt bufBit
  rw [BitVec.getLsbD_extractLsb', BitVec.getMsbD_eq_getLsbD]
  have h1 : 7 - i % 8 < 8 := by omega
  have h2 : 8 * (15 - i / 8) + (7 - i % 8) = 128 - 1 - i := by omega
  simp [h1, h2, hi]

/-- Everything `AppendBit` can do. -/
theorem appendBit_cases {b : Bool} {r : Receiver} {res : Except Fault Receiver}
    (h : appendBit b r = res) :
    (r.bitIndex.toNat < 128 ∧ res = .ok { r with
        buf := setBufBit r.buf r.bitIndex.toNat b, bitIndex := r.bitIndex + 1#8 })
      ∨ (128 ≤ r.bitIndex.toNat ∧ res = .error .appendOutOfRange) := by
  unfold appendBit at h
  split at h
  · exact .inl ⟨‹_›, h.symm⟩
  · exact .inr ⟨Nat.le_of_not_lt ‹_›, h.symm⟩

/-- The bit index after an append, as a number. -/
theorem bitIndex_succ {n : BitIndex} (h : n.toNat < 128) : (n + 1#8).toNat = n.toNat + 1 := by
  bv_omega

end Sys2Proof.Machine
end

