-- ==== Sys2Proof/Laws/Classify.lean ====
section
/-!
SUPPORT. The classifier with the machine's parameters as numbers (spec/41_rx_classifier.md R115): each
class, and exactly when it is answered.
-/
namespace Sys2Proof.Machine

theorem matchWindow_iff (e : Time) (n : Nat) :
    matchWindow Config.params e n = true ↔ n ≤ e.toNat + 200 ∧ e.toNat ≤ n + 200 := by
  have hw : Config.params.windowClosed = true := rfl
  have ht : Config.params.tol = 200 := rfl
  simp only [matchWindow, hw, if_true, Bool.and_eq_true, decide_eq_true_eq, ht]

theorem matchTimeout_iff (e : Time) :
    matchTimeout Config.params e = true ↔ 29800 ≤ e.toNat ∧ e.toNat ≤ 31000 := by
  have hl : Config.params.timeoutLo = 29800 := rfl
  have hh : Config.params.timeoutHi = 31000 := rfl
  simp only [matchTimeout, Bool.and_eq_true, decide_eq_true_eq, hl, hh]

/-- R115, row `None`. -/
theorem classify_none (tc : Count) (e : Time) : classify Config.params .none tc e =
    if 3300 ≤ e.toNat ∧ e.toNat ≤ 3700 then .longSpace else .invalid := by
  simp only [classify, matchWindow_iff]
  have : Config.params.tLongSpace = 3500 := rfl
  simp only [this]
  split <;> split <;> first | rfl | omega

/-- R115, row `ReadStart`. -/
theorem classify_readStart (tc : Count) (e : Time) : classify Config.params .readStart tc e =
    if 1560 ≤ e.toNat ∧ e.toNat ≤ 1960 then .startMark else .invalid := by
  simp only [classify, matchWindow_iff]
  have : Config.params.tStartMark = 1760 := rfl
  simp only [this]
  split <;> split <;> first | rfl | omega

/-- R115, row `ReadSpace`. -/
theorem classify_readSpace (tc : Count) (e : Time) : classify Config.params .readSpace tc e =
    if 235 ≤ e.toNat ∧ e.toNat ≤ 635 then .bitSpace else .invalid := by
  simp only [classify, matchWindow_iff]
  have : Config.params.tBitSpace = 435 := rfl
  simp only [this]
  split <;> split <;> first | rfl | omega

/-- R115, row `ReadMark`. -/
theorem classify_readMark (tc : Count) (e : Time) : classify Config.params .readMark tc e =
    if 235 ≤ e.toNat ∧ e.toNat ≤ 635 then .zeroMark
    else if 1095 ≤ e.toNat ∧ e.toNat ≤ 1495 then .oneMark
    else if 29800 ≤ e.toNat ∧ e.toNat ≤ 31000 then .timeoutMark
    else .invalid := by
  simp only [classify, matchWindow_iff, matchTimeout_iff]
  have h0 : Config.params.tZeroMark = 435 := rfl
  have h1 : Config.params.tOneMark = 1295 := rfl
  simp only [h0, h1]
  have e0 : (435 ≤ e.toNat + 200 ∧ e.toNat ≤ 435 + 200) ↔ (235 ≤ e.toNat ∧ e.toNat ≤ 635) := by omega
  have e1 : (1295 ≤ e.toNat + 200 ∧ e.toNat ≤ 1295 + 200) ↔ (1095 ≤ e.toNat ∧ e.toNat ≤ 1495) := by
    omega
  simp only [e0, e1]

/-- R115, the rows `ReadTimeout`. -/
theorem classify_readTimeout (tc : Count) (e : Time) : classify Config.params .readTimeout tc e =
    if tc = 1#2 then (if 3300 ≤ e.toNat ∧ e.toNat ≤ 3700 then .longSpace else .invalid) else .done := by
  rw [← classify_none tc e]
  rfl

theorem classify_error (tc : Count) (e : Time) : classify Config.params .error tc e = .done := rfl

/-- R111: the three ways an edge is classed. -/
theorem edgeClass_eq (bi : BitIndex) (rs : ReadState) (tc : Count) (e : Time) :
    edgeClass Config.params bi rs tc e =
      if bi = 128#8 then .overflowEdge
      else if 31000 < e.toNat then .ceiling
      else classify Config.params rs tc e := rfl

/-- `classify` never answers the classes of steps 1 and 2. -/
theorem classify_ne (rs : ReadState) (tc : Count) (e : Time) :
    classify Config.params rs tc e ≠ .overflowEdge ∧ classify Config.params rs tc e ≠ .ceiling := by
  cases rs <;> simp only [classify] <;> (repeat' split) <;> simp

/-- The class of an edge, said by the table: the instruction an edge stands for is well formed and is
expected at that position. -/
theorem symbolInstr_sound (c : DecodeCtx) (e : Time) :
    let i := symbolInstr e (edgeClass Config.params c.bitIndex c.readState c.timeoutCount e)
    i.wellFormed = true ∧ i.expectedIn c = true := by
  intro i
  have hi : i = symbolInstr e (edgeClass Config.params c.bitIndex c.readState c.timeoutCount e) := rfl
  rw [edgeClass_eq] at hi
  by_cases h1 : c.bitIndex = 128#8
  · simp [hi, h1, symbolInstr, Instr.wellFormed, Instr.expectedIn]
  · by_cases h2 : 31000 < e.toNat
    · simp [hi, h1, h2, symbolInstr, Instr.wellFormed, Instr.expectedIn]
    · rw [if_neg h1, if_neg h2] at hi
      have h3 : e.toNat ≤ 31000 := by omega
      rcases hr : c.readState with _ | _ | _ | _ | _ | _ <;> rw [hr] at hi
      · rw [classify_none] at hi
        split at hi <;> simp_all [symbolInstr, Instr.wellFormed, Instr.expectedIn, Time.within]; omega
      · rw [classify_readStart] at hi
        split at hi <;> simp_all [symbolInstr, Instr.wellFormed, Instr.expectedIn, Time.within]; omega
      · rw [classify_readSpace] at hi
        split at hi <;> simp_all [symbolInstr, Instr.wellFormed, Instr.expectedIn, Time.within]; omega
      · rw [classify_readMark] at hi
        (repeat' split at hi) <;>
          simp_all [symbolInstr, Instr.wellFormed, Instr.expectedIn, Time.within]; omega
      · rw [classify_readTimeout] at hi
        (repeat' split at hi) <;>
          simp_all [symbolInstr, Instr.wellFormed, Instr.expectedIn, Time.within]; omega
      · rw [classify_error] at hi
        simp_all [symbolInstr, Instr.wellFormed, Instr.expectedIn]

end Sys2Proof.Machine
end

