-- ==== Sys2Proof/Laws/Sender.lean ====
section
/-!
SUPPORT. The sender's line driver: everything a segment can do, and the step that runs the segment the
position calls for (spec/45_tx_waveform.md R187).
-/
namespace Sys2Proof.Machine

/-- The state after the segment `k` that is due. -/
def emitted (k : SegKind) (s : State) : State :=
  { s with
    tx := advance (driveLine (segmentOf Config.params k) s.tx)
    wave := s.wave ++ [segmentOf Config.params k] }

/-- Everything a segment instruction can do. -/
theorem exec_segInstr (k : SegKind) (s : State) : exec (segInstr k) s =
    if dueSegment s.tx = some k then .next (emitted k s) else .refused .segmentNotDue := by
  cases k <;> rfl

@[simp] theorem takeWord_none {s : State} (h : s.pending = []) : takeWord s = s := by
  unfold takeWord
  rw [h]
  cases s
  simp_all

/-- With nothing presented, a step is the driver's. -/
theorem step_driver {s : State} {k : SegKind} (hp : s.pending = [])
    (hk : dueSegment s.tx = some k) : step s = .next (emitted k s) := by
  have hf : fetch s = some ⟨.driver, segmentBits (segmentOf Config.params k)⟩ := by
    simp [fetch, hp, driverWord, hk]
  have hd : decode Config.params (decodeCtx s)
      ⟨.driver, segmentBits (segmentOf Config.params k)⟩ = .ok (segInstr k) := by
    simp [decode, decodeDriver, decodeCtx, hk]
  unfold step
  rw [hf]
  simp only [hd, takeWord_none hp, exec_segInstr, hk, if_true]

/-- With nothing presented and the sender at rest, a step changes nothing. -/
theorem step_rest {s : State} (hp : s.pending = []) (hk : dueSegment s.tx = none) :
    step s = .next s := by
  have hf : fetch s = none := by simp [fetch, hp, driverWord, hk]
  unfold step
  rw [hf]
  rfl

/-- With a word presented, a step takes it. -/
theorem step_presented {s : State} {w : PortWord} {rest : List PortWord}
    (hp : s.pending = w :: rest) : step s =
      match decode Config.params (decodeCtx s) w with
      | .ok i => exec i { s with pending := rest }
      | .error why => takeUnlisted why w.bits { s with pending := rest } := by
  have hf : fetch s = some w := by simp [fetch, hp]
  have ht : takeWord s = { s with pending := rest } := by simp [takeWord, hp]
  unfold step
  rw [hf, ← ht]
  all_goals cases hd : decode Config.params (decodeCtx s) w <;> simp only [hd]

/-! ### Positions of a half -/

/-- The message that a phase sends. -/
def phaseMsg (t : Sender) : Half :=
  match t.phase with
  | .hdrHalf => t.hdrMsg
  | .cmdHalf => t.cmdMsg
  | .rest => 0#64
  | .halfGap => 0#64
  | .cmdGap => 0#64

theorem dueSegment_half {t : Sender} (h : t.phase = .hdrHalf ∨ t.phase = .cmdHalf) :
    dueSegment t = some (halfSegment (phaseMsg t) t.seg) := by
  rcases h with h | h <;> simp [dueSegment, phaseMsg, h]

theorem halfSegment_bitMark (m : Half) {seg : Fin 132} {i : Nat} (hi : i < 64)
    (h : seg.val = 2 + 2 * i) : halfSegment m seg = .bitMark := by
  unfold halfSegment
  rw [if_neg (by omega), if_neg (by omega), if_neg (by omega), if_neg (by omega), if_pos (by omega)]

theorem halfSegment_bitSpace (m : Half) {seg : Fin 132} {i : Nat} (hi : i < 64)
    (h : seg.val = 3 + 2 * i) :
    halfSegment m seg = if msgBit m i then .oneSpace else .zeroSpace := by
  unfold halfSegment
  rw [if_neg (by omega), if_neg (by omega), if_neg (by omega), if_neg (by omega), if_neg (by omega)]
  have : (seg.val - 3) / 2 = i := by omega
  rw [this]

theorem advance_half {t : Sender} (h : t.phase = .hdrHalf ∨ t.phase = .cmdHalf)
    (hs : t.seg.val ≠ 131) : advance t = { t with seg := t.seg + 1 } := by
  rcases h with h | h <;> simp [advance, h, hs]

theorem seg_succ {n : Fin 132} (h : n.val < 131) : (n + 1).val = n.val + 1 := by
  rw [Fin.val_add]
  have : ((1 : Fin 132).val) = 1 := rfl
  omega

/-- R174: message bit `i` by number. -/
theorem msgBit_eq (m : Half) (i : Nat) (hi : i < 64) : msgBit m i = m.getLsbD (63 - i) := by
  unfold msgBit
  rw [BitVec.getMsbD_eq_getLsbD]
  simp [hi]

end Sys2Proof.Machine
end

