-- ==== Sys2Proof/Laws/Codec.lean ====
section
/-!
SUPPORT. Words and fields: what the decoder takes from the encoder's words, port by port, and the
two messages as numbers (spec/30_encoding.md R61, R68, R69).
-/
namespace Sys2Proof.Machine

/-- R172. -/
theorem cmdMsg_eq (body : Body) : cmdMessage Config.params body = 0x885BE900F1#40 ++ body := by
  have : (Config.params.framePrefix ++ Config.params.cmdBegin) = 0x885BE900F1#40 := by decide
  unfold cmdMessage
  rw [this]

/-- R171. -/
theorem hdrMsg_eq : hdrMessage Config.params = 0x885BE90F0000004E#64 := by decide

/-- R60. -/
theorem frameWord_eq (body : Body) : frameWord Config.params body
    = 0x885BE90F0000004E885BE900F1#104 ++ body := by
  unfold frameWord
  rw [cmdMsg_eq, hdrMsg_eq]
  apply BitVec.eq_of_getLsbD_eq
  intro i hi
  simp only [BitVec.getLsbD_append]
  by_cases h : i < 24
  · simp [h, show i < 64 by omega]
  · simp only [h, if_false]
    by_cases h2 : i < 64
    · simp only [h2, if_true]
      have : (0x885BE90F0000004E885BE900F1#104).extractLsb' 0 40 = 0x885BE900F1#40 := by decide
      rw [← this, BitVec.getLsbD_extractLsb']
      simp [show i - 24 < 40 by omega]
    · simp only [h2, if_false]
      have : (0x885BE90F0000004E885BE900F1#104).extractLsb' 40 64 = 0x885BE90F0000004E#64 :=
          by decide
      rw [← this, BitVec.getLsbD_extractLsb']
      simp [show i - 64 < 64 by omega, show 40 + (i - 64) = i - 24 by omega]

theorem fieldOf_toNat {n : Nat} (w : BitVec n) : fieldOf w.toNat 0 n = w := by
  simp [fieldOf]

/-- The symbol port classifies (R114). -/
theorem symbol_decode (c : DecodeCtx) (e : Time) :
   decode Config.params c ⟨.symbol, e.toNat⟩ = .ok (symbolInstr e
       (edgeClass Config.params c.bitIndex c.readState c.timeoutCount e)) := by
  simp only [decode, decodeSymbol, fieldOf_toNat]

theorem symbolInstr_inj {e : Time} {a b : EdgeClass} (h : symbolInstr e a = symbolInstr e b) : a
    = b := by
  cases a <;> cases b <;> simp [symbolInstr] at h ⊢

/-- A well-formed symbol that is expected at a position is the class of its duration there. -/
theorem symbol_complete (c : DecodeCtx) (e : Time) (k : EdgeClass) (h1 :
    (symbolInstr e k).wellFormed = true) (h2 : (symbolInstr e k).expectedIn c = true) :
   edgeClass Config.params c.bitIndex c.readState c.timeoutCount e = k := by
  rw [edgeClass_eq]
  cases k <;> simp only [symbolInstr, Instr.wellFormed, Instr.expectedIn, Time.within,
      Bool.and_eq_true, Bool.or_eq_true, decide_eq_true_eq] at h1 h2
  case overflowEdge => simp [h2]
  all_goals rw [if_neg (by first | exact h2.1 | exact h2)]
  case ceiling => rw [if_pos h1]
  all_goals rw [if_neg (by omega)]
  case longSpace =>
    rcases h2.2 with h | ⟨h, h'⟩
    · rw [h, classify_none, if_pos h1]
    · rw [h, classify_readTimeout, if_pos h', if_pos h1]
  case startMark => rw [h2.2, classify_readStart, if_pos h1]
  case bitSpace => rw [h2.2, classify_readSpace, if_pos h1]
  case zeroMark => rw [h2.2, classify_readMark, if_pos h1]
  case oneMark => rw [h2.2, classify_readMark, if_neg (by omega), if_pos h1]
  case timeoutMark => rw [h2.2, classify_readMark, if_neg (by omega), if_neg (by omega), if_pos h1]
  case done =>
    rcases h2.2 with ⟨h, h'⟩ | h
    · rw [h, classify_readTimeout, if_neg h']
    · rw [h, classify_error]
  case invalid =>
    rcases hr : c.readState with _ | _ | _ | _ | _ | _ <;> simp [hr] at h2
    · rw [classify_none, if_neg (by omega)]
    · rw [classify_readStart, if_neg (by omega)]
    · rw [classify_readSpace, if_neg (by omega)]
    · rw [classify_readMark, if_neg (by omega), if_neg (by omega), if_neg (by omega)]
    · rw [classify_readTimeout, if_pos h2.2.1, if_neg (by omega)]

theorem decodeTx_send (body : Body) : decodeTx (1 + 4 * body.toNat) = .ok (.txSend body) := by
  have hl := body.isLt
  have h2 : (1 + 4 * body.toNat) % 4 = 1 := by omega
  have h3 : fieldOf (1 + 4 * body.toNat) 2 24 = body := by
    unfold fieldOf
    have : (1 + 4 * body.toNat) / 2 ^ 2 = body.toNat := by omega
    rw [this]; simp
  simp only [decodeTx, h2, h3]

theorem decodeRx_tick (level : Bool) (now : Time) : decodeRx
    (1 + 4 * level.toNat + 8 * now.toNat) = .ok (.rxTick level now) := by
  have hl := now.isLt
  have hb : level.toNat ≤ 1 := Bool.toNat_le level
  have h2 : (1 + 4 * level.toNat + 8 * now.toNat) % 4 = 1 := by omega
  have h3 : fieldOf (1 + 4 * level.toNat + 8 * now.toNat) 3 32 = now := by
    unfold fieldOf
    have : (1 + 4 * level.toNat + 8 * now.toNat) / 2 ^ 3 = now.toNat := by omega
    rw [this]; simp
  have h4 : (fieldOf (1 + 4 * level.toNat + 8 * now.toNat) 2 1 == 1#1) = level := by
    unfold fieldOf
    have : (1 + 4 * level.toNat + 8 * now.toNat) / 2 ^ 2 = level.toNat + 2 * now.toNat := by omega
    rw [this]
    have : BitVec.ofNat 1 (level.toNat + 2 * now.toNat) = BitVec.ofBool level := by
      apply BitVec.eq_of_toNat_eq
      simp only [BitVec.toNat_ofNat]
      cases level <;> simp
    rw [this]; cases level <;> rfl
  simp only [decodeRx, h2, h3, h4]

theorem cmdHalf_field (body : Body) : fieldOf (0x885BE900F1 * 2 ^ 24 + body.toNat) 0 64
    = cmdMessage Config.params body := by
  rw [cmdMsg_eq]
  apply BitVec.eq_of_toNat_eq
  have hl := body.isLt
  rw [BitVec.toNat_append, ← Nat.shiftLeft_add_eq_or_of_lt hl]
  simp [fieldOf, Nat.shiftLeft_eq]
  omega

theorem frame_field (body : Body) : fieldOf
    (0x885BE90F0000004E885BE900F1 * 2 ^ 24 + body.toNat) 0 128 = frameWord Config.params body := by
  unfold frameWord
  rw [cmdMsg_eq, hdrMsg_eq]
  apply BitVec.eq_of_toNat_eq
  have hl := body.isLt
  have h1 : (0x885BE900F1#40 ++ body).toNat = 0x885BE900F1 * 2^24 + body.toNat := by
    rw [BitVec.toNat_append, ← Nat.shiftLeft_add_eq_or_of_lt hl]
    simp [Nat.shiftLeft_eq]
  rw [BitVec.toNat_append, ← Nat.shiftLeft_add_eq_or_of_lt (BitVec.isLt _), h1]
  simp [fieldOf, Nat.shiftLeft_eq]
  omega

theorem cmd_extract (body : Body) : (cmdMessage Config.params body).extractLsb' 0 24 = body := by
  rw [cmdMsg_eq]
  apply BitVec.eq_of_getLsbD_eq
  intro i hi
  rw [BitVec.getLsbD_extractLsb', BitVec.getLsbD_append]
  simp [hi]

theorem frame_extract (body : Body) : (frameWord Config.params body).extractLsb' 0 24 = body := by
  unfold frameWord
  rw [cmdMsg_eq, hdrMsg_eq]
  apply BitVec.eq_of_getLsbD_eq
  intro i hi
  rw [BitVec.getLsbD_extractLsb', BitVec.getLsbD_append, BitVec.getLsbD_append]
  simp [hi, show i < 64 by omega]

theorem cmd_inj {a b : Body} (h : cmdMessage Config.params a = cmdMessage Config.params b) : a
    = b := by
  rw [← cmd_extract a, h, cmd_extract]

theorem cmd_ne_hdr (b : Body) : cmdMessage Config.params b ≠ hdrMessage Config.params := by
  intro h
  rw [cmdMsg_eq, hdrMsg_eq] at h
  have := congrArg (fun x : BitVec 64 => x.extractLsb' 24 40) h
  rw [show (0x885BE90F0000004E#64).extractLsb' 24 40 = 0x885BE90F00#40 by decide] at this
  have h2 : (0x885BE900F1#40 ++ b).extractLsb' 24 40 = 0x885BE900F1#40 := by
    apply BitVec.eq_of_getLsbD_eq
    intro i hi
    rw [BitVec.getLsbD_extractLsb', BitVec.getLsbD_append]
    simp [hi]
  rw [h2] at this
  exact absurd this (by decide)

end Sys2Proof.Machine
end

