-- ==== Sys2Proof/Laws/Edge.lean ====
section
/-!
SUPPORT. One edge and one tick: everything that `onEdge`, the symbol instructions and `RX_TICK` can do
(spec/42_rx_frame_assembler.md R139, spec/40_rx_sampling.md R91 to R93).
-/
namespace Sys2Proof.Machine

/-- R111: the order of `onEdge`'s steps is the order of `edgeClass`. -/
theorem onEdge_eq_applyClass (p : Params) (e : Time) (r : Receiver) :
    onEdge p e r = applyClass p (classAt p e r) r := by
  unfold onEdge classAt edgeClass
  split
  · rfl
  · split <;> rfl

/-- In `Running` an edge named as a class with that class's effect is the edge of its duration. -/
theorem symbolEdge_running (c : EdgeClass) (e : Time) (r : Receiver)
    (h : r.receiverState = .running) :
    symbolEdge c (applyClass Config.params c) e r = onEdge Config.params e r := by
  unfold symbolEdge
  rw [if_pos h]
  split
  · rw [onEdge_eq_applyClass]; simp_all
  · rfl

/-- Outside `Running` no edge is classified (R91, R92). -/
theorem symbolEdge_not_running (c : EdgeClass) (f : Receiver → Except Fault Receiver) (e : Time)
    (r : Receiver) (h : r.receiverState ≠ .running) : symbolEdge c f e r = .ok r := by
  unfold symbolEdge
  rw [if_neg h]

/-- Whatever class a symbol instruction names, it is the edge of its duration. -/
theorem exec_symbolInstr (c : EdgeClass) (e : Time) (s : State) :
    exec (symbolInstr e c) s =
      onReceiver s (if s.rx.receiverState = .running then onEdge Config.params e s.rx
        else .ok s.rx) := by
  have key : exec (symbolInstr e c) s
      = onReceiver s (symbolEdge c (applyClass Config.params c) e s.rx) := by
    cases c <;> rfl
  rw [key]
  split
  · rw [symbolEdge_running c e s.rx ‹_›]
  · rw [symbolEdge_not_running c _ e s.rx ‹_›]

/-- All that a receiver's operation can make of the machine. -/
theorem onReceiver_next {s t : State} {res : Except Fault Receiver} :
    onReceiver s res = .next t ↔ ∃ r, res = .ok r ∧ t = { s with rx := r } := by
  unfold onReceiver
  cases res with
  | ok r => simp [eq_comm]
  | error f => simp

theorem onReceiver_fault {s : State} {res : Except Fault Receiver} {f : Fault} :
    onReceiver s res = .fault f ↔ res = .error f := by
  unfold onReceiver
  cases res with
  | ok r => simp
  | error f => simp

theorem onReceiver_not_refused {s : State} {res : Except Fault Receiver} {w : Refusal} :
    onReceiver s res ≠ .refused w := by
  unfold onReceiver
  cases res <;> simp

/-- R139: everything an edge can do, row by row. The last two rows are the faults of unreachable
states. -/
theorem onEdge_cases (e : Time) (r : Receiver) :
    (r.bitIndex = 128#8 ∧ onEdge Config.params e r = .ok (raise .overflow r))
    ∨ (r.bitIndex ≠ 128#8 ∧ 31000 < e.toNat
        ∧ onEdge Config.params e r = .ok (raise .midFrameSilence r))
    ∨ (r.bitIndex ≠ 128#8 ∧ e.toNat ≤ 31000 ∧
        ((r.readState = .none ∧ 3300 ≤ e.toNat ∧ e.toNat ≤ 3700
            ∧ onEdge Config.params e r = .ok { r with readState := .readStart })
        ∨ (r.readState = .readStart ∧ 1560 ≤ e.toNat ∧ e.toNat ≤ 1960
            ∧ onEdge Config.params e r = .ok { r with readState := .readSpace })
        ∨ (r.readState = .readSpace ∧ 235 ≤ e.toNat ∧ e.toNat ≤ 635
            ∧ onEdge Config.params e r = .ok { r with readState := .readMark })
        ∨ (r.readState = .readMark ∧ r.bitIndex.toNat < 128 ∧
            ∃ b, ((b = false ∧ 235 ≤ e.toNat ∧ e.toNat ≤ 635)
                ∨ (b = true ∧ 1095 ≤ e.toNat ∧ e.toNat ≤ 1495))
            ∧ onEdge Config.params e r = .ok { r with
                buf := setBufBit r.buf r.bitIndex.toNat b
                bitIndex := r.bitIndex + 1#8
                readState := .readSpace })
        ∨ (r.readState = .readMark ∧ r.timeoutCount ≠ 3#2 ∧ 29800 ≤ e.toNat
            ∧ onEdge Config.params e r = .ok { r with
                timeoutCount := r.timeoutCount + 1#2, readState := .readTimeout })
        ∨ (r.readState = .readTimeout ∧ r.timeoutCount = 1#2 ∧ 3300 ≤ e.toNat ∧ e.toNat ≤ 3700
            ∧ onEdge Config.params e r = .ok { r with readState := .readStart })
        ∨ (((r.readState = .readTimeout ∧ r.timeoutCount ≠ 1#2 ∧ r.timeoutCount ≠ 3#2)
              ∨ r.readState = .error)
            ∧ onEdge Config.params e r = .ok r)
        ∨ (classAt Config.params e r = .invalid
            ∧ onEdge Config.params e r = .ok (raise .unrecognizedSymbol r))
        ∨ (r.readState = .readMark ∧ 128 < r.bitIndex.toNat
            ∧ onEdge Config.params e r = .error .appendOutOfRange)))
    ∨ (r.bitIndex ≠ 128#8 ∧ e.toNat ≤ 31000 ∧ r.timeoutCount = 3#2
        ∧ onEdge Config.params e r = .error .timeoutCountUnused) := by
  have hc := edgeClass_eq r.bitIndex r.readState r.timeoutCount e
  by_cases h1 : r.bitIndex = 128#8
  · left
    refine ⟨h1, ?_⟩
    rw [onEdge_eq_applyClass, classAt, hc, if_pos h1]; rfl
  right
  by_cases h2 : 31000 < e.toNat
  · left
    refine ⟨h1, h2, ?_⟩
    rw [onEdge_eq_applyClass, classAt, hc, if_neg h1, if_pos h2]; rfl
  right
  have h3 : e.toNat ≤ 31000 := by omega
  rw [if_neg h1, if_neg h2] at hc
  have hE : onEdge Config.params e r
      = applyClass Config.params (classify Config.params r.readState r.timeoutCount e) r := by
    rw [onEdge_eq_applyClass, classAt, hc]
  have hA : classAt Config.params e r = classify Config.params r.readState r.timeoutCount e := hc
  have inv : applyClass Config.params .invalid r = .ok (raise .unrecognizedSymbol r) := rfl
  by_cases h4 : r.timeoutCount = 3#2 ∧ ((r.readState = .readMark ∧ 29800 ≤ e.toNat)
      ∨ r.readState = .readTimeout)
  · obtain ⟨h4, h5⟩ := h4
    right
    refine ⟨h1, h3, h4, ?_⟩
    rw [hE]
    rcases h5 with ⟨hp, h6⟩ | hp
    · rw [hp, classify_readMark, if_neg (by omega), if_neg (by omega), if_pos (by omega)]
      exact if_pos h4
    · rw [hp, classify_readTimeout, if_neg (by rw [h4]; decide)]
      show applyDone _ _ = _
      rw [applyDone, if_pos hp]
      exact if_pos h4
  left
  refine ⟨h1, h3, ?_⟩
  rw [hE, hA]
  rcases hr : r.readState with _ | _ | _ | _ | _ | _
  · rw [classify_none]
    split
    · left
      simp [applyClass, applyLongSpace, *]
    · simp [inv]
  · rw [classify_readStart]
    split
    · simp [applyClass, applyStartMark, *]
    · simp [inv]
  · rw [classify_readSpace]
    split
    · simp [applyClass, applyBitSpace, *]
    · simp [inv]
  · rw [classify_readMark]
    by_cases h128 : r.bitIndex.toNat < 128
    · split
      · simp [applyClass, applyZeroMark, applyBit, appendBit, *]
      · split
        · simp [applyClass, applyOneMark, applyBit, appendBit, *]
        · split
          · have ht : r.timeoutCount ≠ 3#2 := fun h => h4 ⟨h, .inl ⟨hr, by omega⟩⟩
            have he : 29800 ≤ e.toNat := by omega
            simp [applyClass, applyTimeoutMark, readCount, ht, he]
          · simp [inv]
    · have h128' : 128 < r.bitIndex.toNat := by
        have : r.bitIndex.toNat ≠ 128 := fun h => h1 (BitVec.eq_of_toNat_eq (by simpa using h))
        omega
      split
      · simp [applyClass, applyZeroMark, applyBit, appendBit, h128, h128']
      · split
        · simp [applyClass, applyOneMark, applyBit, appendBit, h128, h128']
        · split
          · have ht : r.timeoutCount ≠ 3#2 := fun h => h4 ⟨h, .inl ⟨hr, by omega⟩⟩
            have he : 29800 ≤ e.toNat := by omega
            simp [applyClass, applyTimeoutMark, readCount, ht, he]
          · simp [inv]
  · have ht : r.timeoutCount ≠ 3#2 := fun h => h4 ⟨h, .inr hr⟩
    rw [classify_readTimeout]
    split
    · split
      · simp [applyClass, applyLongSpace, *]
      · simp [inv]
    · have hp : Config.params.secondTimeout = .hold := rfl
      simp [applyClass, applyDone, readCount, *]
  · simp [classify_error, applyClass, applyDone, hr]

/-- R91, R92, R93: everything a tick can do. -/
theorem tick_cases (level : Bool) (now : Time) (r : Receiver) :
    (r.terminal = true ∧ tick Config.params level now r = .ok r)
    ∨ (r.receiverState = .idle ∧ level = Config.params.rxActiveLevel
        ∧ tick Config.params level now r = .ok { r with
            lastEdgeTime := now, prevLevel := level, receiverState := .running })
    ∨ (r.receiverState = .idle ∧ level ≠ Config.params.rxActiveLevel
        ∧ tick Config.params level now r = .ok r)
    ∨ (r.receiverState = .running ∧ level = r.prevLevel ∧ tick Config.params level now r = .ok r)
    ∨ (r.receiverState = .running ∧ level ≠ r.prevLevel
        ∧ tick Config.params level now r = onEdge Config.params (now - r.lastEdgeTime)
            { r with lastEdgeTime := now, prevLevel := level }) := by
  unfold tick Receiver.terminal
  cases h : r.receiverState with
  | stopped => simp
  | timedOut => simp
  | overflowed => simp
  | idle => by_cases hl : level = Config.params.rxActiveLevel <;> simp [hl]
  | running =>
    by_cases hl : level = r.prevLevel <;> simp [hl, elapsedAt]

/-- A tick in a terminal state changes nothing (R91). -/
theorem tick_terminal {r : Receiver} (h : r.terminal = true) (level : Bool) (now : Time) :
    tick Config.params level now r = .ok r := by
  rcases tick_cases level now r with ⟨_, h'⟩ | ⟨h', _⟩ | ⟨h', _⟩ | ⟨h', _⟩ | ⟨h', _⟩
  · exact h'
  all_goals simp [Receiver.terminal, h'] at h

/-- The tick that shows the opposite level `d` after the last edge is an edge of duration `d`. -/
theorem edgeTick_running {r : Receiver} (h : r.receiverState = .running) (d : Time) :
    edgeTick Config.params d r = onEdge Config.params d
      { r with lastEdgeTime := r.lastEdgeTime + d, prevLevel := !r.prevLevel } := by
  have hd : r.lastEdgeTime + d - r.lastEdgeTime = d := by bv_omega
  unfold edgeTick tick
  rw [if_pos h, h]
  have hne : (!r.prevLevel) ≠ r.prevLevel := by cases r.prevLevel <;> simp
  simp only [elapsedAt, hd, if_pos hne]

theorem runEdges_append (p : Params) (ds es : List Time) (r : Receiver) :
    runEdges p (ds ++ es) r =
      match runEdges p ds r with
      | .ok r' => runEdges p es r'
      | .error f => .error f := by
  induction ds generalizing r with
  | nil => rfl
  | cons d ds ih =>
    simp only [List.cons_append, runEdges]
    cases edgeTick p d r with
    | ok r' => exact ih r'
    | error f => rfl

/-- Outside `Running` no sequence of edges changes anything (R91, R92). -/
theorem runEdges_not_running {r : Receiver} (h : r.receiverState ≠ .running) (ds : List Time) :
    runEdges Config.params ds r = .ok r := by
  induction ds with
  | nil => rfl
  | cons d ds ih => simp only [runEdges, edgeTick, if_neg h]; exact ih

/-- In a terminal state no sequence of edges changes anything (R91). -/
theorem runEdges_terminal {r : Receiver} (h : r.terminal = true) (ds : List Time) :
    runEdges Config.params ds r = .ok r :=
  runEdges_not_running (by intro hr; simp [Receiver.terminal, hr] at h) ds

end Sys2Proof.Machine
end

