-- ==== Sys2Proof/Laws/Frame.lean ====
section
/-!
SUPPORT. Sequences of edges: what the durations of a half make of a receiver at the start of a half
(spec/42_rx_frame_assembler.md R140), for any durations within the windows.
-/
namespace Sys2Proof.Machine

/-- The buffer after the bits of a list are appended from index `i` on. -/
def appendBits (buf : Frame) (i : Nat) : List Bool → Frame
  | [] => buf
  | b :: bs => appendBits (setBufBit buf i b) (i + 1) bs

theorem bufBit_appendBits (bs : List Bool) (buf : Frame) (i j : Nat) (hi : i + bs.length ≤ 128)
    (hj : j < 128) : bufBit (appendBits buf i bs) j =
      if h : i ≤ j ∧ j < i + bs.length then bs[j - i]'(by omega) else bufBit buf j := by
  induction bs generalizing buf i with
  | nil =>
    simp [appendBits]
  | cons b bs ih =>
    simp only [List.length_cons] at hi
    simp only [appendBits]
    rw [ih _ _ (by omega), bufBit_setBufBit buf i j b (by omega) hj]
    by_cases h1 : j = i
    · subst h1
      simp
    · by_cases h2 : i + 1 ≤ j ∧ j < i + 1 + bs.length
      · have h3 : i ≤ j ∧ j < i + (b :: bs).length := by simp only [List.length_cons]; omega
        rw [dif_pos h2, dif_pos h3]
        have h4 : j - i = (j - (i + 1)) + 1 := by omega
        simp only [h4, List.getElem_cons_succ]
      · have h3 : ¬(i ≤ j ∧ j < i + (b :: bs).length) := by simp only [List.length_cons]; omega
        rw [dif_neg h2, dif_neg h3, if_neg h1]

/-- The sum of durations on the time base, from a start. -/
def timeAfter (start : Time) (ds : List Time) : Time := ds.foldl (· + ·) start

@[simp] theorem timeAfter_nil (start : Time) : timeAfter start [] = start := rfl

@[simp] theorem timeAfter_cons (start d : Time) (ds : List Time) :
    timeAfter start (d :: ds) = timeAfter (start + d) ds := rfl

theorem timeAfter_append (start : Time) (ds es : List Time) :
    timeAfter start (ds ++ es) = timeAfter (timeAfter start ds) es := by
  simp [timeAfter, List.foldl_append]

/-- The input level after a number of edges. -/
def levelAfter (level : Bool) (n : Nat) : Bool := if n % 2 = 0 then level else !level

theorem levelAfter_succ (level : Bool) (n : Nat) :
    levelAfter (!level) n = levelAfter level (n + 1) := by
  unfold levelAfter
  rcases Nat.mod_two_eq_zero_or_one n with h | h
  · simp [h, Nat.add_mod]
  · simp [h, Nat.add_mod]

/-! ### One edge at each position -/

theorem onEdge_readSpace {r : Receiver} {e : Time} (hp : r.readState = .readSpace)
    (hb : r.bitIndex ≠ 128#8) (h : 235 ≤ e.toNat ∧ e.toNat ≤ 635) :
    onEdge Config.params e r = .ok { r with readState := .readMark } := by
  rw [onEdge_eq_applyClass, classAt, edgeClass_eq, if_neg hb, if_neg (by omega), hp,
    classify_readSpace, if_pos h]
  rfl

theorem onEdge_none {r : Receiver} {e : Time}
    (hp : r.readState = .none ∨ (r.readState = .readTimeout ∧ r.timeoutCount = 1#2))
    (hb : r.bitIndex ≠ 128#8) (h : 3300 ≤ e.toNat ∧ e.toNat ≤ 3700) :
    onEdge Config.params e r = .ok { r with readState := .readStart } := by
  rw [onEdge_eq_applyClass, classAt, edgeClass_eq, if_neg hb, if_neg (by omega)]
  rcases hp with hp | ⟨hp, h1⟩
  · rw [hp, classify_none, if_pos h]
    rfl
  · rw [hp, classify_readTimeout, if_pos h1, if_pos h]
    rfl

theorem onEdge_readStart {r : Receiver} {e : Time} (hp : r.readState = .readStart)
    (hb : r.bitIndex ≠ 128#8) (h : 1560 ≤ e.toNat ∧ e.toNat ≤ 1960) :
    onEdge Config.params e r = .ok { r with readState := .readSpace } := by
  rw [onEdge_eq_applyClass, classAt, edgeClass_eq, if_neg hb, if_neg (by omega), hp,
    classify_readStart, if_pos h]
  rfl

theorem onEdge_bit {r : Receiver} {e : Time} (b : Bool) (hp : r.readState = .readMark)
    (hb : r.bitIndex.toNat < 128)
    (h : (if b then (1095, 1495) else (235, 635) : Nat × Nat).1 ≤ e.toNat
      ∧ e.toNat ≤ (if b then (1095, 1495) else (235, 635) : Nat × Nat).2) :
    onEdge Config.params e r = .ok { r with
      buf := setBufBit r.buf r.bitIndex.toNat b
      bitIndex := r.bitIndex + 1#8
      readState := .readSpace } := by
  have hb' : r.bitIndex ≠ 128#8 := by
    intro h0; rw [h0] at hb; exact absurd hb (by decide)
  have ha : appendBit b r = .ok { r with
      buf := setBufBit r.buf r.bitIndex.toNat b, bitIndex := r.bitIndex + 1#8 } := if_pos hb
  have hbit : applyBit b r = .ok { r with
      buf := setBufBit r.buf r.bitIndex.toNat b
      bitIndex := r.bitIndex + 1#8
      readState := .readSpace } := by
    rw [applyBit, ha]
  cases b
  · simp only [Bool.false_eq_true, if_false] at h
    rw [onEdge_eq_applyClass, classAt, edgeClass_eq, if_neg hb', if_neg (by omega), hp,
      classify_readMark, if_pos h]
    exact hbit
  · simp only [if_true] at h
    rw [onEdge_eq_applyClass, classAt, edgeClass_eq, if_neg hb', if_neg (by omega), hp,
      classify_readMark, if_neg (by omega), if_pos h]
    exact hbit

theorem onEdge_timeoutMark {r : Receiver} {e : Time} (hp : r.readState = .readMark)
    (hb : r.bitIndex ≠ 128#8) (ht : r.timeoutCount ≠ 3#2) (h : 29800 ≤ e.toNat ∧ e.toNat ≤ 31000) :
    onEdge Config.params e r = .ok { r with
      timeoutCount := r.timeoutCount + 1#2, readState := .readTimeout } := by
  rw [onEdge_eq_applyClass, classAt, edgeClass_eq, if_neg hb, if_neg (by omega), hp,
    classify_readMark, if_neg (by omega), if_neg (by omega), if_pos h]
  exact if_neg ht

theorem onEdge_full {r : Receiver} (e : Time) (hb : r.bitIndex = 128#8) :
    onEdge Config.params e r = .ok { r with receiverState := .overflowed } := by
  rw [onEdge_eq_applyClass, classAt, edgeClass_eq, if_pos hb]
  rfl

theorem runEdges_cons {r r' : Receiver} {d : Time} {ds : List Time}
    (h : r.receiverState = .running)
    (he : onEdge Config.params d
      { r with lastEdgeTime := r.lastEdgeTime + d, prevLevel := !r.prevLevel } = .ok r') :
    runEdges Config.params (d :: ds) r = runEdges Config.params ds r' := by
  simp only [runEdges, edgeTick_running h, he]

theorem ne_full {n : BitIndex} (h : n.toNat < 128) : n ≠ 128#8 := by
  intro h0; rw [h0] at h; exact absurd h (by decide)

/-! ### Bits and halves -/

/-- The durations of a list of bits, each within its window, append the bits in order. -/
theorem runEdges_bits (bs : List Bool) (ds : List Time) (r : Receiver)
    (hw : within ds (bs.flatMap bitWindows)) (hr : r.receiverState = .running)
    (hp : r.readState = .readSpace)
    (hb : r.bitIndex.toNat + bs.length ≤ 128) :
    runEdges Config.params ds r = .ok { r with
      buf := appendBits r.buf r.bitIndex.toNat bs
      bitIndex := BitVec.ofNat 8 (r.bitIndex.toNat + bs.length)
      lastEdgeTime := timeAfter r.lastEdgeTime ds } := by
  induction bs generalizing ds r with
  | nil =>
    simp only [List.flatMap_nil, within, List.forall₂_nil_right_iff] at hw
    subst hw
    simp [runEdges, appendBits]
  | cons b bs ih =>
    simp only [List.flatMap_cons, bitWindows, List.cons_append, List.nil_append, within] at hw
    obtain ⟨d1, ds1, h1, hw1, rfl⟩ := List.forall₂_cons_right_iff.mp hw
    obtain ⟨d2, ds2, h2, hw2, rfl⟩ := List.forall₂_cons_right_iff.mp hw1
    simp only [List.length_cons] at hb
    have hlt : r.bitIndex.toNat < 128 := by omega
    rw [runEdges_cons hr (onEdge_readSpace (by exact hp) (by exact ne_full hlt) h1)]
    rw [runEdges_cons (by exact hr) (onEdge_bit b rfl (by exact hlt) h2)]
    have hs : (r.bitIndex + 1#8).toNat = r.bitIndex.toNat + 1 := bitIndex_succ hlt
    rw [ih ds2 _ hw2 (by exact hr) rfl (by simp only [hs]; omega)]
    simp only [hs, Bool.not_not, timeAfter_cons, appendBits, List.length_cons]
    have hn : r.bitIndex.toNat + 1 + bs.length = r.bitIndex.toNat + (bs.length + 1) := by omega
    rw [hn, hp]

/-- The durations of a half, each within its window, from the start of a half. -/
theorem runEdges_half (bs : List Bool) (ds : List Time) (r : Receiver)
    (hw : within ds (halfWindows bs)) (hr : r.receiverState = .running)
    (hp : r.readState = .none ∨ (r.readState = .readTimeout ∧ r.timeoutCount = 1#2))
    (hpos : 0 < bs.length) (hb : r.bitIndex.toNat + bs.length ≤ 128) :
    runEdges Config.params ds r = .ok { r with
      readState := .readSpace
      buf := appendBits r.buf r.bitIndex.toNat bs
      bitIndex := BitVec.ofNat 8 (r.bitIndex.toNat + bs.length)
      lastEdgeTime := timeAfter r.lastEdgeTime ds } := by
  unfold within halfWindows at hw
  obtain ⟨d1, ds1, h1, hw1, rfl⟩ := List.forall₂_cons_right_iff.mp hw
  obtain ⟨d2, ds2, h2, hw2, rfl⟩ := List.forall₂_cons_right_iff.mp hw1
  have hlt : r.bitIndex.toNat < 128 := by omega
  rw [runEdges_cons hr (onEdge_none (by exact hp) (by exact ne_full hlt) h1)]
  rw [runEdges_cons (by exact hr) (onEdge_readStart rfl (by exact ne_full hlt) h2)]
  rw [runEdges_bits bs ds2 _ hw2 (by exact hr) rfl (by exact hb)]
  simp only [Bool.not_not, timeAfter_cons]

/-! ### The nominal durations lie in the windows -/

theorem within_append {ds es : List Time} {ws vs : List (Nat × Nat)} (h1 : within ds ws)
    (h2 : within es vs) : within (ds ++ es) (ws ++ vs) := by
  unfold within at *
  induction h1 with
  | nil => exact h2
  | cons h _ ih => exact List.Forall₂.cons h ih

theorem within_bitDurations (bs : List Bool) :
    within (bs.flatMap (bitDurations Config.params)) (bs.flatMap bitWindows) := by
  induction bs with
  | nil => exact List.Forall₂.nil
  | cons b bs ih =>
    simp only [List.flatMap_cons]
    refine within_append ?_ ih
    cases b <;> exact List.Forall₂.cons (by decide) (List.Forall₂.cons (by decide) List.Forall₂.nil)

theorem within_halfDurations (m : Half) :
    within (halfDurations Config.params m) (halfWindows (msgBits m)) :=
  List.Forall₂.cons (by decide) (List.Forall₂.cons (by decide) (within_bitDurations _))

end Sys2Proof.Machine
end

