-- ==== Sys2Proof/Laws/Shape.lean ====
section
/-!
SUPPORT. What an instruction of each agent can do to the whole state, so that a statement over all
instructions needs no case for each (spec/20_memory.md R51, spec/60_exceptions.md R213).
-/
namespace Sys2Proof.Machine

/-! ### The receiver -/

/-- A receiver instruction that answers a next state wrote the receiver only. -/
theorem rx_next {s t : State} {res} (h : onReceiver s res = .next t) : res = .ok t.rx ∧ t
    = {s with rx := t.rx} := by
  obtain ⟨r, h1, h2⟩ := onReceiver_next.mp h
  subst h2; exact ⟨h1, rfl⟩

/-- In `Running` a symbol named as the class of its duration has that class's effect. -/
theorem exec_class {s : State} {e : Time} (c : EdgeClass) (hr : s.rx.receiverState = .running)
    (hc : classAt Config.params e s.rx = c) : exec (symbolInstr e c) s = onReceiver s
        (applyClass Config.params c s.rx) := by
  rw [exec_symbolInstr, if_pos hr, onEdge_eq_applyClass, hc]

/-- No edge writes the previous sample or the last edge time; the tick did. -/
theorem onEdge_keeps_time (e : Time) (r r' : Receiver) (h : onEdge Config.params e r = .ok r') :
    r'.prevLevel = r.prevLevel ∧ r'.lastEdgeTime = r.lastEdgeTime := by
  rcases onEdge_cases e r with ⟨hb, hE⟩ | ⟨hb, he, hE⟩ | ⟨hb, he, hE⟩ | ⟨hb, he, ht, hE⟩
  · rw [hE] at h; injection h with h; rw [← h]; simp
  · rw [hE] at h; injection h with h; rw [← h]; simp
  · rcases hE with ⟨hp, a, b, hE⟩ | ⟨hp, a, b, hE⟩ | ⟨hp, a, b, hE⟩ | ⟨hp, hlt, bb, hbb,
      hE⟩ | ⟨hp, ht, a, hE⟩ | ⟨hp, h1', a, b, hE⟩ | ⟨hp, hE⟩ | ⟨hcl, hE⟩ | ⟨_, _, hE⟩ <;> rw
      [hE] at h <;>
    first
      | (cases h; done)
      | (injection h with h; rw [← h]; simp)
  · rw [hE] at h; cases h

/-- An edge leaves the receiver in `Running` or in a terminal state. -/
theorem onEdge_life (e : Time) (r r' : Receiver) (hr : r.receiverState = .running)
    (h : onEdge Config.params e r = .ok r') :
   r'.receiverState = .running ∨ r'.receiverState = .overflowed ∨ r'.receiverState
       = .timedOut ∨ r'.receiverState = .stopped := by
  rcases onEdge_cases e r with ⟨hb, hE⟩ | ⟨hb, he, hE⟩ | ⟨hb, he, hE⟩ | ⟨hb, he, ht, hE⟩
  · rw [hE] at h; injection h with h; rw [← h]; simp [raise]
  · rw [hE] at h; injection h with h; rw [← h]; simp [raise]
  · rcases hE with ⟨hp, a, b, hE⟩ | ⟨hp, a, b, hE⟩ | ⟨hp, a, b, hE⟩ | ⟨hp, hlt, bb, hbb,
      hE⟩ | ⟨hp, ht, a, hE⟩ | ⟨hp, h1', a, b, hE⟩ | ⟨hp, hE⟩ | ⟨hcl, hE⟩ | ⟨_, _, hE⟩ <;> rw
      [hE] at h <;>
    first
      | (cases h; done)
      | (injection h with h; rw [← h]; simp [raise, hr])
  · rw [hE] at h; cases h

/-- Every receiver instruction is a function of the receiver, lifted. -/
theorem exec_onReceiver (i : Instr) (hi : i.onReceiver = true) : ∃ f : Receiver
    → Except Fault Receiver, ∀ s, exec i s = onReceiver s (f s.rx) := by
  cases i <;> simp [Instr.onReceiver, Instr.side] at hi
  case rxNop => exact ⟨fun r => .ok r, fun s => rfl⟩
  case rxReset => exact ⟨fun r => .ok (softReset r), fun s => rfl⟩
  case rxInit => exact ⟨fun r => .ok (softReset r), fun s => rfl⟩
  all_goals exact ⟨_, fun s => rfl⟩

/-- In a terminal state no sequence of ticks changes anything (R91). -/
theorem runTicks_terminal (ts : List (Bool × Time)) (s : State) (h : s.rx.terminal = true) :
    runTicks ts s = .next s := by
  induction ts with
  | nil => rfl
  | cons x ts ih =>
    obtain ⟨l, n⟩ := x
    have : exec (.rxTick l n) s = .next s := by
      show onReceiver s (tick Config.params l n s.rx) = _
      rw [tick_terminal h]; rfl
    simp only [runTicks, this, ih]

/-- In a terminal state a frame pattern changes nothing (R91). -/
theorem exec_pattern_terminal (i : Instr) (hi : i.side = .pattern) (s t : State)
    (ht : s.rx.terminal = true) (h : exec i s = .next t) : t = s := by
  have h1 : ∀ ds, runEdges Config.params ds s.rx = .ok s.rx := runEdges_terminal ht
  have h2 : ∀ m, receiveHalf Config.params m s.rx = .ok s.rx := fun m => h1 _
  have h3 : ∀ a b, receiveFrame Config.params a b s.rx = .ok s.rx := by
    intro a b; unfold receiveFrame; rw [tick_terminal ht]; exact h1 _
  cases i <;> simp [Instr.side] at hi <;>
    simp [exec, execHdrHalf, execCmdHalf, execCmdOnoff, execCmdFan, execFrame, h2, h3,
        onReceiver] at h <;> exact h.symm

/-! ### Kinds of instructions -/

theorem symbol_cases (i : Instr) (hi : i.side = .symbol) : ∃ c e, i = symbolInstr e c := by
  cases i <;> simp [Instr.side] at hi
  · exact ⟨.longSpace, _, rfl⟩
  · exact ⟨.startMark, _, rfl⟩
  · exact ⟨.bitSpace, _, rfl⟩
  · exact ⟨.zeroMark, _, rfl⟩
  · exact ⟨.oneMark, _, rfl⟩
  · exact ⟨.timeoutMark, _, rfl⟩
  · exact ⟨.ceiling, _, rfl⟩
  · exact ⟨.invalid, _, rfl⟩
  · exact ⟨.overflowEdge, _, rfl⟩
  · exact ⟨.done, _, rfl⟩

theorem segment_cases (i : Instr) (hi : i.side = .segment) : ∃ k, i = segInstr k := by
  cases i <;> simp [Instr.side] at hi
  · exact ⟨.syncMark, rfl⟩
  · exact ⟨.syncSpace, rfl⟩
  · exact ⟨.bitMark, rfl⟩
  · exact ⟨.zeroSpace, rfl⟩
  · exact ⟨.oneSpace, rfl⟩
  · exact ⟨.stopMark, rfl⟩
  · exact ⟨.stopSpace, rfl⟩
  · exact ⟨.halfGap, rfl⟩
  · exact ⟨.cmdGap, rfl⟩

theorem side_cases (i : Instr) : i.onReceiver = true ∨ i.onSender = true ∨ i.side = .query := by
  cases i <;> simp [Instr.onReceiver, Instr.onSender, Instr.side]

/-! ### The sender and the queries -/

/-- A segment that answers a next state was due. -/
theorem segInstr_next {k : SegKind} {s t : State} (h : exec (segInstr k) s
    = .next t) : dueSegment s.tx = some k ∧ t = emitted k s := by
  rw [exec_segInstr] at h
  split at h
  · injection h with h; exact ⟨‹_›, h.symm⟩
  · cases h

/-- A sender instruction writes the sender, the line and the note,
    and does not read the receiver. -/
theorem exec_onSender (i : Instr) (hi : i.onSender = true) (s t : State) (h : exec i s = .next t) :
    ∃ tx w n, t = { s with tx := tx, wave := w, host := { s.host with turnedAway := n } } ∧
      ∀ r, exec i { s with rx := r } = .next { t with rx := r } := by
  by_cases hseg : i.side = .segment
  · obtain ⟨k, rfl⟩ := segment_cases i hseg
    obtain ⟨h1, rfl⟩ := segInstr_next h
    refine ⟨_, _, s.host.turnedAway, rfl, ?_⟩
    intro r
    rw [exec_segInstr, if_pos h1]; rfl
  · cases i <;> simp [Instr.onSender, Instr.side] at hi hseg
    · cases h; exact ⟨_, _, s.host.turnedAway, rfl, fun r => rfl⟩
    · rename_i body
      simp only [exec, execTxSend] at h
      split at h <;> injection h with h <;> subst h
      · refine ⟨s.tx, s.wave, _, rfl, ?_⟩
        intro r; simp [exec, execTxSend, turnAway, *]
      · refine ⟨_, s.wave, s.host.turnedAway, rfl, ?_⟩
        intro r; simp [exec, execTxSend, *]
    · simp only [exec, execTxConstruct] at h
      split at h <;> injection h with h <;> subst h
      · refine ⟨s.tx, s.wave, _, rfl, ?_⟩
        intro r; simp [exec, execTxConstruct, turnAway, *]
      · refine ⟨_, s.wave, s.host.turnedAway, rfl, ?_⟩
        intro r; simp [exec, execTxConstruct, *]
    · cases h; exact ⟨s.tx, s.wave, _, rfl, fun r => rfl⟩

/-- A query writes the note of what was read. -/
theorem query_next (i : Instr) (hi : i.side = .query) (s t : State) (h : exec i s
    = .next t) : ∃ v, t = noteReading v s := by
  cases i <;> simp [Instr.side] at hi
  all_goals
    simp only [exec, execRxHasdata, execRxIserror, execRxDecode] at h
    injection h with h
    exact ⟨_, h.symm⟩

theorem rx_of_not_receiver (i : Instr) (hi : i.onReceiver = false) (s t : State) (h : exec i s
    = .next t) : t.rx = s.rx := by
  rcases side_cases i with h1 | h1 | h1
  · rw [hi] at h1; cases h1
  · obtain ⟨_, _, _, rfl, _⟩ := exec_onSender i h1 s t h; rfl
  · obtain ⟨v, rfl⟩ := query_next i h1 s t h; rfl

end Sys2Proof.Machine
end

