-- ==== Sys2Proof/Laws/FrameRun.lean ====
section
/-!
SUPPORT. A whole frame on the receiver's line (spec/42_rx_frame_assembler.md R140), as edges and as
ticks.
-/
namespace Sys2Proof.Machine

/-- Ticks that show one edge each are those edges (R76). -/
theorem runTicks_edges (ds : List Time) (s : State) (hrun : s.rx.receiverState = .running) :
   runTicks (edgeTicks (!s.rx.prevLevel) s.rx.lastEdgeTime ds) s = onReceiver s
       (runEdges Config.params ds s.rx) := by
  induction ds generalizing s with
  | nil => rfl
  | cons d ds ih =>
    simp only [edgeTicks, runTicks]
    have hx : exec (.rxTick (!s.rx.prevLevel) (s.rx.lastEdgeTime + d)) s = onReceiver s
        (edgeTick Config.params d s.rx) := by rw [edgeTick, if_pos hrun]; rfl
    rw [hx]
    cases he : edgeTick Config.params d s.rx with
    | error f => simp [onReceiver, runEdges, he]
    | ok r' =>
      simp only [onReceiver]
      have he2 := he
      rw [edgeTick_running hrun] at he2
      have hl := onEdge_life _ _ _ (by exact hrun) he2
      have hk := onEdge_keeps_time _ _ _ he2
      by_cases hr' : r'.receiverState = .running
      · have := ih { s with rx := r' } hr'
        simp only [hk.1, hk.2] at this
        rw [this]
        simp only [runEdges, he]
        rfl
      · have ht : r'.terminal = true := by
          rcases hl with h | h | h | h
          · exact absurd h hr'
          all_goals simp [Receiver.terminal, h]
        rw [runTicks_terminal _ _ (by exact ht)]
        simp only [runEdges, he, runEdges_terminal ht]

theorem msgBits_length (m : Half) : (msgBits m).length = 64 := by simp [msgBits]

theorem within_split {ds : List Time} {ws vs : List (Nat × Nat)} (h : within ds
    (ws ++ vs)) : ∃ d1 d2, ds = d1 ++ d2 ∧ within d1 ws ∧ within d2 vs :=
  ⟨_, _, (List.take_append_drop ws.length ds).symm, List.forall₂_take_append _ _ _ h,
      List.forall₂_drop_append _ _ _ h⟩

theorem forall2_one {ds : List Time} {w : Nat × Nat} (h : within ds [w]) : ∃ d, ds = [d]
    ∧ w.1 ≤ d.toNat ∧ d.toNat ≤ w.2 := by
  obtain ⟨d1, ds1, h1, hw1, rfl⟩ := List.forall₂_cons_right_iff.mp h
  cases hw1
  exact ⟨d1, rfl, h1⟩

theorem forall2_two {ds : List Time} {w v : Nat × Nat} (h : within ds [w, v]) : ∃ d e, ds = [d,
    e] ∧ (w.1 ≤ d.toNat ∧ d.toNat ≤ w.2) ∧ (v.1 ≤ e.toNat ∧ e.toNat ≤ v.2) := by
  obtain ⟨d1, ds1, h1, hw1, rfl⟩ := List.forall₂_cons_right_iff.mp h
  obtain ⟨d2, rfl, h2⟩ := forall2_one hw1
  exact ⟨d1, d2, rfl, h1, h2⟩

/-- Appending the bits of a frame to an empty buffer makes the frame. -/
theorem appendBits_all (F : Frame) : appendBits (appendBits 0#128 0 ((List.range 64).map
    (bufBit F))) 64 ((List.range 64).map (fun i => bufBit F (64 + i))) = F := by
  apply buf_ext
  intro i hi
  rw [bufBit_appendBits _ _ _ _ (by simp) hi]
  by_cases h : 64 ≤ i
  · rw [dif_pos (by simp; omega)]
    simp [show 64 + (i - 64) = i by omega]
  · rw [dif_neg (by simp; omega), bufBit_appendBits _ _ _ _ (by simp) hi, dif_pos (by simp; omega)]
    simp

/-- The 263 edges of a frame, each within its window, from the start of a frame. -/
theorem runEdges_frame (F : Frame) (ds : List Time) (r : Receiver) (hw : within ds (frameWindows F))
   (hr : r.receiverState = .running) (hp : r.readState = .none) (hbuf : r.buf = 0#128)
       (hb : r.bitIndex = 0#8) (ht : r.timeoutCount = 0#2) :
   runEdges Config.params ds r = .ok
      { receiverState := .overflowed
        readState := .readSpace
        buf := F
        bitIndex := 128#8
        timeoutCount := 1#2
        prevLevel := !r.prevLevel
        lastEdgeTime := timeAfter r.lastEdgeTime ds } := by
  unfold frameWindows at hw
  obtain ⟨da, d4, rfl, hw, h4⟩ := within_split hw
  obtain ⟨db, d3, rfl, hw, h3⟩ := within_split hw
  obtain ⟨d1, d2, rfl, h1, h2⟩ := within_split hw
  obtain ⟨dc, rfl, hc⟩ := forall2_one h4
  obtain ⟨dx, dy, rfl, hx, hy⟩ := forall2_two h2
  obtain ⟨rs, rd, buf, bi, tc, pl, le⟩ := r
  simp only at hr hp hbuf hb ht
  subst hr hp hbuf hb ht
  have l1 : ((List.range 64).map (bufBit F)).length = 64 := by simp
  have l2 : ((List.range 64).map (fun i => bufBit F (64 + i))).length = 64 := by simp
  have z : (0#8).toNat = 0 := rfl
  rw [runEdges_append, runEdges_append, runEdges_append]
  rw [runEdges_half _ d1 _ h1 rfl (.inl rfl) (by rw [l1]; decide)
      (by rw [l1]; exact (by decide : 0 + 64 ≤ 128))]
  simp only [l1, z]
  rw [runEdges_cons rfl (onEdge_readSpace rfl (by simp) hx)]
  rw [runEdges_cons rfl (onEdge_timeoutMark rfl (by simp) (by simp) hy)]
  simp only [runEdges]
  rw [runEdges_half _ d3 _ h3 rfl (.inr ⟨rfl, by simp⟩) (by rw [l2]; decide)
      (by rw [l2]; exact (by decide : 64 + 64 ≤ 128))]
  simp only [l2]
  rw [edgeTick_running rfl, onEdge_full _ (by simp)]
  have h64 : (BitVec.ofNat 8 (0 + 64)).toNat = 64 := rfl
  simp only [h64, appendBits_all, timeAfter_append, timeAfter_cons, timeAfter_nil, Bool.not_not]
  rfl

/-- R174: the bits of a frame are the bits of its two halves. -/
theorem halves_bit (a b : Half) (i : Nat) (hi : i < 64) :
    bufBit (a ++ b) i = msgBit a i ∧ bufBit (a ++ b) (64 + i) = msgBit b i := by
  unfold bufBit msgBit
  rw [BitVec.getMsbD_append, BitVec.getMsbD_append]
  simp [hi]

theorem msgBits_eq (m : Half) : msgBits m = (List.range 64).map (msgBit m) := rfl

theorem frameWindows_halves (a b : Half) : frameWindows (a ++ b) =
    halfWindows (msgBits a) ++ [(235, 635), (29800, 31000)] ++ halfWindows (msgBits b)
      ++ [(235, 635)] := by
  have h : ∀ i ∈ List.range 64, bufBit (a ++ b) i = msgBit a i
      ∧ bufBit (a ++ b) (64 + i) = msgBit b i := by
    intro i hi
    exact halves_bit a b i (by simpa using hi)
  rw [msgBits_eq, msgBits_eq]
  unfold frameWindows
  rw [List.map_congr_left (fun i hi => (h i hi).1), List.map_congr_left (fun i hi => (h i hi).2)]

/-- The nominal durations of a frame lie in its windows. -/
theorem within_frameDurations (a b : Half) : within (frameDurations Config.params a b)
    (frameWindows (a ++ b)) := by
  rw [frameWindows_halves]
  refine within_append (within_append (within_append (within_halfDurations _) ?_)
      (within_halfDurations _)) ?_
  · exact List.Forall₂.cons (by decide) (List.Forall₂.cons (by decide) List.Forall₂.nil)
  · exact List.Forall₂.cons (by decide) List.Forall₂.nil

/-- The bits of a half appended at a bit index: those 64 bits, and every other bit as it was. -/
theorem bufBit_appendHalf (m : Half) (buf : Frame) (i : Nat) (hi : i + 64 ≤ 128) :
    (∀ j, j < 64 → bufBit (appendBits buf i (msgBits m)) (i + j) = m.getMsbD j)
    ∧ ∀ j, j < 128 → j < i ∨ i + 64 ≤ j →
      bufBit (appendBits buf i (msgBits m)) j = bufBit buf j := by
  constructor
  · intro j hj
    rw [bufBit_appendBits _ _ _ _ (by rw [msgBits_length]; exact hi) (by omega),
      dif_pos (by rw [msgBits_length]; omega)]
    simp [msgBits, msgBit]
  · intro j hj ho
    rw [bufBit_appendBits _ _ _ _ (by rw [msgBits_length]; exact hi) (by omega),
      dif_neg (by rw [msgBits_length]; omega)]

/-- R76: any half, received at the start of a half with room for it. -/
theorem receiveHalf_start (m : Half) (r : Receiver) (hr : r.receiverState = .running)
    (hp : r.readState = .none ∨ (r.readState = .readTimeout ∧ r.timeoutCount = 1#2))
    (hb : r.bitIndex.toNat + 64 ≤ 128) :
    receiveHalf Config.params m r = .ok { r with
      readState := .readSpace
      buf := appendBits r.buf r.bitIndex.toNat (msgBits m)
      bitIndex := BitVec.ofNat 8 (r.bitIndex.toNat + 64)
      lastEdgeTime := timeAfter r.lastEdgeTime (halfDurations Config.params m) } := by
  have h := runEdges_half (msgBits m) _ r (within_halfDurations m) hr hp
    (by rw [msgBits_length]; decide) (by rw [msgBits_length]; exact hb)
  rw [msgBits_length] at h
  exact h

/-- R76: a frame of any two halves, received from the state a reset leaves. -/
theorem receiveFrame_idle (a b : Half) (r : Receiver) (hr : r.receiverState = .idle)
    (hp : r.readState = .none) (hbuf : r.buf = 0#128) (hb : r.bitIndex = 0#8)
    (ht : r.timeoutCount = 0#2) :
    receiveFrame Config.params a b r = .ok
      { receiverState := .overflowed
        readState := .readSpace
        buf := a ++ b
        bitIndex := 128#8
        timeoutCount := 1#2
        prevLevel := !Config.params.rxActiveLevel
        lastEdgeTime := timeAfter 0#32 (frameDurations Config.params a b) } := by
  unfold receiveFrame
  simp only [tick, hr, if_true]
  exact runEdges_frame _ _ _ (within_frameDurations a b) rfl hp hbuf hb ht

/-! ### How long a frame takes -/

theorem timeAfter_bits (bs : List Bool) (t : Nat) :
    timeAfter (micros t) (bs.flatMap (bitDurations Config.params))
      = micros (t + 870 * bs.length + 860 * bs.count true) := by
  induction bs generalizing t with
  | nil => simp
  | cons b bs ih =>
    have h : micros t + micros 435 + micros (if b then 1295 else 435)
        = micros (t + 870 + if b then 860 else 0) := by
      cases b <;> simp only [micros, ← BitVec.ofNat_add] <;> congr 1
    rw [List.flatMap_cons, timeAfter_append]
    show timeAfter (micros t + micros 435 + micros (if b then 1295 else 435)) _ = _
    rw [h, ih]
    refine congrArg micros ?_
    cases b <;> simp <;> omega

theorem micros_add (t d : Nat) : micros t + micros d = micros (t + d) :=
  (BitVec.ofNat_add t d).symm

theorem timeAfter_half (m : Half) (t : Nat) :
    timeAfter (micros t) (halfDurations Config.params m)
      = micros (t + 60940 + 860 * (msgBits m).count true) := by
  have h1 : Config.params.tLongSpace = 3500 := rfl
  have h2 : Config.params.tStartMark = 1760 := rfl
  have e : ∀ c, t + 3500 + 1760 + 870 * 64 + c = t + 60940 + c := by omega
  have h : timeAfter (micros t) (halfDurations Config.params m)
      = micros (t + 3500 + 1760 + 870 * 64 + 860 * (msgBits m).count true) := by
    rw [halfDurations, timeAfter_cons, timeAfter_cons, h1, h2, micros_add, micros_add,
      timeAfter_bits, msgBits_length]
  exact h.trans (congrArg micros (e _))

/-- R250: the time of a frame's last edge after its start at 0. -/
theorem timeAfter_frame (a b : Half) :
    timeAfter 0#32 (frameDurations Config.params a b)
      = micros (152750 + 860 * ((msgBits a).count true + (msgBits b).count true)) := by
  have h3 : Config.params.tBitSpace = 435 := rfl
  have h4 : Config.params.tTimeoutMark = 30000 := rfl
  have e : ∀ c d, 0 + 60940 + 860 * c + 435 + 30000 + 60940 + 860 * d + 435
      = 152750 + 860 * (c + d) := by omega
  have two : ∀ t x y, timeAfter (micros t) [micros x, micros y] = micros (t + x + y) := by
    intro t x y; rw [timeAfter_cons, timeAfter_cons, timeAfter_nil, micros_add, micros_add]
  have one : ∀ t x, timeAfter (micros t) [micros x] = micros (t + x) := by
    intro t x; rw [timeAfter_cons, timeAfter_nil, micros_add]
  have h : timeAfter 0#32 (frameDurations Config.params a b) = micros (0 + 60940
      + 860 * (msgBits a).count true + 435 + 30000 + 60940 + 860 * (msgBits b).count true + 435) := by
    rw [frameDurations, timeAfter_append, timeAfter_append, timeAfter_append, h3, h4,
      show (0#32 : Time) = micros 0 from rfl, timeAfter_half, two, timeAfter_half, one]
  exact h.trans (congrArg micros (e _ _))

end Sys2Proof.Machine
end

