-- ==== Sys2Proof/Laws/Invariant.lean ====
section
/-!
SUPPORT. The invariants of R27 under each operation: an edge, a tick, a sequence of edges, a reset,
a driver step. Under them none of the faults is raised.
-/
namespace Sys2Proof.Machine

theorem onEdge_inv {r : Receiver} (hi : r.Inv) (hr : r.receiverState = .running) (e : Time) :
   ∃ r', onEdge Config.params e r = .ok r' ∧ r'.Inv := by
  obtain ⟨i1, i2, i3a, i3b, i4, i5, i6, i7, i8, i9, i10⟩ := hi
  have hlt : r.bitIndex ≠ 128#8 → r.bitIndex.toNat < 128 := by
    intro h; have : r.bitIndex.toNat ≠ 128 := fun h2 => h (BitVec.eq_of_toNat_eq
        (by simpa using h2)); omega
  have hne : r.readState ≠ .error := fun h => by have := i3a h; rw [hr] at this; cases this
  have ht3 : r.timeoutCount ≠ 3#2 := by intro h; rw [h] at i2; simp at i2
  rcases onEdge_cases e r with ⟨hb, hE⟩ | ⟨hb, he, hE⟩ | ⟨hb, he, hE⟩ | ⟨hb, he, ht, hE⟩
  · refine ⟨_, hE, ?_⟩; constructor <;> simp_all
  · refine ⟨_, hE, ?_⟩; constructor <;> simp_all
  · rcases hE with ⟨hp, a, b, hE⟩ | ⟨hp, a, b, hE⟩ | ⟨hp, a, b, hE⟩ | ⟨hp, hlt, bb, hbb,
      hE⟩ | ⟨hp, ht, a, hE⟩ | ⟨hp, h1', a, b, hE⟩ | ⟨hp, hE⟩ | ⟨hcl, hE⟩ | ⟨hp, hgt, hE⟩
    · refine ⟨_, hE, ?_⟩; constructor <;> simp_all
    · refine ⟨_, hE, ?_⟩; constructor <;> simp_all
    · refine ⟨_, hE, ?_⟩; constructor <;> simp_all
    · refine ⟨_, hE, ?_⟩
      have hs := bitIndex_succ hlt
      constructor <;> simp only [hs] <;> try simp_all
      · intro i h1 h2
        rw [bufBit_setBufBit _ _ _ _ hlt h2, if_neg (by omega)]
        exact i9 i (by omega) h2
    · refine ⟨_, hE, ?_⟩
      have : r.timeoutCount = 0#2 ∨ r.timeoutCount = 1#2 := by
        have h2 : r.timeoutCount ≠ 2#2 := by intro h; have := i10 h; rw [hp] at this; simp at this
        revert i2 h2 ht3; generalize r.timeoutCount = c; revert c; decide
      constructor <;> simp_all <;> (rcases this with h | h <;> simp [h])
    · refine ⟨_, hE, ?_⟩; constructor <;> simp_all
    · exact ⟨_, hE, ⟨i1, i2, i3a, i3b, i4, i5, i6, i7, i8, i9, i10⟩⟩
    · refine ⟨_, hE, ?_⟩; constructor <;> simp_all
    · omega
  · exact absurd ht ht3

theorem inv_prev {r : Receiver} (hi : r.Inv) (l : Bool) (n : Time) : Receiver.Inv
    { r with lastEdgeTime := n, prevLevel := l } := by
  obtain ⟨i1, i2, i3a, i3b, i4, i5, i6, i7, i8, i9, i10⟩ := hi
  exact ⟨i1, i2, i3a, i3b, i4, i5, i6, i7, i8, i9, i10⟩

theorem tick_inv {r : Receiver} (hi : r.Inv) (l : Bool) (n : Time) :
   ∃ r', tick Config.params l n r = .ok r' ∧ r'.Inv := by
  rcases tick_cases l n r with ⟨a, b⟩ | ⟨a, b, c⟩ | ⟨a, b, c⟩ | ⟨a, b, c⟩ | ⟨a, b, c⟩
  · exact ⟨_, b, hi⟩
  · refine ⟨_, c, ?_⟩
    obtain ⟨i1, i2, i3a, i3b, i4, i5, i6, i7, i8, i9, i10⟩ := hi
    obtain ⟨p1, p2, p3, p4⟩ := i4 a
    constructor <;> simp_all
  · exact ⟨_, c, hi⟩
  · exact ⟨_, c, hi⟩
  · rw [c]; exact onEdge_inv (inv_prev hi l n) a _

theorem runEdges_inv (ds : List Time) {r : Receiver} (hi : r.Inv) : ∃ r',
    runEdges Config.params ds r = .ok r' ∧ r'.Inv := by
  induction ds generalizing r with
  | nil => exact ⟨r, rfl, hi⟩
  | cons d ds ih =>
    obtain ⟨r1, h1, h2⟩ : ∃ r1, edgeTick Config.params d r = .ok r1 ∧ r1.Inv := by
      unfold edgeTick
      split
      · exact tick_inv hi _ _
      · exact ⟨r, rfl, hi⟩
    obtain ⟨r2, h3, h4⟩ := ih h2
    refine ⟨r2, ?_, h4⟩
    simp only [runEdges, h1, h3]

theorem receiveFrame_inv (first second : Half) {r : Receiver} (hi : r.Inv) : ∃ r',
    receiveFrame Config.params first second r = .ok r' ∧ r'.Inv := by
  obtain ⟨r1, h1, h2⟩ := tick_inv hi Config.params.rxActiveLevel 0#32
  obtain ⟨r2, h3, h4⟩ := runEdges_inv (frameDurations Config.params first second) h2
  exact ⟨r2, by simp only [receiveFrame, h1, h3], h4⟩

/-- Everything a word without a row can do, under the invariants: the receiver takes it, or the sender's
driver has no such step. -/
theorem takeUnlisted_inv (why : Reject) (bits : Nat) {s : State} (hi : s.rx.Inv) :
    (∃ r, takeUnlisted why bits s = .next { s with rx := r } ∧ r.Inv)
    ∨ takeUnlisted why bits s = .refused .segmentNotDue := by
  cases why with
  | unknownHalf =>
    obtain ⟨r, h1, h2⟩ := runEdges_inv (halfDurations Config.params (fieldOf bits 0 64)) hi
    exact .inl ⟨r, by simp only [takeUnlisted, receiveHalf, h1]; rfl, h2⟩
  | unknownFrame =>
    obtain ⟨r, h1, h2⟩ := receiveFrame_inv (fieldOf bits 64 64) (fieldOf bits 0 64) hi
    exact .inl ⟨r, by simp only [takeUnlisted, h1]; rfl, h2⟩
  | noSegmentDue => exact .inr rfl
  | notTheDueSegment => exact .inr rfl

theorem softReset_inv (r : Receiver) : (softReset r).Inv := by
  constructor <;> simp [bufBit_zero]

theorem emitted_inv {k : SegKind} {s : State} (hi : s.tx.Inv) (hk : dueSegment s.tx = some k) :
    (emitted k s).tx.Inv := by
  obtain ⟨b, g, l, sd⟩ := hi
  show (advance (driveLine (segmentOf Config.params k) s.tx)).Inv
  have hb : s.tx.busy = true := by
    rw [b]; intro h; simp [dueSegment, h] at hk
  obtain ⟨s1, s2, s3⟩ := sd hb
  have gap : s.tx.phase = .cmdGap → k = .cmdGap := by
    intro h; simp [dueSegment, h] at hk; exact hk.2.symm
  unfold advance
  simp only [driveLine_phase, driveLine_seg]
  cases hp : s.tx.phase <;> simp only
  · simp [dueSegment, hp] at hk
  · split <;> constructor <;> simp [hb, s1, s2, s3]
  · constructor <;> simp [hb, s1, s2, s3]
  · split <;> constructor <;> simp [hb, s1, s2, s3]
  · have := gap hp; subst this
    constructor <;> simp [driveLine, segmentOf, Params.tCmdGap, Level.line]

end Sys2Proof.Machine
end

