-- ==== Sys2Proof/Laws/PerInstr.lean ====
section
/-!
SUPPORT. Per-instruction family `FitsPort`: the word of every instruction is on a port of the agent
whose step the instruction is, and fits that port (spec/30_encoding.md R60, R61, R63, R68, R69, R70).
The driver's port is as wide as the open `T_CMD_GAP` needs.
-/
namespace Sys2Proof.Laws

/-- The ports an agent's words come on. -/
def portsOf : Side → List Port
  | .receiverOp => [.rx]
  | .symbol => [.symbol]
  | .pattern => [.half, .frame]
  | .senderOp => [.tx]
  | .segment => [.driver]
  | .query => [.hasData, .isError, .decoded]

/-- Whether a word fits its port. -/
def fits (w : PortWord) : Prop :=
  match w.port with
  | .rx => w.bits < 2 ^ 35
  | .tx => w.bits < 2 ^ 26
  | .hasData => w.bits = 0
  | .isError => w.bits = 0
  | .decoded => w.bits = 0
  | .symbol => w.bits < 2 ^ 32
  | .driver => True
  | .half => w.bits < 2 ^ 64
  | .frame => w.bits < 2 ^ 128

/-- The family's statement. -/
def FitsPort.Statement (i : Instr) : Prop :=
  (encode Config.params i).port ∈ portsOf i.side ∧ fits (encode Config.params i)

theorem fits_symbol (e : Time) : fits ⟨.symbol, e.toNat⟩ := e.isLt

theorem FitsPort.rxNop : FitsPort.Statement .rxNop :=
  ⟨by decide, by unfold fits encode; decide⟩

theorem FitsPort.rxTick (level : Bool) (now : Time) : FitsPort.Statement (.rxTick level now) :=
  ⟨by simp [encode, portsOf, Instr.side], by
    have hl := now.isLt
    have hb := Bool.toNat_le level
    show 1 + 4 * level.toNat + 8 * now.toNat < 2 ^ 35
    omega⟩

theorem FitsPort.rxReset : FitsPort.Statement .rxReset :=
  ⟨by decide, by unfold fits encode; decide⟩

theorem FitsPort.rxInit : FitsPort.Statement .rxInit :=
  ⟨by decide, by unfold fits encode; decide⟩

theorem FitsPort.txNop : FitsPort.Statement .txNop :=
  ⟨by decide, by unfold fits encode; decide⟩

theorem FitsPort.txSend (body : Body) : FitsPort.Statement (.txSend body) :=
  ⟨by simp [encode, portsOf, Instr.side], by
    have hl := body.isLt
    show 1 + 4 * body.toNat < 2 ^ 26
    omega⟩

theorem FitsPort.txConstruct : FitsPort.Statement .txConstruct :=
  ⟨by decide, by unfold fits encode; decide⟩

theorem FitsPort.txReserved : FitsPort.Statement .txReserved :=
  ⟨by decide, by unfold fits encode; decide⟩

theorem FitsPort.rxHasdata : FitsPort.Statement .rxHasdata :=
  ⟨by decide, by unfold fits encode; decide⟩

theorem FitsPort.rxIserror : FitsPort.Statement .rxIserror :=
  ⟨by decide, by unfold fits encode; decide⟩

theorem FitsPort.rxDecode : FitsPort.Statement .rxDecode :=
  ⟨by decide, by unfold fits encode; decide⟩

theorem FitsPort.longSpace (e : Time) : FitsPort.Statement (.longSpace e) :=
  ⟨by simp [encode, portsOf, Instr.side], fits_symbol e⟩

theorem FitsPort.startMark (e : Time) : FitsPort.Statement (.startMark e) :=
  ⟨by simp [encode, portsOf, Instr.side], fits_symbol e⟩

theorem FitsPort.bitSpace (e : Time) : FitsPort.Statement (.bitSpace e) :=
  ⟨by simp [encode, portsOf, Instr.side], fits_symbol e⟩

theorem FitsPort.zeroMark (e : Time) : FitsPort.Statement (.zeroMark e) :=
  ⟨by simp [encode, portsOf, Instr.side], fits_symbol e⟩

theorem FitsPort.oneMark (e : Time) : FitsPort.Statement (.oneMark e) :=
  ⟨by simp [encode, portsOf, Instr.side], fits_symbol e⟩

theorem FitsPort.timeoutMark (e : Time) : FitsPort.Statement (.timeoutMark e) :=
  ⟨by simp [encode, portsOf, Instr.side], fits_symbol e⟩

theorem FitsPort.ceiling (e : Time) : FitsPort.Statement (.ceiling e) :=
  ⟨by simp [encode, portsOf, Instr.side], fits_symbol e⟩

theorem FitsPort.invalid (e : Time) : FitsPort.Statement (.invalid e) :=
  ⟨by simp [encode, portsOf, Instr.side], fits_symbol e⟩

theorem FitsPort.overflowEdge (e : Time) : FitsPort.Statement (.overflowEdge e) :=
  ⟨by simp [encode, portsOf, Instr.side], fits_symbol e⟩

theorem FitsPort.done (e : Time) : FitsPort.Statement (.done e) :=
  ⟨by simp [encode, portsOf, Instr.side], fits_symbol e⟩

theorem FitsPort.syncMark : FitsPort.Statement .syncMark :=
  ⟨by simp [encode, portsOf, Instr.side], trivial⟩

theorem FitsPort.syncSpace : FitsPort.Statement .syncSpace :=
  ⟨by simp [encode, portsOf, Instr.side], trivial⟩

theorem FitsPort.bitMark : FitsPort.Statement .bitMark :=
  ⟨by simp [encode, portsOf, Instr.side], trivial⟩

theorem FitsPort.zeroSpace : FitsPort.Statement .zeroSpace :=
  ⟨by simp [encode, portsOf, Instr.side], trivial⟩

theorem FitsPort.oneSpace : FitsPort.Statement .oneSpace :=
  ⟨by simp [encode, portsOf, Instr.side], trivial⟩

theorem FitsPort.stopMark : FitsPort.Statement .stopMark :=
  ⟨by simp [encode, portsOf, Instr.side], trivial⟩

theorem FitsPort.stopSpace : FitsPort.Statement .stopSpace :=
  ⟨by simp [encode, portsOf, Instr.side], trivial⟩

theorem FitsPort.halfGap : FitsPort.Statement .halfGap :=
  ⟨by simp [encode, portsOf, Instr.side], trivial⟩

theorem FitsPort.cmdGap : FitsPort.Statement .cmdGap :=
  ⟨by simp [encode, portsOf, Instr.side], trivial⟩

theorem FitsPort.hdrHalf : FitsPort.Statement .hdrHalf :=
  ⟨by decide, by unfold fits encode; decide⟩

theorem FitsPort.cmdHalf (body : Body) : FitsPort.Statement (.cmdHalf body) :=
  ⟨by simp [encode, portsOf, Instr.side], by
    have hl := body.isLt
    show 0x885BE900F1 * 2 ^ 24 + body.toNat < 2 ^ 64
    omega⟩

theorem FitsPort.cmdOnoff : FitsPort.Statement .cmdOnoff :=
  ⟨by decide, by unfold fits encode; decide⟩

theorem FitsPort.cmdFan : FitsPort.Statement .cmdFan :=
  ⟨by decide, by unfold fits encode; decide⟩

theorem FitsPort.frame (body : Body) : FitsPort.Statement (.frame body) :=
  ⟨by simp [encode, portsOf, Instr.side], by
    have hl := body.isLt
    show 0x885BE90F0000004E885BE900F1 * 2 ^ 24 + body.toNat < 2 ^ 128
    omega⟩

end Sys2Proof.Laws
end

