-- ==== Sys2Proof/Laws/Waveform.lean ====
section
/-!
SUPPORT. The waveform of a send: its segments by position, what the driver has still to emit, its
durations and the level of the line (spec/45_tx_waveform.md R181 to R187).
-/
namespace Sys2Proof.Machine

theorem pairs_get {α β : Type} (f g : α → β) (l : List α) (i : Nat) (hi : i < l.length) :
   (l.flatMap (fun b => [f b, g b]))[2 * i]? = some (f l[i]) ∧ (l.flatMap (fun b => [f b,
       g b]))[2 * i + 1]? = some (g l[i]) := by
  induction l generalizing i with
  | nil => simp at hi
  | cons b l ih =>
    simp only [List.flatMap_cons, List.cons_append, List.nil_append]
    cases i with
    | zero => simp
    | succ i =>
      simp only [List.length_cons, Nat.add_lt_add_iff_right] at hi
      have := ih i hi
      rw [show 2 * (i + 1) = 2 * i + 1 + 1 by omega, show 2 * i + 1 + 1 + 1 =
          (2 * i + 1) + 1 + 1 by omega]
      simp only [List.getElem?_cons_succ, List.getElem_cons_succ]
      exact this

theorem pairs_length {α β : Type} (f g : α → β) (l : List α) : (l.flatMap (fun b => [f b,
    g b])).length = 2 * l.length := by
  induction l with
  | nil => rfl
  | cons b l ih => simp only [List.flatMap_cons, List.length_append, ih, List.length_cons,
      List.length_nil]; omega

/-- R182. -/
theorem halfWave_length (m : Half) : (halfWave Config.params m).length = 132 := by
  unfold halfWave
  simp only [List.length_cons, List.length_append, pairs_length, msgBits_length, List.length_nil]

/-- R182, R187: the list of a half and the positions of the driver name the same segments. -/
theorem halfWave_get (m : Half) (k : Fin 132) : (halfWave Config.params m)[k.val]? = some
    (segmentOf Config.params (halfSegment m k)) := by
  unfold halfWave
  generalize hL : (msgBits m).flatMap (fun b => ([⟨.mark, Config.params.tBitMark⟩, ⟨.space,
      if b then Config.params.tOneSpace else Config.params.tZeroSpace⟩] : List Segment)) = L
  have hl : L.length = 128 := by rw [← hL, pairs_length, msgBits_length]
  by_cases h0 : k.val = 0
  · rw [h0]; simp [halfSegment, h0, segmentOf]
  by_cases h1 : k.val = 1
  · rw [h1]; simp [halfSegment, h1, segmentOf]
  by_cases h130 : k.val = 130
  · rw [h130]; simp [halfSegment, h130, segmentOf, hl]
  by_cases h131 : k.val = 131
  · rw [h131]; simp [halfSegment, h131, segmentOf, hl]
  have hk := k.isLt
  have hi : (k.val - 2) / 2 < (msgBits m).length := by rw [msgBits_length]; omega
  have hp := pairs_get (fun _ : Bool => (⟨.mark, Config.params.tBitMark⟩ : Segment))
      (fun b => ⟨.space, if b then Config.params.tOneSpace else Config.params.tZeroSpace⟩)
      (msgBits m) _ hi
  rw [hL] at hp
  have hb : (msgBits m)[(k.val - 2) / 2] = msgBit m ((k.val - 2) / 2) := by simp [msgBits]
  rw [hb] at hp
  rw [List.cons_append, List.cons_append]
  by_cases he : k.val % 2 = 0
  · rw [halfSegment_bitMark m (i := (k.val - 2) / 2) (by omega) (by omega)]
    rw [show k.val = 2 * ((k.val - 2) / 2) + 1 + 1 by omega, List.getElem?_cons_succ,
        List.getElem?_cons_succ,
      List.getElem?_append_left (by omega), hp.1]
    rfl
  · rw [halfSegment_bitSpace m (i := (k.val - 2) / 2) (by omega) (by omega)]
    rw [show k.val = 2 * ((k.val - 2) / 2) + 1 + 1 + 1 by omega, List.getElem?_cons_succ,
        List.getElem?_cons_succ,
      List.getElem?_append_left (by omega), hp.2]
    rw [show (2 * ((↑k - 2) / 2) + 1 + 1 + 1 - 2) / 2 = (k.val - 2) / 2 by omega]
    cases msgBit m ((k.val - 2) / 2) <;> rfl

theorem half_drop (m : Half) (k : Fin 132) : (halfWave Config.params m).drop k.val
    = segmentOf Config.params (halfSegment m k) :: (halfWave Config.params m).drop (k.val + 1) := by
  have h := halfWave_get m k
  have hl : k.val < (halfWave Config.params m).length := by rw [halfWave_length]; exact k.isLt
  rw [List.getElem?_eq_getElem hl] at h
  injection h with h
  rw [List.drop_eq_getElem_cons hl, h]

/-- What the driver has still to emit at a position. -/
def remaining (t : Sender) : List Segment :=
  match t.phase with
  | .rest => []
  | .hdrHalf => (halfWave Config.params t.hdrMsg).drop t.seg.val ++ (⟨.space,
      Config.params.tHalfGap⟩ :: (halfWave Config.params t.cmdMsg ++ [⟨.space,
      Config.params.tCmdGap⟩]))
  | .halfGap => ⟨.space, Config.params.tHalfGap⟩ :: (halfWave Config.params t.cmdMsg ++ [⟨.space,
      Config.params.tCmdGap⟩])
  | .cmdHalf => (halfWave Config.params t.cmdMsg).drop t.seg.val ++ [⟨.space,
      Config.params.tCmdGap⟩]
  | .cmdGap => [⟨.space, Config.params.tCmdGap⟩]

/-- A driver step emits the first of what remains, and the rest remains. -/
theorem remaining_step (t : Sender) (hb : t.busy = true) (hg : t.phase = .halfGap ∨ t.phase
    = .cmdGap → t.seg = 0) (hne : t.phase ≠ .rest) :
   ∃ k, dueSegment t = some k ∧ remaining t = segmentOf Config.params k :: remaining (advance
       (driveLine (segmentOf Config.params k) t))
     ∧ (advance (driveLine (segmentOf Config.params k) t)).carrierEn = t.carrierEn
     ∧ (((advance (driveLine (segmentOf Config.params k) t)).phase = .rest ∧ (advance (driveLine
         (segmentOf Config.params k) t)).busy = false ∧ (advance (driveLine
         (segmentOf Config.params k) t)).out = false)
        ∨ ((advance (driveLine (segmentOf Config.params k) t)).phase ≠ .rest ∧ (advance
            (driveLine (segmentOf Config.params k) t)).busy = true ∧ ((advance (driveLine
            (segmentOf Config.params k) t)).phase = .halfGap ∨ (advance (driveLine
            (segmentOf Config.params k) t)).phase = .cmdGap → (advance (driveLine
            (segmentOf Config.params k) t)).seg = 0))) := by
  have half : ∀ m, t.seg.val = 131 → (halfWave Config.params m).drop t.seg.val =
      [segmentOf Config.params (halfSegment m t.seg)] := by
    intro m h; rw [half_drop, h]; simp [halfWave_length]
  cases hp : t.phase
  · exact absurd hp hne
  · refine ⟨halfSegment t.hdrMsg t.seg, by simp [dueSegment, hp], ?_, by simp, .inr ?_⟩
    · by_cases h : t.seg.val = 131
      · have hh := half t.hdrMsg h
        simp only [remaining, advance, hp, driveLine_phase, driveLine_seg, h, if_true,
            driveLine_hdrMsg, driveLine_cmdMsg]
        rw [h] at hh; rw [hh]; rfl
      · simp only [remaining, advance, hp, driveLine_phase, driveLine_seg, h, if_false,
          half_drop t.hdrMsg t.seg, List.cons_append, driveLine_hdrMsg, driveLine_cmdMsg]
        rw [seg_succ (by omega)]
    · by_cases h : t.seg.val = 131 <;> simp [advance, hp, h, hb]
  · have := hg (.inl hp)
    refine ⟨.halfGap, by simp [dueSegment, hp, this], ?_, by simp, .inr ?_⟩
    · simp [remaining, advance, hp, segmentOf]
    · simp [advance, hp, hb]
  · refine ⟨halfSegment t.cmdMsg t.seg, by simp [dueSegment, hp], ?_, by simp, .inr ?_⟩
    · by_cases h : t.seg.val = 131
      · have hh := half t.cmdMsg h
        simp only [remaining, advance, hp, driveLine_phase, driveLine_seg, h, if_true,
            driveLine_hdrMsg, driveLine_cmdMsg]
        rw [h] at hh; rw [hh]; rfl
      · simp only [remaining, advance, hp, driveLine_phase, driveLine_seg, h, if_false,
          half_drop t.cmdMsg t.seg, List.cons_append, driveLine_hdrMsg, driveLine_cmdMsg]
        rw [seg_succ (by omega)]
    · by_cases h : t.seg.val = 131 <;> simp [advance, hp, h, hb]
  · have := hg (.inr hp)
    refine ⟨.cmdGap, by simp [dueSegment, hp, this], ?_, by simp, .inl ?_⟩
    · simp [remaining, advance, hp, segmentOf]
    · simp [advance, hp, driveLine, segmentOf, Params.tCmdGap, Level.line]

theorem sum_pairs (l : List Bool) : ((l.flatMap (fun b => ([⟨.mark, Config.params.tBitMark⟩,
    ⟨.space, if b then Config.params.tOneSpace else Config.params.tZeroSpace⟩] : List Segment))).map Segment.duration).sum = 870 * l.length + 860 * l.count true := by
  induction l with
  | nil => rfl
  | cons b l ih =>
    rw [List.flatMap_cons, List.map_append, List.sum_append, ih, List.length_cons, List.count_cons]
    have : (([⟨.mark, Config.params.tBitMark⟩, ⟨.space,
        if b then Config.params.tOneSpace else Config.params.tZeroSpace⟩] : List Segment).map Segment.duration).sum = 435 + if b then 1295 else 435 := rfl
    rw [this]
    cases b <;> simp <;> omega

/-- R182: how long a half takes. -/
theorem halfTime (m : Half) : waveTime (halfWave Config.params m) = 61375 + 860 *
    (msgBits m).count true := by
  unfold waveTime halfWave
  rw [List.cons_append, List.cons_append, List.map_cons, List.map_cons, List.sum_cons,
      List.sum_cons, List.map_append, List.sum_append, sum_pairs, msgBits_length]
  have : (([⟨.mark, Config.params.tBitMark⟩, ⟨.space,
      0⟩] : List Segment).map Segment.duration).sum = 435 := rfl
  rw [this]
  have a2 : Config.params.tSyncMark = 3500 := rfl
  have a3 : Config.params.tSyncSpace = 1760 := rfl
  simp only [a2, a3]
  omega

/-! ### The line as alternating intervals -/

theorem lineAt_before (w : List Segment) (t x : Nat) (h : x < t) : lineAt w t x = false := by
  cases w with
  | nil => rfl
  | cons g w => simp [lineAt, h]

/-- R181: a segment of length 0 is not on the line. -/
theorem lineAt_zero (w1 w2 : List Segment) (l : Level) (t x : Nat) : lineAt (w1 ++ ⟨l,
    0⟩ :: w2) t x = lineAt (w1 ++ w2) t x := by
  induction w1 generalizing t with
  | nil =>
    simp only [List.nil_append, lineAt, Nat.add_zero]
    by_cases h : x < t
    · simp [h, lineAt_before _ _ _ h]
    · simp [h]
  | cons g w1 ih => simp only [List.cons_append, lineAt, ih]

/-- The level of a line value. -/
def levelOf (b : Bool) : Level := if b then .mark else .space

/-- Alternating intervals, the first with line value `l`. -/
def alternating : Bool → List Nat → List Segment
  | _, [] => []
  | l, d :: ds => ⟨levelOf l, d⟩ :: alternating (!l) ds

theorem alt_append (ds es : List Nat) (l : Bool) (h : ds.length % 2 = 0) : alternating l (ds ++ es)
    = alternating l ds ++ alternating l es := by
  match ds with
  | [] => rfl
  | [d] => simp at h
  | d :: e :: ds =>
    simp only [List.cons_append, alternating, Bool.not_not]
    rw [alt_append ds es l (by simp only [List.length_cons] at h; omega)]

/-- R65: the two intervals of a bit. -/
def bitNat (b : Bool) : List Nat := [435, if b then 1295 else 435]

/-- R65: the intervals of a half, without the last. -/
def halfNat (m : Half) : List Nat := 3500 :: 1760 :: (msgBits m).flatMap bitNat

/-- R190: the 263 intervals of a frame. -/
def frameNat (body : Body) : List Nat := halfNat (hdrMessage Config.params) ++ [435,
    30000] ++ halfNat (cmdMessage Config.params body) ++ [435]

theorem bitNat_alt (bs : List Bool) : bs.flatMap (fun b => ([⟨.mark, Config.params.tBitMark⟩,
    ⟨.space, if b then Config.params.tOneSpace else Config.params.tZeroSpace⟩] : List Segment))
    = alternating true (bs.flatMap bitNat) := by
  induction bs with
  | nil => rfl
  | cons b bs ih =>
    rw [List.flatMap_cons, ih, List.flatMap_cons, alt_append _ _ _ (by simp [bitNat])]
    rfl

theorem bitNat_len (bs : List Bool) : (bs.flatMap bitNat).length = 2 * bs.length := by
  induction bs with
  | nil => rfl
  | cons b bs ih => simp only [List.flatMap_cons, List.length_append, ih, List.length_cons,
      bitNat, List.length_nil]; omega

theorem halfNat_len (m : Half) : (halfNat m).length = 130 := by
  simp only [halfNat, List.length_cons, bitNat_len, msgBits_length]

theorem halfNat_wave (m : Half) : halfWave Config.params m = (alternating true (halfNat m) ++ [⟨.mark,
    435⟩]) ++ [⟨.space, 0⟩] := by
  unfold halfWave halfNat
  rw [bitNat_alt]
  simp only [alternating, Bool.not_not, List.append_assoc, List.cons_append]
  rfl

/-- R190: the line of a send is the frame's intervals and then the gap. -/
theorem line_send (body : Body) (t x : Nat) : lineAt (sendWave Config.params body) t x = lineAt
    (alternating true (frameNat body ++ [Config.params.tCmdGap])) t x := by
  unfold sendWave
  rw [halfNat_wave, halfNat_wave]
  generalize ha : halfNat (hdrMessage Config.params) = A
  generalize hb : halfNat (cmdMessage Config.params body) = B
  have la : A.length = 130 := by rw [← ha, halfNat_len]
  have lb : B.length = 130 := by rw [← hb, halfNat_len]
  have e1 : alternating true A ++ [⟨.mark, 435⟩] ++ [⟨.space, 0⟩] ++ [⟨.space,
      Config.params.tHalfGap⟩] ++ (alternating true B ++ [⟨.mark, 435⟩] ++ [⟨.space, 0⟩]) ++ [⟨.space,
      Config.params.tCmdGap⟩]
     = (alternating true A ++ [⟨.mark, 435⟩]) ++ (⟨.space, 0⟩ :: ([⟨.space, Config.params.tHalfGap⟩] ++
         (alternating true B ++ [⟨.mark, 435⟩] ++ [⟨.space, 0⟩]) ++ [⟨.space,
         Config.params.tCmdGap⟩])) := by simp
  rw [e1, lineAt_zero]
  have e2 : (alternating true A ++ [⟨.mark, 435⟩]) ++ ([⟨.space, Config.params.tHalfGap⟩] ++
      (alternating true B ++ [⟨.mark, 435⟩] ++ [⟨.space, 0⟩]) ++ [⟨.space, Config.params.tCmdGap⟩])
     = ((alternating true A ++ [⟨.mark, 435⟩]) ++ ([⟨.space, Config.params.tHalfGap⟩] ++ (alternating true B ++
         [⟨.mark, 435⟩]))) ++ (⟨.space, 0⟩ :: [⟨.space, Config.params.tCmdGap⟩]) := by simp
  rw [e2, lineAt_zero]
  congr 1
  unfold frameNat
  rw [ha, hb]
  have e3 : A ++ [435, 30000] ++ B ++ [435] ++ [Config.params.tCmdGap] = A ++ ([435, 30000] ++
      (B ++ [435, Config.params.tCmdGap])) := by simp
  rw [e3, alt_append _ _ _ (by rw [la]), alt_append _ _ _ (by rfl), alt_append _ _ _ (by rw [lb])]
  simp only [alternating, List.append_assoc]
  rfl

end Sys2Proof.Machine
end

