-- ==== Sys2Proof/Laws/Sampling.lean ====
section
/-!
SUPPORT. Sampling a line of alternating intervals with ticks `0, T, 2T, ...`: each edge is seen at
the first tick not before it, so a measured duration is off by less than `T`
(spec/41_rx_classifier.md R117).
-/
namespace Sys2Proof.Machine

/-- The first tick not before `b`. -/
def ceilT (T b : Nat) : Nat := (b + T - 1) / T

theorem ceil_bounds (T b : Nat) (hT : 0 < T) : b ≤ ceilT T b * T ∧ ceilT T b * T < b + T := by
  unfold ceilT
  have h1 := Nat.div_add_mod (b + T - 1) T
  have h2 := Nat.mod_lt (b + T - 1) hT
  rw [Nat.mul_comm] at h1
  constructor <;> omega

theorem ceil_le (T b k : Nat) (hT : 0 < T) : ceilT T b ≤ k ↔ b ≤ k * T := by
  obtain ⟨h1, h2⟩ := ceil_bounds T b hT
  constructor
  · intro h; have := Nat.mul_le_mul_right T h; omega
  · intro h
    by_contra hn
    have : k + 1 ≤ ceilT T b := by omega
    have := Nat.mul_le_mul_right T this
    rw [Nat.add_mul] at this; omega

/-- The level, by tick number,
    changes from `l` at the ticks of the list and nowhere else up to the last. -/
def Changes (lev : Nat → Bool) : Nat → Bool → List Nat → Prop
  | _, _, [] => True
  | c, l, c1 :: cs => c < c1 ∧ (∀ k, c ≤ k → k < c1 → lev k = l) ∧ lev c1 = (!l) ∧ Changes lev c1
      (!l) cs

/-- The durations between those ticks. -/
def diffs (T : Nat) : Nat → List Nat → List Time
  | _, [] => []
  | c, c1 :: cs => BitVec.ofNat 32 ((c1 - c) * T) :: diffs T c1 cs

/-- The `m` ticks from number `a` on. -/
def ticksFrom (lev : Nat → Bool) (T a m : Nat) : List (Bool × Time) := (List.range' a m).map
    (fun k => (lev k, BitVec.ofNat 32 (k * T)))

theorem runTicks_append (xs ys : List (Bool × Time)) (s s1 : State) (h : runTicks xs s
    = .next s1) : runTicks (xs ++ ys) s = runTicks ys s1 := by
  induction xs generalizing s with
  | nil => cases h; rfl
  | cons x xs ih =>
    obtain ⟨l, n⟩ := x
    simp only [List.cons_append, runTicks] at h ⊢
    cases he : exec (.rxTick l n) s with
    | next s' => rw [he] at h; simp only at h ⊢; exact ih s' h
    | fault f => rw [he] at h; cases h
    | refused f => rw [he] at h; cases h

theorem ticks_still (lev : Nat → Bool) (T a m : Nat) (s : State) (h : ∀ k, a ≤ k → k < a + m
    → ∀ n, exec (.rxTick (lev k) n) s = .next s) : runTicks (ticksFrom lev T a m) s = .next s := by
  induction m generalizing a with
  | zero => rfl
  | succ m ih =>
    unfold ticksFrom
    rw [List.range'_succ]
    simp only [List.map_cons, runTicks]
    rw [h a (by omega) (by omega)]
    exact ih (a + 1) (fun k h1 h2 => h k (by omega) (by omega))

theorem ticks_split (lev : Nat → Bool) (T a m k : Nat) : ticksFrom lev T a (m + k)
    = ticksFrom lev T a m ++ ticksFrom lev T (a + m) k := by
  unfold ticksFrom
  rw [← List.map_append]
  congr 1
  have := @List.range'_append_1 a m k
  exact this.symm

/-- Ticks between edges change nothing: the sequence is its edges. -/
theorem run_changes (lev : Nat → Bool) (T : Nat) (cs : List Nat) (c n : Nat) (l : Bool)
    (s : State) (r' : Receiver)
   (hc : Changes lev c l cs) (hn : ∀ x ∈ cs, x ≤ n) (hr : runEdges Config.params
       (diffs T c cs) s.rx = .ok r') (ht : r'.terminal = true)
   (hs : s.rx.terminal = true ∨ (s.rx.receiverState = .running ∧ s.rx.prevLevel = l
       ∧ s.rx.lastEdgeTime = BitVec.ofNat 32 (c * T))) :
   runTicks (ticksFrom lev T (c + 1) (n - c)) s = .next { s with rx := r' } := by
  induction cs generalizing c l s with
  | nil =>
    cases hr
    rw [runTicks_terminal _ _ ht]
  | cons c1 cs ih =>
    obtain ⟨h1, h2, h3, h4⟩ := hc
    rcases hs with hs | ⟨hs, hl, hlast⟩
    · rw [runEdges_terminal hs] at hr; cases hr
      rw [runTicks_terminal _ _ hs]
    · have hle : c1 ≤ n := hn c1 (by simp)
      have e : n - c = (c1 - c - 1) + (1 + (n - c1)) := by omega
      have hx : ∀ l n s, exec (.rxTick l n) s = onReceiver s (tick Config.params l n s.rx) :=
          fun _ _ _ => rfl
      rw [e, ticks_split, runTicks_append _ _ s s (ticks_still _ _ _ _ _ (by
        intro k ka kb now
        rw [h2 k (by omega) (by omega), hx]
        simp [tick, hs, hl, onReceiver]))]
      rw [show c + 1 + (c1 - c - 1) = c1 by omega, ticks_split]
      have hone : ticksFrom lev T c1 1 = [(lev c1, BitVec.ofNat 32 (c1 * T))] := rfl
      rw [hone]
      have htick : BitVec.ofNat 32 (c1 * T) = s.rx.lastEdgeTime + BitVec.ofNat 32
          ((c1 - c) * T) := by
        rw [hlast, ← BitVec.ofNat_add, ← Nat.add_mul]
        congr 2; omega
      simp only [diffs, runEdges] at hr
      cases hE : edgeTick Config.params (BitVec.ofNat 32 ((c1 - c) * T)) s.rx with
      | error f => rw [hE] at hr; cases hr
      | ok r1 =>
        rw [hE] at hr
        simp only at hr
        have hex : exec (.rxTick (lev c1) (BitVec.ofNat 32 (c1 * T))) s = .next { s with rx :=
            r1 } := by
          rw [hx, h3, htick, ← hl]
          have h5 := hE
          rw [edgeTick, if_pos hs] at h5
          show onReceiver s (tick Config.params _ _ s.rx) = _
          rw [h5]; rfl
        have hE2 := hE
        rw [edgeTick_running hs] at hE2
        have hlife := onEdge_life _ _ _ (by exact hs) hE2
        have hk := onEdge_keeps_time _ _ _ hE2
        simp only [List.cons_append, List.nil_append, runTicks, hex]
        refine ih c1 (!l) { s with rx := r1 } h4 (fun x hx => hn x (by simp [hx])) hr ?_
        by_cases hrun : r1.receiverState = .running
        · refine .inr ⟨hrun, by rw [hk.1]; simp [hl], by rw [hk.2]; exact htick.symm⟩
        · left
          rcases hlife with h | h | h | h
          · exact absurd h hrun
          all_goals simp [Receiver.terminal, h]

/-- The ticks that see the edges of a list of intervals from `b` on. -/
def edgeIdx (T : Nat) : Nat → List Nat → List Nat
  | _, [] => []
  | b, d :: ds => ceilT T (b + d) :: edgeIdx T (b + d) ds

theorem changes_alt (T : Nat) (hT : 0 < T) (ds : List Nat) (g b : Nat) (l : Bool) (lev : Nat
    → Bool) (f : Bool → Bool) (hf : ∀ x, f (!x) = !f x)
   (hd : ∀ d ∈ ds, T ≤ d) (hg : T ≤ g) (hlev : ∀ k, b ≤ k * T → lev k = f (lineAt (alternating l (ds ++
       [g])) b (k * T))) :
   Changes lev (ceilT T b) (f l) (edgeIdx T b ds) := by
  induction ds generalizing b l with
  | nil => trivial
  | cons d ds ih =>
    have hTd := hd d (by simp)
    have c0 := ceil_bounds T b hT
    have c1 := ceil_bounds T (b + d) hT
    have lvl : ∀ l, (levelOf l).line = l := by intro l; cases l <;> rfl
    have step1 : ∀ x, b + d ≤ x → lineAt (alternating l (d :: ds ++ [g])) b x = lineAt (alternating (!l) (ds ++
        [g])) (b + d) x := by
      intro x hx
      simp only [List.cons_append, alternating, lineAt]
      rw [if_neg (by omega), if_neg (by omega)]
    simp only [edgeIdx, Changes]
    refine ⟨?_, ?_, ?_, ?_⟩
    · have : ceilT T b * T < ceilT T (b+d) * T := by omega
      exact Nat.lt_of_mul_lt_mul_right this
    · intro k k1 k2
      have k1' := (ceil_le T b k hT).mp k1
      have k2' : k * T < b + d := by
        by_contra h
        have := (ceil_le T (b+d) k hT).mpr (by omega)
        omega
      rw [hlev k k1']
      simp only [List.cons_append, alternating, lineAt]
      rw [if_neg (by omega), if_pos k2', lvl]
    · rw [hlev _ (by omega), step1 _ c1.1, ← hf]
      congr 1
      have hfirst : ∃ d' w, alternating (!l) (ds ++ [g]) = ⟨levelOf (!l), d'⟩ :: w ∧ T ≤ d' := by
        cases ds with
        | nil => exact ⟨g, _, rfl, hg⟩
        | cons d' ds => exact ⟨d', _, rfl, hd d' (by simp)⟩
      obtain ⟨d', w, hw, hTd'⟩ := hfirst
      rw [hw]
      simp only [lineAt]
      rw [if_neg (by omega), if_pos (by omega), lvl]
    · rw [← hf]
      refine ih (b + d) (!l) (fun x hx => hd x (by simp [hx])) ?_
      intro k hk
      rw [hlev k (by omega), step1 _ hk]

theorem diffs_within (T : Nat) (hT : 0 < T) (h200 : T ≤ 200) (ds : List Nat) (ws : List
    (Nat × Nat)) (b : Nat)
   (h : List.Forall₂ (fun d w => w.1 + 200 ≤ d ∧ d + 200 ≤ w.2 ∧ w.2 < 2^31) ds ws) : within
       (diffs T (ceilT T b) (edgeIdx T b ds)) ws := by
  induction h generalizing b with
  | nil => exact List.Forall₂.nil
  | @cons d w ds ws hdw _ ih =>
    refine List.Forall₂.cons ?_ (ih (b + d))
    have c0 := ceil_bounds T b hT
    have c1 := ceil_bounds T (b + d) hT
    have e : (ceilT T (b + d) - ceilT T b) * T = ceilT T (b + d) * T - ceilT T b * T :=
        Nat.sub_mul _ _ _
    rw [BitVec.toNat_ofNat, e]
    have : ceilT T (b + d) * T - ceilT T b * T < 2 ^ 32 := by omega
    rw [Nat.mod_eq_of_lt this]
    omega

theorem edgeIdx_le (T : Nat) (hT : 0 < T) (ds : List Nat) (b n : Nat)
    (h : b + ds.sum ≤ n * T) : ∀ x ∈ edgeIdx T b ds, x ≤ n := by
  induction ds generalizing b with
  | nil => simp [edgeIdx]
  | cons d ds ih =>
    simp only [List.sum_cons] at h
    intro x hx
    simp only [edgeIdx, List.mem_cons] at hx
    rcases hx with rfl | hx
    · rw [ceil_le _ _ _ hT]; omega
    · exact ih (b + d) (by omega) x hx

end Sys2Proof.Machine
end

