-- ==== Sys2Proof/Laws/Validator.lean ====
section
/-!
SUPPORT. The decoded value: the comparisons byte by byte, the button table and the frames of R60
(spec/43_rx_validator.md R152 to R157).
-/
namespace Sys2Proof.Machine

/-- R73: the places of the seven flags. -/
theorem diag_bits (d : Diag) : d.word.getLsbD 0 = d.len ∧ d.word.getLsbD 1 = d.hdrPrefix
    ∧ d.word.getLsbD 2 = d.hdrBegin ∧
   d.word.getLsbD 3 = d.hdrBody ∧ d.word.getLsbD 4 = d.cmdPrefix ∧ d.word.getLsbD 5 = d.cmdBegin
       ∧ d.word.getLsbD 6 = d.noMatch := by
  obtain ⟨a, b, c, d, e, f, g⟩ := d
  revert a b c d e f g; decide

theorem bytes3_eq (buf : Frame) (a : Nat) (x y z : BitVec 8) : bytes3 buf a =
    (x ++ y) ++ z ↔ byteAt buf a = x ∧ byteAt buf (a+1) = y ∧ byteAt buf (a+2) = z := by
  unfold bytes3
  constructor
  · intro h
    have a1 := congrArg (fun v : BitVec 24 => v.extractLsb' 0 8) h
    have a2 := congrArg (fun v : BitVec 24 => v.extractLsb' 8 8) h
    have a3 := congrArg (fun v : BitVec 24 => v.extractLsb' 16 8) h
    have e : ∀ p q r : BitVec 8, ((p ++ q) ++ r : BitVec 24).extractLsb' 0 8 = r ∧
        ((p ++ q) ++ r : BitVec 24).extractLsb' 8 8 = q ∧
        ((p ++ q) ++ r : BitVec 24).extractLsb' 16 8 = p := by
      intro p q r
      refine ⟨?_, ?_, ?_⟩ <;> apply BitVec.eq_of_getLsbD_eq <;> intro i hi <;> simp only
          [BitVec.getLsbD_extractLsb', BitVec.getLsbD_append]
      · simp [hi]
      · simp [hi, show 8 + i - 8 = i by omega]
      · rw [if_neg (by omega), if_neg (by omega), show 16 + i - 8 - 8 = i by omega]; simp [hi]
    obtain ⟨e1, e2, e3⟩ := e (byteAt buf a) (byteAt buf (a+1)) (byteAt buf (a+2))
    obtain ⟨f1, f2, f3⟩ := e x y z
    exact ⟨by rw [← e3, ← f3]; exact a3, by rw [← e2, ← f2]; exact a2, by rw [← e1, ← f1]; exact a1⟩
  · rintro ⟨rfl, rfl, rfl⟩; rfl

theorem bytes2_eq (buf : Frame) (a : Nat) (x y : BitVec 8) : bytes2 buf a
    = x ++ y ↔ byteAt buf a = x ∧ byteAt buf (a+1) = y := by
  unfold bytes2
  constructor
  · intro h
    have a1 := congrArg (fun v : BitVec 16 => v.extractLsb' 0 8) h
    have a2 := congrArg (fun v : BitVec 16 => v.extractLsb' 8 8) h
    have e : ∀ p q : BitVec 8, (p ++ q : BitVec 16).extractLsb' 0 8 = q ∧
        (p ++ q : BitVec 16).extractLsb' 8 8 = p := by
      intro p q
      refine ⟨?_, ?_⟩ <;> apply BitVec.eq_of_getLsbD_eq <;> intro i hi <;> simp only
          [BitVec.getLsbD_extractLsb', BitVec.getLsbD_append]
      · simp [hi]
      · simp [hi, show 8 + i - 8 = i by omega]
    obtain ⟨e1, e2⟩ := e (byteAt buf a) (byteAt buf (a+1))
    obtain ⟨f1, f2⟩ := e x y
    exact ⟨by rw [← e2, ← f2]; exact a2, by rw [← e1, ← f1]; exact a1⟩
  · rintro ⟨rfl, rfl⟩; rfl

/-! ### The button table -/

/-- R6: the machine's table meets what the spec requires of it. -/
theorem buttons_ok : buttonTableOk Config.params = true := by
  unfold Config.params Config.buttons
  split
  · assumption
  · decide

theorem buttons_nodup : (Config.buttons.map ButtonEntry.body).Nodup := by
  have := buttons_ok
  simp only [buttonTableOk, Bool.and_eq_true, decide_eq_true_eq] at this
  exact this.2

theorem buttons_mem : (⟨.onoff, 0x800048#24⟩ : ButtonEntry) ∈ Config.buttons ∧ (⟨.fan,
    0x081084#24⟩ : ButtonEntry) ∈ Config.buttons := by
  have := buttons_ok
  simp only [buttonTableOk, Bool.and_eq_true, decide_eq_true_eq, List.contains_iff_mem] at this
  exact ⟨this.1.1.2, this.1.2⟩

theorem matchBody_none (t : List ButtonEntry) (b : Body) : matchBody t b = none ↔ ∀ x ∈ t,
    x.body ≠ b := by
  simp [matchBody]

/-- R156: with the bodies distinct, the row with a body is the first with it. -/
theorem matchBody_some (t : List ButtonEntry) (ht : (t.map ButtonEntry.body).Nodup) (b : Body)
    (k : Nat) (x : ButtonEntry) (hk : t[k]? = some x) (hx : x.body = b) : matchBody t b
    = some k := by
  obtain ⟨hlt, hxe⟩ := List.getElem?_eq_some_iff.mp hk
  unfold matchBody
  rw [List.findIdx?_eq_some_iff_getElem]
  refine ⟨hlt, by simp [hxe, hx], ?_⟩
  intro j hj
  simp
  intro hb
  have hjl : j < t.length := by omega
  have : (t.map ButtonEntry.body)[j]'(by simpa using hjl) =
      (t.map ButtonEntry.body)[k]'(by simpa using hlt) := by
    simp [hxe, hx, hb]
  have := (List.Nodup.getElem_inj_iff ht).mp this
  omega

/-! ### `decodeButton` -/

/-- R153. -/
theorem decode_short (p : Params) (r : Receiver) (hb : r.bitIndex ≠ p.frameEnd) :
    decodeButton p r = ⟨0#4, { len := true }⟩ := if_pos hb

theorem decode_gen (p : Params) (r : Receiver) (hb : r.bitIndex = p.frameEnd) : decodeButton p r =
    if p.strictDecode && (structuralDiag p r.buf).structural then ⟨0#4, structuralDiag p r.buf⟩ else
    match matchBody p.buttons (bytes3 r.buf 13) with
      | some k => ⟨buttonCode (some k), structuralDiag p r.buf⟩
      | none => ⟨buttonCode none, { structuralDiag p r.buf with noMatch := true }⟩ := by
  unfold decodeButton
  refine (if_neg (by simp [hb])).trans ?_
  by_cases h : (p.strictDecode && (structuralDiag p r.buf).structural) = true
  · exact (if_pos h).trans (if_pos h).symm
  · refine (if_neg h).trans (Eq.trans ?_ (if_neg h).symm)
    cases matchBody p.buttons (bytes3 r.buf 13) <;> rfl

/-- The lenient reading, under any table. -/
theorem decode_full (r : Receiver) (hb : r.bitIndex = 128#8) : decodeButton Config.params r =
    match matchBody Config.buttons (bytes3 r.buf 13) with
      | some k => ⟨buttonCode (some k), structuralDiag Config.params r.buf⟩
      | none => ⟨buttonCode none, { structuralDiag Config.params r.buf with noMatch := true }⟩ := by
  have hs : Config.params.strictDecode = false := rfl
  have ht : Config.params.buttons = Config.buttons := rfl
  rw [decode_gen _ _ hb, hs, ht, Bool.false_and, if_neg Bool.false_ne_true]

theorem bytes3_13 (body : Body) : bytes3 (0x885BE90F0000004E885BE900F1#104 ++ body) 13 = body := by
  unfold bytes3 byteAt
  apply BitVec.eq_of_getLsbD_eq
  intro i hi
  simp only [BitVec.getLsbD_append, BitVec.getLsbD_extractLsb']
  by_cases h1 : i < 8
  · simp [h1, hi]
  · by_cases h2 : i - 8 < 8
    · simp [h1, h2, hi, show 8 + (i - 8) = i by omega]
    · simp [h1, h2, hi, show i - 8 - 8 < 8 by omega, show 16 + (i - 8 - 8) = i by omega]

theorem byteAt_hi (body : Body) (k : Nat) (hk : k < 13) : byteAt
    (0x885BE90F0000004E885BE900F1#104 ++ body) k = (0x885BE90F0000004E885BE900F1#104).extractLsb'
    (8 * (12 - k)) 8 := by
  unfold byteAt
  apply BitVec.eq_of_getLsbD_eq
  intro i hi
  rw [BitVec.getLsbD_extractLsb', BitVec.getLsbD_extractLsb', BitVec.getLsbD_append]
  rw [if_neg (by omega)]
  rw [show 8 * (15 - k) + i - 24 = 8 * (12 - k) + i by omega]

/-- A frame of R60 passes the five comparisons. -/
theorem structural_ok (body : Body) : structuralDiag Config.params
    (0x885BE90F0000004E885BE900F1#104 ++ body) = {} := by
  have h := fun k hk => byteAt_hi body k hk
  unfold structuralDiag bytes3 bytes2
  simp only [h 0 (by decide), h (0+1) (by decide), h (0+2) (by decide), h 3 (by decide), h (3+1)
      (by decide), h 5 (by decide), h (5+1) (by decide),
   h (5+2) (by decide), h 8 (by decide), h (8+1) (by decide), h (8+2) (by decide), h 11
       (by decide), h (11+1) (by decide)]
  decide +kernel

/-- What a frame of R60 decodes to. -/
theorem decode_frame (r : Receiver) (body : Body) (hb : r.bitIndex = 128#8) (hf : r.buf
    = 0x885BE90F0000004E885BE900F1#104 ++ body) :
   (∀ k x, Config.buttons[k]? = some x → x.body = body → decodeButton Config.params r
       = ⟨BitVec.ofNat 4 (1 + k), {}⟩) ∧
   ((∀ x ∈ Config.buttons, x.body ≠ body) → decodeButton Config.params r = ⟨0#4, { noMatch :=
       true }⟩) := by
  have hs : Config.params.strictDecode = false := rfl
  have ht : Config.params.buttons = Config.buttons := rfl
  constructor
  · intro k x hk hx
    simp [decodeButton, hb, hf, structural_ok, hs, ht, bytes3_13,
        matchBody_some _ buttons_nodup body k x hk hx, buttonCode]
  · intro h
    simp [decodeButton, hb, hf, structural_ok, hs, ht, bytes3_13, (matchBody_none _ _).mpr h,
        buttonCode]

end Sys2Proof.Machine
end

