-- ==== Sys2Proof/Tests/Slice0.lean ====
section
/-!
SUPPORT. This model's own tests: ill-formed terms, words written out from the spec's encodings, one or
two steps per instruction with results from spec/95_test_vectors.md, and a witness for the hypotheses
of every statement. A test that depends on an open parameter uses `testParams`, the conventions of
spec/95_test_vectors.md.
-/
namespace Sys2Proof.Tests
open Sys2Proof.Machine

-- One theorem at a time: the kernel evaluations of the tests would else wait for one another, each in
-- a thread of its own.
set_option Elab.async false

/-- spec/95: `RX_ACTIVE_LEVEL = 1`, the provisional table, `T_CMD_GAP = 40000`, `TICK_PERIOD = 50`. -/
def testParams : Params :=
  { rxActiveLevel := true
    buttons := provisionalButtons
    cmdGapExcess := 9999
    tickPeriod := 50
    carrierHz := 38000 }

/-- What a function says of the next state. -/
def after {α : Type} (f : State → α) : Host.Outcome State Fault Refusal → Option α
  | .next t => some (f t)
  | .fault _ => none
  | .refused _ => none

/-- What a function says of the receiver's next state. -/
def got {α : Type} (f : Receiver → α) : Except Fault Receiver → Option α
  | .ok r => some (f r)
  | .error _ => none

/-- A state with a given receiver position. -/
def rxAt (rs : ReceiverState) (rd : ReadState) (bi : BitIndex) (tc : Count) : State :=
  { State.reset with
    rx := { Receiver.reset with receiverState := rs, readState := rd, bitIndex := bi, timeoutCount := tc } }

/-- A state with a given sender position in the transmission of the `ONOFF` body. -/
def txAt (ph : Phase) (seg : Fin 132) : State :=
  { State.reset with tx :=
      { acceptSend Config.params 0x800048#24 Sender.reset with phase := ph, seg := seg } }

/-- The receiver after `RESET`. -/
def fresh : Receiver := softReset Receiver.reset

/-- The position fields a trace of spec/95 writes. -/
def place (r : Receiver) : ReceiverState × ReadState × BitIndex × Count :=
  (r.receiverState, r.readState, r.bitIndex, r.timeoutCount)

/-! ### Well-formedness -/

theorem test_wf_longSpace : (Instr.longSpace 3299#32).wellFormed = false := by decide
theorem test_wf_longSpace_high : (Instr.longSpace 3701#32).wellFormed = false := by decide
theorem test_wf_startMark : (Instr.startMark 1559#32).wellFormed = false := by decide
theorem test_wf_bitSpace : (Instr.bitSpace 636#32).wellFormed = false := by decide
theorem test_wf_zeroMark : (Instr.zeroMark 234#32).wellFormed = false := by decide
theorem test_wf_oneMark : (Instr.oneMark 1496#32).wellFormed = false := by decide
theorem test_wf_timeoutMark : (Instr.timeoutMark 29799#32).wellFormed = false := by decide
theorem test_wf_ceiling : (Instr.ceiling 31000#32).wellFormed = false := by decide
theorem test_wf_invalid : (Instr.invalid 31001#32).wellFormed = false := by decide
theorem test_wf_done : (Instr.done 31001#32).wellFormed = false := by decide
theorem test_wf_cmdHalf_onoff : (Instr.cmdHalf 0x800048#24).wellFormed = false := by decide
theorem test_wf_cmdHalf_fan : (Instr.cmdHalf 0x081084#24).wellFormed = false := by decide
theorem test_wf_ok : (Instr.timeoutMark 31000#32).wellFormed = true
    ∧ (Instr.longSpace 3300#32).wellFormed = true ∧ (Instr.cmdHalf 0x123456#24).wellFormed = true := by
  decide

/-! ### Decoding, from words written out bit by bit -/

theorem test_decode_rxNop : decodeRx 0b00 = .ok .rxNop := by decide
/-- P1, step 2: `01 0 00000DAC`. -/
theorem test_decode_rxTick :
    decodeRx 0b00000000000000000000110110101100_0_01 = .ok (.rxTick false 0x00000DAC#32) := by decide
theorem test_decode_rxReset : decodeRx 0b10 = .ok .rxReset := by decide
theorem test_decode_rxInit : decodeRx 0b11 = .ok .rxInit := by decide
theorem test_decode_txNop : decodeTx 0b00 = .ok .txNop := by decide
/-- `01 800048`. -/
theorem test_decode_txSend :
    decodeTx 0b100000000000000001001000_01 = .ok (.txSend 0x800048#24) := by decide
theorem test_decode_txConstruct : decodeTx 0b10 = .ok .txConstruct := by decide
theorem test_decode_txReserved : decodeTx 0b11 = .ok .txReserved := by decide
theorem test_decode_queries : [Port.hasData, .isError, .decoded].map
      (fun o => (decode Config.params resetCtx ⟨o, 0⟩).toOption)
    = [some .rxHasdata, some .rxIserror, some .rxDecode] := by decide
/-- Times are taken modulo 2^32 (R76), so a bit above the port is no bit of it. -/
theorem test_decode_wide : decodeRx (2 ^ 35 + 1) = .ok (.rxTick false 0#32)
    ∧ decodeTx (2 ^ 26 + 1) = .ok (.txSend 0#24) := by decide +kernel

/-- A symbol at a position, on the symbol port. -/
def sym (rd : ReadState) (bi : BitIndex) (tc : Count) (e : Nat) : Except Reject Instr :=
  decode Config.params ⟨bi, rd, tc, none⟩ ⟨.symbol, e⟩

/-- V41.2, V41.21. -/
theorem test_decode_longSpace : sym .none 0 0 3500 = .ok (.longSpace 3500#32)
    ∧ sym .readTimeout 64 1 3300 = .ok (.longSpace 3300#32) := by decide
/-- V41.8. -/
theorem test_decode_startMark : sym .readStart 0 0 1960 = .ok (.startMark 1960#32) := by decide
/-- V41.11. -/
theorem test_decode_bitSpace : sym .readSpace 0 0 235 = .ok (.bitSpace 235#32) := by decide
/-- V41.14. -/
theorem test_decode_zeroMark : sym .readMark 0 0 635 = .ok (.zeroMark 635#32) := by decide
/-- V41.16. -/
theorem test_decode_oneMark : sym .readMark 0 0 1095 = .ok (.oneMark 1095#32) := by decide
/-- V41.18. -/
theorem test_decode_timeoutMark : sym .readMark 0 0 31000 = .ok (.timeoutMark 31000#32) := by decide
/-- V41.6, V41.19. -/
theorem test_decode_ceiling : sym .none 0 0 31001 = .ok (.ceiling 31001#32) := by decide
/-- V41.15, V41.17. -/
theorem test_decode_invalid : sym .readMark 0 0 636 = .ok (.invalid 636#32)
    ∧ sym .readMark 0 0 29799 = .ok (.invalid 29799#32) := by decide
/-- V41.22. -/
theorem test_decode_overflowEdge : sym .readSpace 128 1 2000000 = .ok (.overflowEdge 2000000#32) := by
  decide
/-- P6. -/
theorem test_decode_done : sym .readTimeout 74 2 435 = .ok (.done 435#32) := by decide

/-- R74: each segment's level and duration, on the driver port where it is due. -/
theorem test_decode_segments :
    (∀ k ∈ [(SegKind.syncMark, 7001), (.syncSpace, 3520), (.bitMark, 871), (.zeroSpace, 870),
        (.oneSpace, 2590), (.stopMark, 871), (.stopSpace, 0), (.halfGap, 60000), (.cmdGap, 80000)],
      decodeDriver testParams ⟨0, .none, 0, some k.1⟩ k.2 = .ok (segInstr k.1))
    ∧ decodeDriver testParams ⟨0, .none, 0, none⟩ 7001 = .error .noSegmentDue
    ∧ decodeDriver testParams ⟨0, .none, 0, some .syncMark⟩ 3520 = .error .notTheDueSegment := by
  decide +kernel

/-- R61, the header half bit by bit. -/
theorem test_decode_hdrHalf : decodeHalf Config.params
    0b1000100001011011111010010000111100000000000000000000000001001110 = .ok .hdrHalf := by
  decide +kernel
theorem test_decode_cmdHalf : decodeHalf Config.params 0x885BE900F1123456
    = .ok (.cmdHalf 0x123456#24) := by decide +kernel
/-- R172, the `ONOFF` half bit by bit. -/
theorem test_decode_cmdOnoff : decodeHalf Config.params
    0b1000100001011011111010010000000011110001100000000000000001001000 = .ok .cmdOnoff := by
  decide +kernel
/-- R172, the `FAN` half bit by bit. -/
theorem test_decode_cmdFan : decodeHalf Config.params
    0b1000100001011011111010010000000011110001000010000001000010000100 = .ok .cmdFan := by
  decide +kernel
theorem test_decode_unknownHalf : decodeHalf Config.params 0x085BE90F0000004E
    = .error .unknownHalf := by decide +kernel
/-- S10. -/
theorem test_decode_frame : decodeFrame Config.params 0x885BE90F0000004E885BE900F1800048
    = .ok (.frame 0x800048#24)
    ∧ decodeFrame Config.params 0x885BE90F0000004E885BE900F0800048 = .error .unknownFrame := by
  decide +kernel

/-! ### The receiver's operations -/

/-- V40.12. -/
theorem test_rxNop : after State.rx (exec .rxNop State.reset) = some Receiver.reset := by decide
/-- V40.4, V40.3. -/
theorem test_rxTick_idle :
    got (fun r => (place r, r.lastEdgeTime, r.prevLevel)) (tick testParams true 150#32 fresh)
      = some ((.running, .none, 0, 0), 150, true)
    ∧ got place (tick testParams false 100#32 fresh) = some (.idle, .none, 0, 0) := by decide
/-- V40.7: across the wrap of `now`. -/
theorem test_rxTick_wrap :
    got (fun r => (place r, r.lastEdgeTime, r.prevLevel))
      (tick testParams false 0x00000CAC#32
        { fresh with receiverState := .running, prevLevel := true, lastEdgeTime := 0xFFFFFF00#32 })
      = some ((.running, .readStart, 0, 0), 3244, false) := by decide
/-- R96's example. -/
theorem test_rxReset :
    after (fun t => (place t.rx, t.rx.buf)) (exec .rxReset
      { rxAt .stopped .error 37 0 with rx := { (rxAt .stopped .error 37 0).rx with buf := 0xFFFF#128 } })
      = some ((.idle, .none, 0, 0), 0) := by decide
/-- V40.9. -/
theorem test_rxInit : after (fun t => (place t.rx, hasData t.rx))
    (exec .rxInit (rxAt .overflowed .readSpace 128 1)) = some ((.idle, .none, 0, 0), false) := by decide

/-! ### The sender's operations -/

theorem test_txNop : after State.tx (exec .txNop (txAt .hdrHalf 5)) = some (txAt .hdrHalf 5).tx := by
  decide +kernel
/-- V44.5, V45.10. -/
theorem test_txSend : after (fun t => (t.tx.hdrMsg, t.tx.cmdMsg, t.tx.busy, t.tx.carrierEn))
    (exec (.txSend 0x123456#24) State.reset)
      = some (0x885BE90F0000004E, 0x885BE900F1123456, true, true) := by decide +kernel
/-- V45.8. -/
theorem test_txSend_busy : after State.tx (exec (.txSend 0x123456#24) (txAt .halfGap 0))
    = some (txAt .halfGap 0).tx := by decide +kernel
/-- V45.9. -/
theorem test_txConstruct :
    after (fun t => (t.tx.out, t.tx.carrierEn, t.tx.phase, t.tx.busy)) (exec .txConstruct
      { State.reset with tx := { Sender.reset with out := true, carrierEn := true } })
      = some (false, false, .rest, false) := by decide
theorem test_txReserved : after (fun t => (t.tx, t.host.turnedAway)) (exec .txReserved (txAt .cmdGap 0))
    = some ((txAt .cmdGap 0).tx, some .reservedOp) := by decide +kernel

/-! ### The queries -/

/-- V43.11. -/
theorem test_rxHasdata :
    [rxAt .overflowed .readSpace 128 1, rxAt .timedOut .readMark 64 0, rxAt .running .readSpace 128 1].map
      (fun s => after (fun t => t.host.lastRead) (exec .rxHasdata s))
      = [some (some (.hasData true)), some (some (.hasData false)), some (some (.hasData false))] := by
  decide
/-- V43.11. -/
theorem test_rxIserror :
    [rxAt .stopped .error 2 0, rxAt .stopped .none 0 0, rxAt .idle .none 0 0].map
      (fun s => after (fun t => t.host.lastRead) (exec .rxIserror s))
      = [some (some (.isError true)), some (some (.isError true)), some (some (.isError false))] := by
  decide
/-- V43.9. -/
theorem test_rxDecode : after (fun t => t.host.lastRead) (exec .rxDecode State.reset)
    = some (some (.decoded 0 0b0000001)) := by decide

/-- The decoded value of a buffer of 128 bits. -/
def decoded (p : Params) (buf : Frame) : BitVec 4 × BitVec 7 :=
  let d := decodeButton p { fresh with receiverState := .overflowed, bitIndex := 128, buf := buf }
  (d.button, d.diag.word)

/-- V43.1 to V43.7, lenient. -/
theorem test_rxDecode_lenient :
    [0x885BE90F0000004E885BE900F1800048, 0x885BE90F0000004E885BE900F1081084,
      0x885BE90F0000004E885BE900F1123456, 0x085BE90F0000004E885BE900F1800048,
      0x885BE90F0000004E885BE900F0800048, 0x885BE90F0000004F885BE900F1081084, 0].map
        (decoded testParams)
      = [(1, 0b0000000), (2, 0b0000000), (0, 0b1000000), (1, 0b0000010), (1, 0b0100000),
          (2, 0b0001000), (0, 0b1111110)] := by decide +kernel
/-- V43.4, V43.7, strict. -/
theorem test_rxDecode_strict :
    [0x885BE90F0000004E885BE900F1800048, 0x085BE90F0000004E885BE900F1800048, 0].map
      (decoded { testParams with strictDecode := true })
      = [(1, 0b0000000), (0, 0b0000010), (0, 0b0111110)] := by decide +kernel

/-- P1 and P2: the codes and causes at the ends of the two runs. -/
theorem test_codes : receiverStateCode .overflowed = 4 ∧ readStateCode .readSpace = 2
    ∧ buttonOfCode provisionalButtons 2 = some ⟨.fan, 0x081084#24⟩
    ∧ buttonOfCode provisionalButtons 0 = none
    ∧ shownCondition (rxAt .overflowed .readSpace 128 1).rx = some .overflow
    ∧ shownCondition (rxAt .stopped .error 2 0).rx = some .unrecognizedSymbol
    ∧ shownCondition State.reset.rx = none := by decide

/-! ### Symbols -/

/-- V41.2; R136's example. -/
theorem test_longSpace :
    after (fun t => place t.rx) (exec (.longSpace 3700#32) (rxAt .running .none 0 0))
      = some (.running, .readStart, 0, 0)
    ∧ after (fun t => place t.rx) (exec (.longSpace 3300#32) (rxAt .running .readTimeout 64 1))
      = some (.running, .readStart, 64, 1) := by decide
/-- V41.8. -/
theorem test_startMark : after (fun t => place t.rx) (exec (.startMark 1560#32)
    (rxAt .running .readStart 0 0)) = some (.running, .readSpace, 0, 0) := by decide
/-- V41.11. -/
theorem test_bitSpace : after (fun t => place t.rx) (exec (.bitSpace 635#32)
    (rxAt .running .readSpace 0 0)) = some (.running, .readMark, 0, 0) := by decide
/-- V41.12: a one-mark duration is not legal in `ReadSpace`, whatever it is named. -/
theorem test_bitSpace_misnamed : after (fun t => place t.rx) (exec (.oneMark 1295#32)
    (rxAt .running .readSpace 0 0)) = some (.stopped, .error, 0, 0) := by decide
/-- R133's example. -/
theorem test_zeroMark : after (fun t => (place t.rx, t.rx.buf)) (exec (.zeroMark 435#32)
    { rxAt .running .readMark 1 0 with rx := { (rxAt .running .readMark 1 0).rx with
        buf := 0xC0000000000000000000000000000000#128 } })
    = some ((.running, .readSpace, 2, 0), 0x80000000000000000000000000000000) := by decide
/-- V41.16. -/
theorem test_oneMark : after (fun t => (place t.rx, byteAt t.rx.buf 0)) (exec (.oneMark 1495#32)
    (rxAt .running .readMark 0 0)) = some ((.running, .readSpace, 1, 0), 0x80) := by decide
/-- V41.18. -/
theorem test_timeoutMark : after (fun t => place t.rx) (exec (.timeoutMark 29800#32)
    (rxAt .running .readMark 64 0)) = some (.running, .readTimeout, 64, 1) := by decide
/-- V41.19. -/
theorem test_ceiling : after (fun t => place t.rx) (exec (.ceiling 31001#32)
    (rxAt .running .readMark 0 0)) = some (.timedOut, .readMark, 0, 0) := by decide
/-- V41.5. -/
theorem test_invalid : after (fun t => place t.rx) (exec (.invalid 5000#32)
    (rxAt .running .none 0 0)) = some (.stopped, .error, 0, 0) := by decide
/-- V41.22. -/
theorem test_overflowEdge : after (fun t => place t.rx) (exec (.overflowEdge 2000000#32)
    (rxAt .running .readSpace 128 1)) = some (.overflowed, .readSpace, 128, 1) := by decide
/-- P6, both policies. -/
theorem test_done : after (fun t => place t.rx) (exec (.done 3500#32) (rxAt .running .readTimeout 74 2))
      = some (.running, .readTimeout, 74, 2)
    ∧ got place (onEdge { testParams with secondTimeout := .error } 435#32
        (rxAt .running .readTimeout 74 2).rx) = some (.stopped, .error, 74, 2) := by decide

/-! ### Segments -/

/-- What a segment leaves: line, position, last segment on the wave. -/
def emittedAt (t : State) : Bool × Phase × Fin 132 × Option Segment :=
  (t.tx.out, t.tx.phase, t.tx.seg, t.wave.getLast?)

/-- V45.1. -/
theorem test_syncMark : after emittedAt (exec .syncMark (txAt .hdrHalf 0))
    = some (true, .hdrHalf, 1, some ⟨.mark, 3500⟩) := by decide +kernel
theorem test_syncSpace : after emittedAt (exec .syncSpace (txAt .cmdHalf 1))
    = some (false, .cmdHalf, 2, some ⟨.space, 1760⟩) := by decide +kernel
theorem test_bitMark : after emittedAt (exec .bitMark (txAt .hdrHalf 2))
    = some (true, .hdrHalf, 3, some ⟨.mark, 435⟩) := by decide +kernel
/-- V45.1: bit 1 of the header is 0. -/
theorem test_zeroSpace : after emittedAt (exec .zeroSpace (txAt .hdrHalf 5))
    = some (false, .hdrHalf, 6, some ⟨.space, 435⟩) := by decide +kernel
/-- V45.1: bit 0 of the header is 1. -/
theorem test_oneSpace : after emittedAt (exec .oneSpace (txAt .hdrHalf 3))
      = some (false, .hdrHalf, 4, some ⟨.space, 1295⟩)
    ∧ exec .oneSpace (txAt .hdrHalf 5) = .refused .segmentNotDue := by
  constructor
  · decide +kernel
  · rfl
/-- V45.2. -/
theorem test_stopMark : after emittedAt (exec .stopMark (txAt .hdrHalf 130))
    = some (true, .hdrHalf, 131, some ⟨.mark, 435⟩) := by decide +kernel
/-- V45.2, V45.3. -/
theorem test_stopSpace : after emittedAt (exec .stopSpace (txAt .hdrHalf 131))
      = some (false, .halfGap, 0, some ⟨.space, 0⟩)
    ∧ after emittedAt (exec .stopSpace (txAt .cmdHalf 131))
      = some (false, .cmdGap, 0, some ⟨.space, 0⟩) := by decide +kernel
/-- V45.2. -/
theorem test_halfGap : after emittedAt (exec .halfGap (txAt .halfGap 0))
    = some (false, .cmdHalf, 0, some ⟨.space, 30000⟩) := by decide +kernel
/-- P3, V45.10: at the end of the gap the sender rests, the carrier still enabled. -/
theorem test_cmdGap : after (fun t => (t.tx.busy, t.tx.phase, t.tx.carrierEn)) (exec .cmdGap (txAt .cmdGap 0))
    = some (false, .rest, true) := by
  show after _ (exec (segInstr .cmdGap) _) = _
  rw [exec_segInstr, if_pos (show dueSegment (txAt .cmdGap 0).tx = some .cmdGap from rfl)]
  simp [after, emitted, advance, txAt]

/-! ### Frame patterns -/

/-- V42.2. -/
theorem test_hdrHalf : after (fun t => (place t.rx, t.rx.buf, t.rx.lastEdgeTime))
    (exec .hdrHalf (rxAt .running .none 0 0))
      = some ((.running, .readSpace, 64, 0), 0x885BE90F0000004E0000000000000000, 78140) := by
  decide +kernel
theorem test_cmdHalf : after (fun t => (place t.rx, t.rx.buf))
    (exec (.cmdHalf 0x123456#24) (rxAt .running .readTimeout 64 1))
      = some ((.running, .readSpace, 128, 1), 0x885BE900F1123456) := by decide +kernel
theorem test_cmdOnoff : after (fun t => (place t.rx, t.rx.buf))
    (exec .cmdOnoff (rxAt .running .readTimeout 64 1))
      = some ((.running, .readSpace, 128, 1), 0x885BE900F1800048) := by decide +kernel
theorem test_cmdFan : after (fun t => (place t.rx, t.rx.buf))
    (exec .cmdFan (rxAt .running .readTimeout 64 1))
      = some ((.running, .readSpace, 128, 1), 0x885BE900F1081084) := by decide +kernel
/-- P1, second run: the closing edge at 188010. -/
theorem test_frame :
    got (fun r => (place r, r.buf, r.lastEdgeTime))
        (receiveFrame testParams (hdrMessage testParams) (cmdMessage testParams 0x081084#24) fresh)
      = some ((.overflowed, .readSpace, 128, 1), 0x885BE90F0000004E885BE900F1081084, 188010) := by
  decide +kernel

/-- V45.1 to V45.4 and V45.6, on the whole list. -/
theorem test_sendWave : (sendWave testParams 0x800048#24).take 4
      = [⟨.mark, 3500⟩, ⟨.space, 1760⟩, ⟨.mark, 435⟩, ⟨.space, 1295⟩]
    ∧ ((sendWave testParams 0x800048#24).drop 130).take 4
      = [⟨.mark, 435⟩, ⟨.space, 0⟩, ⟨.space, 30000⟩, ⟨.mark, 3500⟩]
    ∧ (sendWave testParams 0x800048#24).length = 266
    ∧ waveTime (sendWave testParams 0x800048#24) = 187150 + 40000
    ∧ (intervals (sendWave testParams 0x800048#24)).length = 264 := by decide +kernel

/-! ### Words from outside -/

theorem test_tableWord_rx : decodeTableWord 8 1 = some (.rxTick false 0#32) := by decide
theorem test_tableWord_tx : decodeTableWord 32 0b100000000000000001001000_01
    = some (.txSend 0x800048#24) := by decide
theorem test_tableWord_half : decodeTableWord 64 0x885BE900F1081084 = some .cmdFan := by decide +kernel
theorem test_fetchWord : after (fun t => (t.rx.receiverState, t.pending))
    (step (State.reset.withFetchWord 8 2)) = some (.idle, []) := by decide
/-- R75: a half with a flipped bit in its prefix is received all the same. -/
theorem test_unlistedHalf : after (fun t => (place t.rx, t.rx.buf))
    (step ((rxAt .running .none 0 0).withFetchWord 64 0x085BE90F0000004E))
      = some ((.running, .readSpace, 64, 0), 0x085BE90F0000004E0000000000000000) := by decide +kernel
/-- R155, R156: a frame with that header half is held whole, flagged, and decoded by its body. -/
theorem test_unlistedFrame :
    got (fun r => (place r, r.buf, decodeButton testParams r))
        (receiveFrame testParams 0x085BE90F0000004E#64 (cmdMessage testParams 0x081084#24) fresh)
      = some ((.overflowed, .readSpace, 128, 1), 0x085BE90F0000004E885BE900F1081084,
          ⟨2#4, { hdrPrefix := true }⟩) := by decide +kernel

/-! ### Witnesses: states and operands that meet the hypotheses of each statement -/

/-- `s` with the input level and time of the last edge. -/
def lastEdge (s : State) (level : Bool) (now : Time) : State :=
  { s with rx := { s.rx with prevLevel := level, lastEdgeTime := now } }

/-- `s` with a buffer. -/
def holding (s : State) (buf : Frame) : State := { s with rx := { s.rx with buf := buf } }

/-- The state after `RX_RESET`. -/
def idleState : State := rxAt .idle .none 0 0

theorem witness_RxNopWritesNothing : exec .rxNop State.reset = .next State.reset := rfl

theorem witness_TerminalTickIsNoOp : (rxAt .stopped .none 0 0).rx.receiverState = .stopped
    ∧ (rxAt .timedOut .readMark 64 0).rx.receiverState = .timedOut
    ∧ (rxAt .overflowed .readSpace 128 1).rx.receiverState = .overflowed := ⟨rfl, rfl, rfl⟩

theorem witness_IdleTickStartsAFrame : idleState.rx.receiverState = .idle
    ∧ (∃ level, level = Config.params.rxActiveLevel) ∧ (∃ level, level ≠ Config.params.rxActiveLevel)
    ∧ ∃ t, exec (.rxTick Config.params.rxActiveLevel 150#32) idleState = .next t :=
  ⟨rfl, ⟨_, rfl⟩, ⟨!Config.params.rxActiveLevel, by simp⟩,
    ⟨_, by show onReceiver _ (tick _ _ _ _) = _; simp only [tick, idleState, rxAt, if_true]; rfl⟩⟩

/-- The elapsed time across the wrap of `now`: the numbers of V40.7. -/
theorem witness_RunningTickRunsTheClassifiedSymbol :
    let s := lastEdge (rxAt .running .none 0 0) true 0xFFFFFF00#32
    s.rx.receiverState = .running ∧ true = s.rx.prevLevel ∧ false ≠ s.rx.prevLevel
    ∧ (3500#32).toNat = ((0x00000CAC#32).toNat + 2 ^ 32 - s.rx.lastEdgeTime.toNat) % 2 ^ 32 := by decide

theorem witness_EdgeAfterBit128Overflows :
    (rxAt .running .readSpace 128 1).rx.receiverState = .running
    ∧ (rxAt .running .readSpace 128 1).rx.bitIndex = 128#8
    ∧ (rxAt .running .readSpace 128 1).rx.readState ≠ .error := by decide

theorem witness_EdgeAboveTheCeilingTimesOut :
    (rxAt .running .readMark 127 1).rx.receiverState = .running
    ∧ (rxAt .running .readMark 127 1).rx.bitIndex.toNat < 128 ∧ 31000 < (31001#32).toNat
    ∧ (rxAt .running .readMark 127 1).rx.readState ≠ .error ∧ (31000#32).toNat ≤ 31000 := by decide

/-- V41.1 to V41.3, V41.7 to V41.12: both ends of each window, at bit 127. -/
theorem witness_SingleSymbolPositions :
    (rxAt .running .none 127 1).rx.bitIndex.toNat < 128
    ∧ ([3300#32, 3700#32, 3299#32, 3701#32, 31000#32].map
        (fun e => classAt Config.params e (rxAt .running .none 127 1).rx)
        = [.longSpace, .longSpace, .invalid, .invalid, .invalid])
    ∧ ([1560#32, 1960#32, 1559#32, 1961#32].map
        (fun e => classAt Config.params e (rxAt .running .readStart 127 1).rx)
        = [.startMark, .startMark, .invalid, .invalid])
    ∧ ([235#32, 635#32, 234#32, 636#32].map
        (fun e => classAt Config.params e (rxAt .running .readSpace 127 1).rx)
        = [.bitSpace, .bitSpace, .invalid, .invalid]) := by decide

/-- V41.13 to V41.16, at bit 127. -/
theorem witness_BitMarksAppendOneBit :
    let s := rxAt .running .readMark 127 1
    s.rx.receiverState = .running ∧ s.rx.readState = .readMark ∧ s.rx.bitIndex.toNat < 128
    ∧ classAt Config.params 635#32 s.rx = (if false then EdgeClass.oneMark else .zeroMark)
    ∧ classAt Config.params 1095#32 s.rx = (if true then EdgeClass.oneMark else .zeroMark) := by decide

/-- V41.18, both ends, before the first and the second timeout-mark. -/
theorem witness_TimeoutMarkEndsAHalf :
    (rxAt .running .readMark 127 1).rx.bitIndex.toNat < 128
    ∧ (rxAt .running .readMark 127 1).rx.timeoutCount ≠ 3#2
    ∧ classAt Config.params 29800#32 (rxAt .running .readMark 0 0).rx = .timeoutMark
    ∧ classAt Config.params 31000#32 (rxAt .running .readMark 127 1).rx = .timeoutMark := by decide

/-- V41.20, V41.21 and P6: each clause, where they meet. -/
theorem witness_ReadTimeoutPosition :
    (rxAt .running .readTimeout 64 1).rx.bitIndex.toNat < 128
    ∧ (rxAt .running .readTimeout 64 1).rx.timeoutCount = 1#2
    ∧ (3300 ≤ (3300#32).toNat ∧ (3700#32).toNat ≤ 3700)
    ∧ ¬(3300 ≤ (3299#32).toNat ∧ (3299#32).toNat ≤ 3700)
    ∧ ¬(3300 ≤ (3701#32).toNat ∧ (3701#32).toNat ≤ 3700)
    ∧ (rxAt .running .readTimeout 127 2).rx.bitIndex.toNat < 128
    ∧ (rxAt .running .readTimeout 127 2).rx.timeoutCount = 2#2 ∧ (31000#32).toNat ≤ 31000 := by decide

/-- P2: 800 in `ReadMark`. -/
theorem witness_NoMutationAfterAnError : (rxAt .running .readMark 2 0).rx.receiverState = .running
    ∧ classAt Config.params 800#32 (rxAt .running .readMark 2 0).rx = .invalid := by decide

theorem witness_SymbolOutsideRunningIsIgnored : idleState.rx.receiverState ≠ .running := by decide

/-- The three conditions, and an edge that raises none. -/
theorem witness_ConditionPriority :
    after (fun t => t.rx.receiverState) (exec (symbolInstr 40000#32 .ceiling)
      (rxAt .running .readSpace 128 1)) = some .overflowed
    ∧ after (fun t => t.rx.receiverState) (exec (symbolInstr 31001#32 .invalid)
      (rxAt .running .readMark 64 0)) = some .timedOut
    ∧ after (fun t => t.rx.receiverState) (exec (symbolInstr 31000#32 .invalid)
      (rxAt .running .none 0 0)) = some .stopped
    ∧ after (fun t => t.rx.receiverState) (exec (symbolInstr 3500#32 .longSpace)
      (rxAt .running .none 0 0)) = some .running := by decide

theorem witness_RaisingWritesNothingElse :
    after (fun t => t.rx.terminal) (exec (symbolInstr 5#32 .overflowEdge)
      (rxAt .running .readSpace 128 1)) = some true
    ∧ after (fun t => t.rx.terminal) (exec (symbolInstr 31001#32 .ceiling)
      (rxAt .running .none 0 0)) = some true
    ∧ after (fun t => t.rx.terminal) (exec (symbolInstr 5000#32 .invalid)
      (rxAt .running .none 0 0)) = some true := by decide

theorem witness_OnlyResetLeavesATerminalState : (rxAt .timedOut .readMark 64 0).rx.terminal = true
    ∧ after State.rx (exec (.rxTick true 9#32) (rxAt .timedOut .readMark 64 0))
      = some (rxAt .timedOut .readMark 64 0).rx
    ∧ after (fun t => t.rx.receiverState) (exec .rxInit (rxAt .timedOut .readMark 64 0)) = some .idle := by
  decide

theorem witness_LifecycleTransitions :
    Instr.rxReset.side ≠ .pattern
    ∧ after (fun t => t.rx.receiverState) (exec .rxReset State.reset) = some .idle
    ∧ after (fun t => t.rx.receiverState) (exec (.rxTick false 40000#32)
        (lastEdge (rxAt .running .none 0 0) true 0#32)) = some .timedOut
    ∧ after (fun t => t.rx.receiverState)
        (exec (.rxTick Config.params.rxActiveLevel 150#32) idleState) = some .running := by
  refine ⟨by decide, by decide, by decide, ?_⟩
  show after _ (onReceiver _ (tick _ _ _ _)) = _
  simp only [tick, idleState, rxAt, if_true]
  rfl

/-- The start of the first half and of the second. -/
theorem witness_HalfPatternsAppendTheirBits :
    let a := rxAt .running .none 0 0
    let b := rxAt .running .readTimeout 64 1
    (a.rx.receiverState = .running ∧ a.rx.readState = .none
      ∧ a.rx.bitIndex.toNat + 64 ≤ 128)
    ∧ (b.rx.receiverState = .running ∧ b.rx.readState = .readTimeout
      ∧ b.rx.timeoutCount = 1#2 ∧ b.rx.bitIndex.toNat + 64 ≤ 128) := by decide

/-- The lower and the upper end of every window, for a frame of zeros and a frame of ones. -/
theorem witness_WellFormedFrameIsCollected :
    idleState.rx.receiverState = .idle ∧ idleState.rx.readState = .none ∧ idleState.rx.buf = 0#128
    ∧ idleState.rx.bitIndex = 0#8 ∧ idleState.rx.timeoutCount = 0#2
    ∧ within ((frameWindows 0#128).map (fun w => micros w.1)) (frameWindows 0#128)
    ∧ within ((frameWindows (~~~ 0#128)).map (fun w => micros w.2)) (frameWindows (~~~ 0#128)) := by
  refine ⟨rfl, rfl, rfl, rfl, rfl, ?_, ?_⟩ <;> (unfold within; decide +kernel)

/-- A row of the table with a given body, and a body in no row: nine rows cannot hold ten bodies. -/
theorem witness_rows : (∃ (k : Nat) (x : ButtonEntry), Config.buttons[k]? = some x ∧ x.body = 0x800048#24)
    ∧ ∃ body : Body, ∀ x ∈ Config.buttons, x.body ≠ body := by
  constructor
  · obtain ⟨k, hk⟩ := List.getElem?_of_mem buttons_mem.1
    exact ⟨k, _, hk, rfl⟩
  · by_contra hn
    push Not at hn
    have hl : Config.buttons.length = 9 := by
      have := buttons_ok
      simp only [buttonTableOk, Bool.and_eq_true, decide_eq_true_eq] at this
      exact this.1.1.1
    let ten : List Body := [0#24, 1#24, 2#24, 3#24, 4#24, 5#24, 6#24, 7#24, 8#24, 9#24]
    have hd : ten.Nodup := by decide
    have hs : ten ⊆ Config.buttons.map ButtonEntry.body := by
      intro b _
      obtain ⟨x, hx, hb⟩ := hn b
      exact List.mem_map.mpr ⟨x, hx, hb⟩
    have := (List.subperm_of_subset hd hs).length_le
    rw [List.length_map, hl] at this
    exact absurd this (by decide)

theorem witness_ReceivedFrameDecodesToItsButton : idleState.rx.receiverState = .idle
    ∧ idleState.rx.readState = .none ∧ idleState.rx.buf = 0#128 ∧ idleState.rx.bitIndex = 0#8
    ∧ idleState.rx.timeoutCount = 0#2 := by decide

/-- A half and a frame without a row, at the start of each half, outside `Running` and in `Idle`, and a
segment at rest. -/
theorem witness_UnlistedWordsAreReceived :
    let half : PortWord := ⟨.half, 0x085BE90F0000004E⟩
    let a := present half (rxAt .running .none 0 0)
    let b := present half (rxAt .running .readTimeout 64 1)
    let c := present half (rxAt .timedOut .readMark 3 0)
    let d := present ⟨.frame, 0x1234⟩ idleState
    let e := present ⟨.driver, 870⟩ State.reset
    (decode Config.params (decodeCtx a) half = .error .unknownHalf
      ∧ a.rx.receiverState = .running ∧ a.rx.readState = .none ∧ a.rx.bitIndex.toNat + 64 ≤ 128)
    ∧ (decode Config.params (decodeCtx b) half = .error .unknownHalf
      ∧ b.rx.receiverState = .running ∧ b.rx.readState = .readTimeout ∧ b.rx.timeoutCount = 1#2
      ∧ b.rx.bitIndex.toNat + 64 ≤ 128)
    ∧ (decode Config.params (decodeCtx c) half = .error .unknownHalf ∧ c.rx.receiverState ≠ .running)
    ∧ (decode Config.params (decodeCtx d) ⟨.frame, 0x1234⟩ = .error .unknownFrame
      ∧ d.rx.receiverState = .idle ∧ d.rx.readState = .none ∧ d.rx.buf = 0#128
      ∧ d.rx.bitIndex = 0#8 ∧ d.rx.timeoutCount = 0#2)
    ∧ decode Config.params (decodeCtx e) ⟨.driver, 870⟩ = .error .noSegmentDue := by decide +kernel

/-- One state for each lifecycle position, each meeting the invariants. -/
theorem witness_FlagsUnderTheInvariants :
    (rxAt .overflowed .readSpace 128 1).rx.Inv ∧ (rxAt .stopped .error 2 0).rx.Inv
    ∧ (rxAt .running .readSpace 128 1).rx.Inv ∧ idleState.rx.Inv
    ∧ (rxAt .timedOut .readMark 64 0).rx.Inv := by
  refine ⟨?_, ?_, ?_, ?_, ?_⟩ <;> constructor <;>
    simp [rxAt, idleState, State.reset, Receiver.reset, bufBit_zero]

theorem witness_DecodeLengthMismatch : State.reset.rx.bitIndex ≠ 128#8
    ∧ (rxAt .running .readSpace 127 1).rx.bitIndex ≠ 128#8 := by decide

/-- With the body of a row in the buffer, and with a body of no row. -/
theorem witness_DecodeResult : (rxAt .overflowed .readSpace 128 1).rx.bitIndex = 128#8
    ∧ (∃ buf, ∃ x ∈ Config.buttons, x.body = bytes3 buf 13)
    ∧ ∃ buf, ∀ x ∈ Config.buttons, x.body ≠ bytes3 buf 13 := by
  refine ⟨rfl, ⟨_, _, buttons_mem.1, (bytes3_13 0x800048#24).symm⟩, ?_⟩
  obtain ⟨b, hb⟩ := witness_rows.2
  exact ⟨_, fun x hx => by rw [bytes3_13 b]; exact hb x hx⟩

/-- A buffer that fails a comparison, and one that fails none. -/
theorem witness_StrictDecode :
    (structuralDiag Config.params 0#128).structural = true
    ∧ (structuralDiag Config.params 0x885BE90F0000004E885BE900F1800048#128).structural = false := by
  decide +kernel

theorem witness_OnoffAndFanDecode :
    bytes3 0x885BE90F0000004E885BE900F1800048#128 13 = 0x800048#24
    ∧ bytes3 0x885BE90F0000004E885BE900F1081084#128 13 = 0x081084#24 := by decide +kernel

theorem witness_AcceptedSendBuildsTheMessages : State.reset.tx.busy = false := rfl

theorem witness_MessageBitOrder : (0 : Nat) < 64 ∧ (63 : Nat) < 64 := by decide

theorem witness_ConstructRestsTheLine : State.reset.tx.busy = false
    ∧ (txAt .halfGap 0).tx.busy = true := ⟨rfl, rfl⟩

theorem witness_BusySenderIgnoresOperations : (txAt .halfGap 0).tx.busy = true
    ∧ (Instr.txConstruct = .txConstruct) ∧ ∃ body, Instr.txSend 0#24 = .txSend body :=
  ⟨rfl, rfl, ⟨_, rfl⟩⟩

/-- Each clause at its position; the bits at their first and last index. -/
theorem witness_DriverSteps :
    ((txAt .hdrHalf 0).tx.phase = .hdrHalf ∧ (txAt .cmdHalf 0).tx.phase = .cmdHalf)
    ∧ (txAt .hdrHalf 2).tx.seg.val = 2 + 2 * 0 ∧ (txAt .hdrHalf 128).tx.seg.val = 2 + 2 * 63
    ∧ ((txAt .hdrHalf 3).tx.seg.val = 3 + 2 * 0 ∧ (txAt .hdrHalf 3).tx.hdrMsg.getMsbD 0 = true)
    ∧ ((txAt .hdrHalf 129).tx.seg.val = 3 + 2 * 63 ∧ (txAt .hdrHalf 129).tx.hdrMsg.getMsbD 63 = false)
    ∧ (txAt .cmdHalf 130).tx.seg.val = 130 ∧ (txAt .cmdHalf 131).tx.seg.val = 131
    ∧ ((txAt .halfGap 0).tx.phase = .halfGap ∧ (txAt .halfGap 0).tx.seg = 0)
    ∧ ((txAt .cmdGap 0).tx.phase = .cmdGap ∧ (txAt .cmdGap 0).tx.seg = 0) := by decide +kernel

theorem witness_NoOtherDriverStep : dueSegment (txAt .hdrHalf 0).tx = some .syncMark
    ∧ dueSegment (txAt .hdrHalf 0).tx ≠ some .cmdGap ∧ State.reset.tx.phase = .rest := by
  decide +kernel

theorem witness_SendEmitsItsWaveform : State.reset.tx.busy = false ∧ State.reset.pending = [] :=
  ⟨rfl, rfl⟩

/-- The fastest and the slowest cadence of the law. -/
theorem witness_LoopbackRoundTrip :
    idleState.rx.receiverState = .idle ∧ idleState.rx.readState = .none ∧ idleState.rx.buf = 0#128
    ∧ idleState.rx.bitIndex = 0#8 ∧ idleState.rx.timeoutCount = 0#2
    ∧ ∀ (body : Body) (t0 : Nat), ∀ T ∈ [1, 200], 0 < T ∧ T ≤ 200
      ∧ ∃ n, t0 + (waveTime (sendWave Config.params body) - Config.params.tCmdGap) ≤ n * T := by
  refine ⟨rfl, rfl, rfl, rfl, rfl, ?_⟩
  intro body t0 T hT
  have h : 0 < T ∧ T ≤ 200 := by
    simp only [List.mem_cons, List.not_mem_nil, or_false] at hT
    omega
  exact ⟨h.1, h.2, _, Nat.le_mul_of_pos_right _ h.1⟩

theorem witness_EveryStepKeepsTheInvariants : State.reset.rx.Inv
    ∧ State.reset.tx.Inv ∧ step State.reset = .next State.reset := by
  refine ⟨?_, ?_, rfl⟩ <;> constructor <;>
    simp [State.reset, Receiver.reset, Sender.reset, bufBit_zero]

/-- In the middle of a transmission the sender's invariant has content, and the driver steps. -/
theorem witness_EveryStepKeepsTheInvariants_sending : (txAt .hdrHalf 0).tx.Inv
    ∧ ∃ t, step (txAt .hdrHalf 0) = .next t := by
  constructor
  · constructor <;> simp [txAt]
  · exact ⟨_, step_driver rfl rfl⟩

theorem witness_InstructionsCompleteUnderTheInvariants : idleState.rx.Inv
    ∧ (Instr.frame 0x800048#24).side ≠ .segment := by
  refine ⟨?_, by decide⟩
  constructor <;> simp [rxAt, idleState, State.reset, Receiver.reset, bufBit_zero]

/-- One instruction of each agent. -/
theorem witness_ComponentsAreSeparate :
    (Instr.rxReset.onReceiver = true ∧ ∃ t, exec .rxReset State.reset = .next t)
    ∧ (Instr.txConstruct.onSender = true ∧ Instr.txConstruct.side = .senderOp
      ∧ ∃ t, exec .txConstruct State.reset = .next t)
    ∧ (Instr.rxDecode.side = .query ∧ ∃ t, exec .rxDecode State.reset = .next t) :=
  ⟨⟨rfl, _, rfl⟩, ⟨rfl, rfl, _, rfl⟩, ⟨rfl, _, rfl⟩⟩

theorem witness_ComponentStepsCommute : Instr.rxReset.onReceiver = true
    ∧ Instr.txReserved.onSender = true
    ∧ (∃ s1 s2, exec .rxReset State.reset = .next s1 ∧ exec .txReserved s1 = .next s2)
    ∧ ∃ s1 s2, exec .txReserved State.reset = .next s1 ∧ exec .rxReset s1 = .next s2 :=
  ⟨rfl, rfl, ⟨_, _, rfl, rfl⟩, ⟨_, _, rfl, rfl⟩⟩

/-- Each field changes somewhere. -/
theorem witness_WritersOfEachField :
    after (fun t => t.rx.lastEdgeTime) (exec (.rxTick false 3500#32)
      (lastEdge (rxAt .running .none 0 0) true 0#32)) = some 3500#32
    ∧ after (fun t => (t.rx.timeoutCount, t.rx.receiverState, t.rx.readState))
      (exec .rxReset (rxAt .timedOut .readMark 64 1)) = some (0#2, .idle, .none)
    ∧ after (fun t => t.tx.cmdMsg) (exec (.txSend 0x123456#24) State.reset)
      = some 0x885BE900F1123456#64
    ∧ after (fun t => t.tx.carrierEn) (exec (.txSend 0#24) State.reset) = some true
    ∧ after (fun t => (t.tx.out, t.tx.phase, t.tx.seg)) (exec .syncMark (txAt .hdrHalf 0))
      = some (true, .hdrHalf, 1) := by decide +kernel

/-- `busy` falls at the end of the inter-command gap. -/
theorem witness_WritersOfEachField_busy : (txAt .cmdGap 0).tx.busy = true
    ∧ after (fun t => t.tx.busy) (exec .cmdGap (txAt .cmdGap 0)) = some false := by
  refine ⟨rfl, ?_⟩
  have := test_cmdGap
  cases h : exec .cmdGap (txAt .cmdGap 0) with
  | next t => rw [h] at this; simp only [after, Option.some.injEq, Prod.mk.injEq] at this ⊢; exact this.1
  | fault f => rw [h] at this; cases this
  | refused w => rw [h] at this; cases this

theorem witness_HiddenReceiverStateIsNotRead : idleState.rx.receiverState ≠ .running
    ∧ idleState.rx.receiverState = .idle
    ∧ (Instr.rxTick Config.params.rxActiveLevel 150#32).startsFrame
    ∧ after (fun t => t.rx.receiverState)
        (exec (.rxTick Config.params.rxActiveLevel 150#32) idleState) = some .running
    ∧ State.reset.rx.receiverState ≠ .running ∧ ¬Instr.rxReset.startsFrame
    ∧ after (fun t => t.rx.receiverState) (exec .rxReset State.reset) = some .idle := by
  refine ⟨by decide, by decide, .inl ⟨_, rfl⟩, ?_, by decide, ?_, by decide⟩
  swap
  · rintro (⟨_, h⟩ | ⟨_, h⟩) <;> cases h
  show after _ (onReceiver _ (tick _ _ _ _)) = _
  simp only [tick, idleState, rxAt, if_true]
  rfl

theorem witness_MessageRegistersAreNotReadAtRest : State.reset.tx.phase = .rest
    ∧ after (fun t => t.tx.phase) (exec (.txSend 0#24) State.reset) = some .hdrHalf
    ∧ after (fun t => t.tx.phase) (exec .txConstruct State.reset) = some .rest := by decide

/-- A word that is an instruction, one that is none, a driver's step, and rest. -/
theorem witness_StepRunsTheDecodedInstruction :
    (present ⟨.rx, 2⟩ State.reset).pending = ⟨.rx, 2⟩ :: []
    ∧ decode Config.params (decodeCtx (present ⟨.rx, 2⟩ State.reset)) ⟨.rx, 2⟩ = .ok .rxReset
    ∧ decode Config.params (decodeCtx (present ⟨.half, 0⟩ State.reset)) ⟨.half, 0⟩
      = .error .unknownHalf
    ∧ (txAt .hdrHalf 0).pending = [] ∧ dueSegment (txAt .hdrHalf 0).tx = some .syncMark
    ∧ State.reset.pending = [] ∧ State.reset.tx.phase = .rest := by decide +kernel

theorem witness_PresentedTableWordRunsNext : decodeTableWord 8 3 = some .rxInit := by decide

/-- An instruction of each port, with a context in which its word stands for it. -/
theorem witness_DecodeOfEncode :
    let c : DecodeCtx := ⟨64, .readTimeout, 1, some .oneSpace⟩
    ∀ i ∈ [Instr.rxTick true 0xFFFFFFFF#32, .txSend 0xFFFFFF#24, .rxDecode, .longSpace 3300#32,
        .invalid 3299#32, .ceiling 31001#32, .oneSpace, .cmdHalf 0#24, .frame 0x800048#24],
      i.wellFormed = true ∧ i.expectedIn c = true := by decide +kernel

theorem witness_DecodedInstructionsAreWellFormed :
    decode Config.params resetCtx ⟨.symbol, 3700⟩ = .ok (.longSpace 3700#32) := by decide

end Sys2Proof.Tests
end

section
/-!
SUPPORT. Words that are no row of the table: on which ports the decoder names them, and the step
that takes one (spec/30_encoding.md R75, R76; spec/45_tx_waveform.md R187).
-/
namespace Sys2Proof.Machine

/-! ### The decoder's rejections -/

/-- Which port a rejection of the decoder comes from: the half's, the frame's or the driver's. -/
theorem decode_error_cases {p : Params} {c : DecodeCtx} {w : PortWord} {why : Reject}
    (h : decode p c w = .error why) :
    (w.port = .half ∧ why = .unknownHalf)
    ∨ (w.port = .frame ∧ why = .unknownFrame)
    ∨ (w.port = .driver ∧ (why = .noSegmentDue ∨ why = .notTheDueSegment)) := by
  unfold decode at h
  cases hport : w.port <;> simp only [hport] at h
  case rx => unfold decodeRx at h; split at h <;> cases h
  case tx => unfold decodeTx at h; split at h <;> cases h
  case hasData => cases h
  case isError => cases h
  case decoded => cases h
  case symbol => cases h
  case driver =>
    unfold decodeDriver at h
    split at h
    · cases h; simp
    · split at h <;> cases h; simp
  case half =>
    simp only [decodeHalf] at h
    repeat' split at h
    all_goals cases h
    simp
  case frame =>
    simp only [decodeFrame] at h
    split at h <;> cases h
    simp

/-- The two halves that `FRAMERX` takes from a frame's bits, put together again (R60). -/
theorem fieldOf_append_halves (bits : Nat) :
    fieldOf bits 64 64 ++ fieldOf bits 0 64 = BitVec.ofNat 128 bits := by
  apply BitVec.eq_of_getLsbD_eq
  intro i hi
  simp only [BitVec.getLsbD_append, fieldOf, BitVec.getLsbD_ofNat, Nat.testBit_div_two_pow]
  by_cases h : i < 64
  · simp [h, hi]
  · simp [h, hi, show i - 64 < 64 by omega, show i - 64 + 64 = i by omega]

/-! ### The step that takes such a word -/

section
variable {s : State} {w : PortWord} {rest : List PortWord} {why : Reject}
variable (hp : s.pending = w :: rest) (hd : decode Config.params (decodeCtx s) w = .error why)
include hp hd

/-- A presented word without a row is taken as `takeUnlisted` says. -/
theorem step_unlisted : step s = takeUnlisted why w.bits { s with pending := rest } := by
  rw [step_presented hp, hd]

/-- A half without a row is received with the bits presented (R75, R76). -/
theorem step_unlistedHalf (hw : w.port = .half) :
    step s = onReceiver { s with pending := rest }
      (receiveHalf Config.params (fieldOf w.bits 0 64) s.rx) := by
  rw [step_unlisted hp hd]
  rcases decode_error_cases hd with ⟨_, rfl⟩ | ⟨h, _⟩ | ⟨h, _⟩
  · rfl
  all_goals cases hw.symm.trans h

/-- A frame without a row is received as its two halves (R75, R76). -/
theorem step_unlistedFrame (hw : w.port = .frame) :
    step s = onReceiver { s with pending := rest }
      (receiveFrame Config.params (fieldOf w.bits 64 64) (fieldOf w.bits 0 64) s.rx) := by
  rw [step_unlisted hp hd]
  rcases decode_error_cases hd with ⟨h, _⟩ | ⟨_, rfl⟩ | ⟨h, _⟩
  · cases hw.symm.trans h
  · rfl
  · cases hw.symm.trans h

/-- The driver has no step but the due segment's (R187). -/
theorem step_unlistedDriver (hw : w.port = .driver) : step s = .refused .segmentNotDue := by
  rw [step_unlisted hp hd]
  rcases decode_error_cases hd with ⟨h, _⟩ | ⟨h, _⟩ | ⟨_, rfl | rfl⟩
  · cases hw.symm.trans h
  · cases hw.symm.trans h
  · rfl
  · rfl

end

/-- Settles O54: the decoder rejects on three ports only, and what the receiver makes of any half and
of any frame is `receiveHalf_start`, `runEdges_not_running` and `receiveFrame_idle`. -/
theorem unlistedWordsAreReceived : Obligations.UnlistedWordsAreReceived := by
  unfold Obligations.UnlistedWordsAreReceived
  intro s w rest why hp hd
  refine ⟨?ports, ?halfElsewhere, ?halfAtStart, ?frameAfterReset, step_unlistedDriver hp hd⟩
  case ports =>
    rcases decode_error_cases hd with ⟨h, _⟩ | ⟨h, _⟩ | ⟨h, _⟩ <;> simp [h]
  case halfElsewhere =>
    intro hw hr
    rw [step_unlistedHalf hp hd hw, receiveHalf, runEdges_not_running hr]
    rfl
  case halfAtStart =>
    intro hw hr hpos hb
    obtain ⟨hbits, hframe⟩ := bufBit_appendHalf (fieldOf w.bits 0 64) s.rx.buf _ hb
    have hidx : (BitVec.ofNat 8 (s.rx.bitIndex.toNat + 64)).toNat = s.rx.bitIndex.toNat + 64 := by
      rw [BitVec.toNat_ofNat, Nat.mod_eq_of_lt (by omega)]
    rw [step_unlistedHalf hp hd hw, receiveHalf_start _ _ hr hpos hb]
    refine ⟨_, rfl, hr, rfl, hidx, ?_, hframe, rfl, rfl, rfl, rfl, rfl, rfl⟩
    simpa [fieldOf] using hbits
  case frameAfterReset =>
    intro hw hr hpos hbuf hb ht
    rw [step_unlistedFrame hp hd hw, receiveFrame_idle _ _ _ hr hpos hbuf hb ht,
      fieldOf_append_halves]
    exact ⟨_, rfl, rfl, rfl, rfl, rfl, rfl, rfl, rfl, rfl, rfl, rfl, rfl, rfl⟩

end Sys2Proof.Machine
end

section
/-!
SUPPORT. What the decoder makes of a half by the message it carries (spec/30_encoding.md R61), and
the words written out from the encodings.
-/
namespace Sys2Proof.Machine

theorem decode_half_hdrMessage (c : DecodeCtx) {w : Nat}
    (h : fieldOf w 0 64 = hdrMessage Config.params) :
    decode Config.params c ⟨.half, w⟩ = .ok .hdrHalf := if_pos h

theorem decode_half_cmdFan (c : DecodeCtx) {w : Nat}
    (h : fieldOf w 0 64 = cmdMessage Config.params Config.params.bodyFan) :
    decode Config.params c ⟨.half, w⟩ = .ok .cmdFan := by
  have hne : Config.params.bodyFan ≠ Config.params.bodyOnoff := by decide
  simp only [decode, decodeHalf, h]
  rw [if_neg (cmd_ne_hdr _), if_neg (fun e => hne (cmd_inj e)), if_pos trivial]

/-- A command half whose body has no row of its own. -/
theorem decode_half_cmdMessage (c : DecodeCtx) {w : Nat} {body : Body}
    (h : fieldOf w 0 64 = cmdMessage Config.params body)
    (honoff : body ≠ Config.params.bodyOnoff) (hfan : body ≠ Config.params.bodyFan) :
    decode Config.params c ⟨.half, w⟩ = .ok (.cmdHalf body) := by
  simp only [decode, decodeHalf, h, cmd_extract]
  rw [if_neg (cmd_ne_hdr _), if_neg (fun e => honoff (cmd_inj e)),
    if_neg (fun e => hfan (cmd_inj e)), if_pos trivial]

/-- A half that is neither the header half nor a command half whatever its body. -/
theorem decode_half_unknownHalf (c : DecodeCtx) {w : Nat}
    (hhdr : fieldOf w 0 64 ≠ hdrMessage Config.params)
    (hcmd : ∀ body, fieldOf w 0 64 ≠ cmdMessage Config.params body) :
    decode Config.params c ⟨.half, w⟩ = .error .unknownHalf := by
  simp only [decode, decodeHalf]
  rw [if_neg hhdr, if_neg (hcmd _), if_neg (hcmd _), if_neg (hcmd _)]

/-- R61: the first 40 bits of every command half are the same whatever the body. -/
theorem cmdMessage_first40 (body : Body) :
    (cmdMessage Config.params body).extractLsb' 24 40 = 0x885BE900F1#40 := by
  rw [cmdMsg_eq, BitVec.extractLsb'_append_eq_left]

/-- Settles O50: the operands by the decoder's laws for `RX_TICK` and `TX_SEND`, the halves by the
message they carry. -/
theorem wordsFromTheEncodings : Obligations.WordsFromTheEncodings := by
  unfold Obligations.WordsFromTheEncodings
  intro c
  refine ⟨rfl, rfl, decodeRx_tick true 3500#32, rfl, rfl, decodeTx_send 0x800048#24, rfl, rfl,
    decode_half_hdrMessage c (by decide), decode_half_cmdFan c (by decide),
    decode_half_cmdMessage c (cmdHalf_field 0x123456#24) (by decide) (by decide),
    decode_half_unknownHalf c (by decide) fun body h => ?_⟩
  have hfirst := cmdMessage_first40 body
  rw [← h] at hfirst
  exact absurd hfirst (by decide)

end Sys2Proof.Machine
end

section
/-!
SUPPORT. The sampling operations that start no frame: `RX_NOP`, a tick in a terminal state, and
`RX_RESET` (spec/40_rx_sampling.md R90, R91, R96).
-/
namespace Sys2Proof.Machine

/-! ### `RX_NOP` -/

theorem exec_rxNop (s : State) : exec .rxNop s = .next s := rfl

/-- Settles O3: the only next state of `RX_NOP` is the state itself, so whatever comes after it
starts where it started. -/
theorem rxNopWritesNothing : Obligations.RxNopWritesNothing := by
  unfold Obligations.RxNopWritesNothing
  intro s i
  refine ⟨exec_rxNop s, fun t ht => ?_⟩
  rw [exec_rxNop] at ht
  cases ht
  rfl

/-! ### `RX_TICK` in a terminal state -/

/-- R9: the terminal states by name. -/
theorem terminal_iff (r : Receiver) : r.terminal = true ↔
    r.receiverState = .stopped ∨ r.receiverState = .timedOut ∨ r.receiverState = .overflowed := by
  cases h : r.receiverState <;> simp [Receiver.terminal, h]

theorem exec_rxTick (level : Bool) (now : Time) (s : State) :
    exec (.rxTick level now) s = onReceiver s (tick Config.params level now s.rx) := rfl

theorem exec_rxTick_terminal {s : State} (h : s.rx.terminal = true) (level : Bool) (now : Time) :
    exec (.rxTick level now) s = .next s := by
  rw [exec_rxTick, tick_terminal h]
  rfl

/-- Settles O4: the three states are the terminal ones, where one tick writes nothing
(`tick_terminal`) and so no list of ticks does (`runTicks_terminal`). -/
theorem terminalTickIsNoOp : Obligations.TerminalTickIsNoOp := by
  unfold Obligations.TerminalTickIsNoOp
  intro s hstate
  have hterminal : s.rx.terminal = true := (terminal_iff s.rx).mpr hstate
  exact ⟨exec_rxTick_terminal hterminal, fun ts => runTicks_terminal ts s hterminal⟩

/-! ### `RX_RESET` -/

theorem exec_rxReset (s : State) :
    exec .rxReset s = .next { s with rx := softReset s.rx } := rfl

@[simp] theorem softReset_softReset (r : Receiver) : softReset (softReset r) = softReset r := rfl

@[simp] theorem hasData_softReset (r : Receiver) : hasData (softReset r) = false := by
  simp [hasData]

@[simp] theorem isError_softReset (r : Receiver) : isError (softReset r) = false := by
  simp [isError]

/-- No bit stands in the buffer, so the reading is `Unknown` with `LEN` alone (R153). -/
theorem decodeButton_softReset (r : Receiver) :
    decodeButton Config.params (softReset r) = ⟨0#4, { len := true }⟩ :=
  decode_short _ _ (by simp)

/-- Settles O7: the state after `RX_RESET` is `softReset` of the receiver, whose buffer is zero, whose
outputs are those of `Idle` without bits, and which a second `softReset` leaves as it is. -/
theorem rxResetClearsTheFrame : Obligations.RxResetClearsTheFrame := by
  unfold Obligations.RxResetClearsTheFrame
  intro s
  refine ⟨_, exec_rxReset s, rfl, ?bits, hasData_softReset s.rx, isError_softReset s.rx,
    decodeButton_softReset s.rx, ?twice⟩
  case bits =>
    intro i _
    rw [softReset_buf, bufBit_zero]
  case twice =>
    rw [exec_rxReset, softReset_softReset]

end Sys2Proof.Machine
end

section
/-!
SUPPORT. Steps 1 and 2 of `onEdge`: the edge after the last bit and the edge above the ceiling
(spec/41_rx_classifier.md R112, R113).
-/
namespace Sys2Proof.Machine

/-! ### When each of the two classes is answered -/

theorem classAt_eq_overflowEdge_iff (e : Time) (r : Receiver) :
    classAt Config.params e r = .overflowEdge ↔ r.bitIndex = 128#8 := by
  rw [classAt, edgeClass_eq]
  split
  case isTrue hfull => simp [hfull]
  case isFalse hfull =>
    split
    · simp [hfull]
    · simp [hfull, (classify_ne r.readState r.timeoutCount e).1]

theorem classAt_eq_ceiling_iff (e : Time) (r : Receiver) :
    classAt Config.params e r = .ceiling ↔ r.bitIndex ≠ 128#8 ∧ 31000 < e.toNat := by
  rw [classAt, edgeClass_eq]
  split
  case isTrue hfull => simp [hfull]
  case isFalse hfull =>
    split
    case isTrue habove => simp [hfull, habove]
    case isFalse habove => simp [habove, (classify_ne r.readState r.timeoutCount e).2]

/-! ### What the edge writes -/

/-- The companion of `onEdge_full` for step 2. -/
theorem onEdge_aboveCeiling {r : Receiver} {e : Time} (hb : r.bitIndex ≠ 128#8)
    (he : 31000 < e.toNat) :
    onEdge Config.params e r = .ok { r with receiverState := .timedOut } := by
  rw [onEdge_eq_applyClass, (classAt_eq_ceiling_iff e r).mpr ⟨hb, he⟩]
  rfl

/-- In `Running` a symbol, named as any class, answers the state with what its edge makes of the
receiver. -/
theorem exec_symbolInstr_next {s : State} {e : Time} {r : Receiver}
    (hr : s.rx.receiverState = .running) (hedge : onEdge Config.params e s.rx = .ok r)
    (c : EdgeClass) : exec (symbolInstr e c) s = .next { s with rx := r } := by
  rw [exec_symbolInstr, if_pos hr, hedge]
  rfl

/-! ### The two flags -/

/-- R150 -/
theorem hasData_overflowed {r : Receiver} (hr : r.receiverState = .overflowed)
    (hb : r.bitIndex = 128#8) : hasData r = true := by
  simp [hasData, hr, hb]

/-- R150 -/
theorem hasData_of_not_full {r : Receiver} (hb : r.bitIndex ≠ 128#8) : hasData r = false := by
  simp [hasData, hb]

/-- R151 -/
theorem isError_eq_false_iff (r : Receiver) :
    isError r = false ↔ r.readState ≠ .error ∧ r.receiverState ≠ .stopped := by
  simp [isError]

/-! ### The obligations -/

/-- Settles O9: step 1 looks at `bitIndex` alone, so every symbol is `onEdge_full`'s edge. -/
theorem edgeAfterBit128Overflows : Obligations.EdgeAfterBit128Overflows := by
  unfold Obligations.EdgeAfterBit128Overflows
  intro s e hrunning hfull
  have hexec := exec_symbolInstr_next hrunning (onEdge_full e hfull)
  exact ⟨(classAt_eq_overflowEdge_iff e s.rx).mpr hfull, _, rfl, hexec .overflowEdge, hexec,
    hasData_overflowed rfl hfull, fun hread => (isError_eq_false_iff _).mpr ⟨hread, nofun⟩⟩

/-- Settles O10: with fewer than 128 bits step 1 passes, and step 2 looks at the duration alone, so
every symbol is `onEdge_aboveCeiling`'s edge. -/
theorem edgeAboveTheCeilingTimesOut : Obligations.EdgeAboveTheCeilingTimesOut := by
  unfold Obligations.EdgeAboveTheCeilingTimesOut
  refine ⟨fun s e hrunning hbits habove => ?above, fun r e hle hclass => ?atMost⟩
  case above =>
    have hb : s.rx.bitIndex ≠ 128#8 := ne_full hbits
    have hexec := exec_symbolInstr_next hrunning (onEdge_aboveCeiling hb habove)
    exact ⟨(classAt_eq_ceiling_iff e s.rx).mpr ⟨hb, habove⟩, _, rfl, hexec .ceiling, hexec,
      hasData_of_not_full hb, fun hread => (isError_eq_false_iff _).mpr ⟨hread, nofun⟩⟩
  case atMost =>
    obtain ⟨_, habove⟩ := (classAt_eq_ceiling_iff e r).mp hclass
    omega

end Sys2Proof.Machine
end

section
/-!
SUPPORT. The frame assembler, position by position: an edge of the class that the position names, what
it makes of the receiver, and the two flags after it (spec/42_rx_frame_assembler.md R130 to R137, R141).
-/
namespace Sys2Proof.Machine

/-! ### An edge of a known class -/

/-- Steps 1 and 2 pass: the position alone decides the class. -/
theorem classAt_eq_classify {r : Receiver} {e : Time} (hb : r.bitIndex.toNat < 128)
    (he : e.toNat ≤ 31000) :
    classAt Config.params e r = classify Config.params r.readState r.timeoutCount e := by
  rw [classAt, edgeClass_eq, if_neg (ne_full hb), if_neg (Nat.not_lt.mpr he)]

/-- In `Running` the instruction of the edge's own class has that class's effect on the receiver. -/
theorem exec_symbolInstr_classAt {s : State} {e : Time} {c : EdgeClass} {r : Receiver}
    (hr : s.rx.receiverState = .running) (hclass : classAt Config.params e s.rx = c)
    (heffect : applyClass Config.params c s.rx = .ok r) :
    exec (symbolInstr e c) s = .next { s with rx := r } := by
  refine exec_symbolInstr_next hr ?_ c
  rw [onEdge_eq_applyClass, hclass, heffect]

/-- R137: the state after an edge that no position expects. -/
theorem exec_invalid_next {s : State} {e : Time} (hr : s.rx.receiverState = .running)
    (hclass : classAt Config.params e s.rx = .invalid) :
    exec (.invalid e) s =
      .next { s with rx := { s.rx with readState := .error, receiverState := .stopped } } :=
  exec_symbolInstr_classAt hr hclass rfl

/-- R133, R134: below bit 128 the append succeeds. -/
theorem applyBit_of_not_full {r : Receiver} (b : Bool) (hb : r.bitIndex.toNat < 128) :
    applyBit b r = .ok { r with
      buf := setBufBit r.buf r.bitIndex.toNat b
      bitIndex := r.bitIndex + 1#8
      readState := .readSpace } := by
  have happend : appendBit b r = .ok { r with
      buf := setBufBit r.buf r.bitIndex.toNat b, bitIndex := r.bitIndex + 1#8 } := if_pos hb
  rw [applyBit, happend]

/-- R135: the count's unused value 3 is the only one at which a timeout-mark faults. -/
theorem applyTimeoutMark_of_ne_three {r : Receiver} (ht : r.timeoutCount ≠ 3#2) :
    applyTimeoutMark r = .ok { r with
      timeoutCount := r.timeoutCount + 1#2, readState := .readTimeout } :=
  if_neg ht

/-! ### The two flags -/

/-- R150: a receiver that still collects has no data. -/
theorem hasData_running {r : Receiver} (hr : r.receiverState = .running) : hasData r = false := by
  simp [hasData, hr]

/-- R151: outside `Stopped` the flag is the position's. -/
theorem isError_running {r : Receiver} (hr : r.receiverState = .running)
    (hp : r.readState ≠ .error) : isError r = false :=
  (isError_eq_false_iff r).mpr ⟨hp, by simp [hr]⟩

/-- An edge that stays in `Running` and raises no `Error` leaves both flags. -/
theorem flags_eq_of_running {r r' : Receiver} (hr : r.receiverState = .running)
    (hp : r.readState ≠ .error) (hr' : r'.receiverState = .running) (hp' : r'.readState ≠ .error) :
    hasData r' = hasData r ∧ isError r' = isError r := by
  rw [hasData_running hr, hasData_running hr', isError_running hr hp, isError_running hr' hp']
  exact ⟨rfl, rfl⟩

/-! ### The single-symbol positions and the bit marks -/

/-- A position that knows one symbol `c` and goes on to `next` by it (R130, R131, R132): what `c` does,
and what any other class does. -/
theorem exec_singleSymbol {s : State} {e : Time} {c : EdgeClass} {next : ReadState}
    (hr : s.rx.receiverState = .running) (hp : s.rx.readState ≠ .error) (hnext : next ≠ .error)
    (heffect : applyClass Config.params c s.rx = .ok { s.rx with readState := next })
    (hclasses : classAt Config.params e s.rx = c ∨ classAt Config.params e s.rx = .invalid) :
    (classAt Config.params e s.rx = c → ∃ t, exec (symbolInstr e c) s = .next t
      ∧ t = { s with rx := { s.rx with readState := next } }
      ∧ hasData t.rx = hasData s.rx ∧ isError t.rx = isError s.rx)
    ∧ (classAt Config.params e s.rx ≠ c → exec (.invalid e) s =
        .next { s with rx := { s.rx with readState := .error, receiverState := .stopped } }) :=
  ⟨fun hclass => ⟨_, exec_symbolInstr_classAt hr hclass heffect, rfl,
      flags_eq_of_running hr hp hr hnext⟩,
    fun hclass => exec_invalid_next hr (hclasses.resolve_left hclass)⟩

/-- R133, R134: a bit mark of either kind appends its bit and goes back to `ReadSpace`. -/
theorem exec_zeroMark_oneMark_next {s : State} {e : Time} {b : Bool}
    (hr : s.rx.receiverState = .running) (hbits : s.rx.bitIndex.toNat < 128)
    (hclass : classAt Config.params e s.rx = (if b then .oneMark else .zeroMark)) :
    exec (if b then .oneMark e else .zeroMark e) s = .next { s with rx := { s.rx with
      buf := setBufBit s.rx.buf s.rx.bitIndex.toNat b
      bitIndex := s.rx.bitIndex + 1#8
      readState := .readSpace } } := by
  cases b
  case false => exact exec_symbolInstr_classAt hr hclass (applyBit_of_not_full false hbits)
  case true => exact exec_symbolInstr_classAt hr hclass (applyBit_of_not_full true hbits)

/-! ### The obligations -/

/-- Settles O11: each of the three positions has one window, so the class is its symbol or `INVALID`,
and `exec_singleSymbol` says what either does. -/
theorem singleSymbolPositions : Obligations.SingleSymbolPositions := by
  unfold Obligations.SingleSymbolPositions
  intro s e hr hbits hle
  have hclass := classAt_eq_classify hbits hle
  refine ⟨fun hp => ?none, fun hp => ?readStart, fun hp => ?readSpace⟩
  case none =>
    rw [hp, classify_none] at hclass
    exact exec_singleSymbol (c := .longSpace) hr (by simp [hp]) nofun rfl
      (hclass ▸ ite_eq_or_eq _ _ _)
  case readStart =>
    rw [hp, classify_readStart] at hclass
    exact exec_singleSymbol (c := .startMark) hr (by simp [hp]) nofun rfl
      (hclass ▸ ite_eq_or_eq _ _ _)
  case readSpace =>
    rw [hp, classify_readSpace] at hclass
    exact exec_singleSymbol (c := .bitSpace) hr (by simp [hp]) nofun rfl
      (hclass ▸ ite_eq_or_eq _ _ _)

/-- Settles O12: the new buffer is `setBufBit` of the old one
(`exec_zeroMark_oneMark_next`), read back by `bufBit_setBufBit`; `byteAt_bit` says which bit of which byte that is. -/
theorem bitMarksAppendOneBit : Obligations.BitMarksAppendOneBit := by
  unfold Obligations.BitMarksAppendOneBit
  intro s e b hr hp hbits hclass
  have hread : ∀ j, j < 128 → bufBit (setBufBit s.rx.buf s.rx.bitIndex.toNat b) j =
      if j = s.rx.bitIndex.toNat then b else bufBit s.rx.buf j :=
    fun j hj => bufBit_setBufBit s.rx.buf s.rx.bitIndex.toNat j b hbits hj
  have hnew := (hread _ hbits).trans (if_pos rfl)
  obtain ⟨hdata, herror⟩ := flags_eq_of_running (r := s.rx)
    (r' := { s.rx with
      buf := setBufBit s.rx.buf s.rx.bitIndex.toNat b
      bitIndex := s.rx.bitIndex + 1#8
      readState := .readSpace }) hr (by simp [hp]) hr nofun
  exact ⟨_, exec_zeroMark_oneMark_next hr hbits hclass, hnew, (byteAt_bit _ _ hbits).trans hnew,
    fun j hj hne => (hread j hj).trans (if_neg hne), bitIndex_succ hbits, rfl, hr, rfl, rfl, rfl,
    hdata, herror, rfl, rfl, rfl, rfl⟩

/-- Settles O13: the class fixes the effect, and a count below 3 does not wrap. -/
theorem timeoutMarkEndsAHalf : Obligations.TimeoutMarkEndsAHalf := by
  unfold Obligations.TimeoutMarkEndsAHalf
  intro s e hr hp _ ht hclass
  have hcount : (s.rx.timeoutCount + 1#2).toNat = s.rx.timeoutCount.toNat + 1 := by bv_omega
  exact ⟨_, exec_symbolInstr_classAt hr hclass (applyTimeoutMark_of_ne_three ht), rfl, hcount,
    flags_eq_of_running hr (by simp [hp]) hr nofun⟩

/-- Settles O15: the edge ends in `Stopped`, where `is_error` is set, `has_data` is not, and no list of
ticks changes anything (`runTicks_terminal`). -/
theorem noMutationAfterAnError : Obligations.NoMutationAfterAnError := by
  unfold Obligations.NoMutationAfterAnError
  intro s e hr hclass
  exact ⟨_, exec_invalid_next hr hclass, rfl, rfl, rfl, fun ts => runTicks_terminal ts _ rfl⟩

end Sys2Proof.Machine
end

section
/-!
SUPPORT. What the three queries answer: the note of the output's value, and that value as a
condition on the receiver's record (spec/43_rx_validator.md R150, R151, R153).
-/
namespace Sys2Proof.Machine

theorem exec_rxHasdata (s : State) :
    exec .rxHasdata s = .next (noteReading (.hasData (hasData s.rx)) s) := rfl

theorem exec_rxIserror (s : State) :
    exec .rxIserror s = .next (noteReading (.isError (isError s.rx)) s) := rfl

theorem exec_rxDecode (s : State) :
    exec .rxDecode s = .next (noteReading (.decoded (decodeButton Config.params s.rx).button
      (decodeButton Config.params s.rx).diag.word) s) := rfl

/-- R150 -/
theorem hasData_eq_true_iff (r : Receiver) :
    hasData r = true ↔
      (r.receiverState = .timedOut ∨ r.receiverState = .overflowed) ∧ r.bitIndex = 128#8 := by
  simp only [hasData, Bool.and_eq_true, Bool.or_eq_true, decide_eq_true_eq]
  rw [params_frameEnd]

/-- R151 -/
theorem isError_eq_true_iff (r : Receiver) :
    isError r = true ↔ r.readState = .error ∨ r.receiverState = .stopped := by
  simp [isError]

/-- R73: `LEN` is bit 0 of the port `diag`. -/
theorem word_len_alone : ({ len := true } : Diag).word = 0b0000001#7 := rfl

/-- R153 -/
theorem exec_rxDecode_short {s : State} (hbits : s.rx.bitIndex ≠ 128#8) :
    exec .rxDecode s = .next (noteReading (.decoded 0#4 0b0000001#7) s) := by
  rw [exec_rxDecode, decode_short Config.params s.rx (by simpa using hbits), word_len_alone]

/-! ### The obligations -/

/-- Settles O24: the note holds `hasData` of the receiver, and a note changes neither component. -/
theorem hasDataReading : Obligations.HasDataReading := by
  unfold Obligations.HasDataReading
  intro s
  exact ⟨_, hasData s.rx, exec_rxHasdata s, noteReading_lastRead _ s, hasData_eq_true_iff s.rx,
    noteReading_rx _ s, noteReading_tx _ s, noteReading_wave _ s, noteReading_pending _ s,
    noteReading_turnedAway _ s⟩

/-- Settles O25: the note holds `isError` of the receiver, and a note changes neither component. -/
theorem isErrorReading : Obligations.IsErrorReading := by
  unfold Obligations.IsErrorReading
  intro s
  exact ⟨_, isError s.rx, exec_rxIserror s, noteReading_lastRead _ s, isError_eq_true_iff s.rx,
    noteReading_rx _ s, noteReading_tx _ s, noteReading_wave _ s, noteReading_pending _ s,
    noteReading_turnedAway _ s⟩

/-- Settles O27: the length check answers before the buffer is looked at (`decode_short`). -/
theorem decodeLengthMismatch : Obligations.DecodeLengthMismatch := by
  unfold Obligations.DecodeLengthMismatch
  intro s hbits
  exact ⟨_, exec_rxDecode_short hbits, noteReading_lastRead _ s, noteReading_rx _ s,
    noteReading_tx _ s, noteReading_wave _ s, noteReading_pending _ s⟩

end Sys2Proof.Machine
end

section
/-!
SUPPORT. The two messages on the wire and the request that builds them: the fields of the frame they
make, where its bits stand in its bytes, and the state after an accepted `TX_SEND`
(spec/44_tx_bitstream.md R171 to R174, spec/45_tx_waveform.md R186).
-/
namespace Sys2Proof.Machine

/-! ### The fields and the bits of the frame -/

/-- R154: the five comparisons that the flags `diag` report, all of them passed. -/
theorem structuralDiag_eq_clear_iff (p : Params) (buf : Frame) :
    structuralDiag p buf = {} ↔
      bytes3 buf 0 = p.framePrefix ∧ bytes2 buf 3 = p.hdrBegin ∧ bytes3 buf 5 = p.hdrBody
      ∧ bytes3 buf 8 = p.framePrefix ∧ bytes2 buf 11 = p.cmdBegin := by
  simp [structuralDiag]

/-- R174: a bit of either half, at its place in the bytes of the frame of both. -/
theorem byteAt_halves_bit (a b : Half) {i : Nat} (hi : i < 64) :
    (byteAt (a ++ b) (i / 8)).getLsbD (7 - i % 8) = msgBit a i
    ∧ (byteAt (a ++ b) (8 + i / 8)).getLsbD (7 - i % 8) = msgBit b i := by
  obtain ⟨hfirst, hsecond⟩ := halves_bit a b i hi
  have hbyte : (64 + i) / 8 = 8 + i / 8 := by omega
  have hplace : (64 + i) % 8 = i % 8 := by omega
  have hbit := byteAt_bit (a ++ b) (64 + i) (by omega)
  rw [hbyte, hplace] at hbit
  exact ⟨(byteAt_bit (a ++ b) i (by omega)).trans hfirst, hbit.trans hsecond⟩

/-- Settles O33: the two messages make the frame of R60, whose fields are those the receiver compares
(`structural_ok`) and the body (`bytes3_13`); its bits are those of the two halves. -/
theorem messageBitOrder : Obligations.MessageBitOrder := by
  unfold Obligations.MessageBitOrder
  intro body hdr cmd
  have hframe : hdr ++ cmd = 0x885BE90F0000004E885BE900F1#104 ++ body := frameWord_eq body
  have hfields : structuralDiag Config.params (hdr ++ cmd) = {} := by
    rw [hframe, structural_ok]
  obtain ⟨hpre, hbegin, hbody, cpre, cbegin⟩ := (structuralDiag_eq_clear_iff _ _).mp hfields
  refine ⟨hpre, hbegin, hbody, cpre, cbegin, ?lastBody, fun i hi => ?bits⟩
  case lastBody =>
    rw [hframe, bytes3_13]
  case bits =>
    obtain ⟨hfirst, hsecond⟩ := halves_bit hdr cmd i hi
    exact ⟨hfirst, hsecond, byteAt_halves_bit hdr cmd hi⟩

/-! ### The accepted request -/

/-- R186, steps 1 to 3, by a sender that is not busy. -/
theorem exec_txSend_accepted {s : State} (h : s.tx.busy = false) (body : Body) :
    exec (.txSend body) s = .next { s with tx := acceptSend Config.params body s.tx } :=
  if_neg (by simp [h])

/-- R171: the header message has 20 one bits and 44 zero bits. -/
theorem hdrMessage_bitCounts :
    (msgBits (hdrMessage Config.params)).count true = 20
    ∧ (msgBits (hdrMessage Config.params)).count false = 44 := by
  decide

/-- Settles O32: the next state is `acceptSend`'s, field by field, with the two messages as numbers. -/
theorem acceptedSendBuildsTheMessages : Obligations.AcceptedSendBuildsTheMessages := by
  unfold Obligations.AcceptedSendBuildsTheMessages
  intro s body hidle
  obtain ⟨hones, hzeros⟩ := hdrMessage_bitCounts
  exact ⟨_, exec_txSend_accepted hidle body, hdrMsg_eq, hones, hzeros, cmdMsg_eq body,
    acceptSend_busy _ _ _, acceptSend_carrierEn _ _ _, acceptSend_phase _ _ _, acceptSend_seg _ _ _,
    acceptSend_out _ _ _, rfl, rfl, rfl, rfl⟩

end Sys2Proof.Machine
end

section
/-!
SUPPORT. `TX_CONSTRUCT`: by a sender at rest it is `construct`, and a busy sender turns it away
(spec/45_tx_waveform.md R185, R188).
-/
namespace Sys2Proof.Machine

/-- R185, by a sender that is not busy. -/
theorem exec_txConstruct_idle {s : State} (h : s.tx.busy = false) :
    exec .txConstruct s = .next { s with tx := construct s.tx } :=
  if_neg (by simp [h])

/-- R188, D20. -/
theorem exec_txConstruct_busy {s : State} (h : s.tx.busy = true) :
    exec .txConstruct s = .next (turnAway .senderBusy s) :=
  if_pos h

/-- R185: after power-on the line rests already. -/
theorem construct_reset : construct Sender.reset = Sender.reset := rfl

/-- R185, after power-on. -/
theorem exec_txConstruct_reset : exec .txConstruct State.reset = .next State.reset := by
  have hrest : construct State.reset.tx = State.reset.tx := construct_reset
  rw [exec_txConstruct_idle rfl, hrest]

/-- Settles O34: the two cases are those of `busy`; an idle sender's next state is `construct`'s, and a
busy one's differs in the Host's note alone. -/
theorem constructRestsTheLine : Obligations.ConstructRestsTheLine := by
  unfold Obligations.ConstructRestsTheLine
  refine ⟨exec_txConstruct_reset, fun s => ⟨fun hidle => ?idle, fun hbusy => ?busy⟩⟩
  case idle => exact exec_txConstruct_idle hidle
  case busy =>
    exact ⟨_, exec_txConstruct_busy hbusy, turnAway_tx _ s, turnAway_rx _ s⟩

end Sys2Proof.Machine
end

section
/-!
SUPPORT. Conditions and the way back from them: what raising one writes, which edges raise one, and
what each kind of instruction does to a receiver in a terminal state (spec/60_exceptions.md R207, R208).
-/
namespace Sys2Proof.Machine

/-! ### Raising a condition -/

/-- R207: the two fields that `raise` writes. -/
theorem raise_frame (k : Condition) (r : Receiver) : raise k r = { r with
    receiverState := (raise k r).receiverState, readState := (raise k r).readState } := by
  cases k <;> rfl

theorem raise_readState_of_stopped {k : Condition} {r : Receiver}
    (h : (raise k r).receiverState = .stopped) : (raise k r).readState = .error := by
  cases k
  case unrecognizedSymbol => exact raise_unrecognizedSymbol_readState r
  case midFrameSilence => simp at h
  case overflow => simp at h

theorem raise_readState_of_not_stopped {k : Condition} {r : Receiver}
    (h : (raise k r).receiverState ≠ .stopped) : (raise k r).readState = r.readState := by
  cases k
  case unrecognizedSymbol => simp at h
  case midFrameSilence => exact raise_midFrameSilence_readState r
  case overflow => exact raise_overflow_readState r

/-! ### The edges that raise one -/

/-- R10, R207: apart from raising a condition no edge writes `receiverState`. -/
theorem onEdge_raises_or_keeps {e : Time} {r r' : Receiver} (h : onEdge Config.params e r = .ok r') :
    (∃ k, r' = raise k r) ∨ r'.receiverState = r.receiverState := by
  have raises (k) (hE : onEdge Config.params e r = .ok (raise k r)) : ∃ k, r' = raise k r :=
    ⟨k, Except.ok.inj (h.symm.trans hE)⟩
  have keeps {r₁} (hE : onEdge Config.params e r = .ok r₁)
      (hkept : r₁.receiverState = r.receiverState) : r'.receiverState = r.receiverState :=
    Except.ok.inj (hE.symm.trans h) ▸ hkept
  obtain ⟨_, hE⟩ | ⟨_, _, hE⟩ | ⟨_, _, hrow⟩ | ⟨_, _, _, hE⟩ := onEdge_cases e r
  · exact .inl (raises .overflow hE)
  · exact .inl (raises .midFrameSilence hE)
  · obtain ⟨_, _, _, hE⟩ | ⟨_, _, _, hE⟩ | ⟨_, _, _, hE⟩ | ⟨_, _, _, _, hE⟩ | ⟨_, _, _, hE⟩
      | ⟨_, _, _, _, hE⟩ | ⟨_, hE⟩ | ⟨_, hE⟩ | ⟨_, _, hE⟩ := hrow
    iterate 7 exact .inr (keeps hE rfl)
    · exact .inl (raises .unrecognizedSymbol hE)
    · cases hE.symm.trans h
  · cases hE.symm.trans h

theorem not_running_of_terminal {r : Receiver} (h : r.terminal = true) :
    r.receiverState ≠ .running := by
  intro hr
  simp [Receiver.terminal, hr] at h

/-- R207: a symbol in `Running` that ends in a terminal state has raised a condition. -/
theorem exec_symbolInstr_raised {s t : State} {e : Time} {c : EdgeClass}
    (hr : s.rx.receiverState = .running) (hnext : exec (symbolInstr e c) s = .next t)
    (hterminal : t.rx.terminal = true) : ∃ k, t = { s with rx := raise k s.rx } := by
  rw [exec_symbolInstr, if_pos hr] at hnext
  obtain ⟨r, hedge, rfl⟩ := onReceiver_next.mp hnext
  obtain ⟨k, rfl⟩ | hkept := onEdge_raises_or_keeps hedge
  · exact ⟨k, rfl⟩
  · exact absurd (hkept.trans hr) (not_running_of_terminal hterminal)

/-! ### Each kind of instruction in a terminal state -/

/-- R91, R92: outside `Running` no edge is classified. -/
theorem exec_symbolInstr_not_running {s : State} (h : s.rx.receiverState ≠ .running) (e : Time)
    (c : EdgeClass) : exec (symbolInstr e c) s = .next s := by
  rw [exec_symbolInstr, if_neg h]
  rfl

theorem exec_rxInit (s : State) :
    exec .rxInit s = .next { s with rx := softReset s.rx } := rfl

theorem exec_receiverOp_terminal {i : Instr} {s : State} (hi : i.side = .receiverOp)
    (hreset : i ≠ .rxReset) (hinit : i ≠ .rxInit) (hterminal : s.rx.terminal = true) :
    exec i s = .next s := by
  cases i <;> simp [Instr.side] at hi
  case rxNop => exact exec_rxNop s
  case rxTick level now => exact exec_rxTick_terminal hterminal level now
  case rxReset => exact absurd rfl hreset
  case rxInit => exact absurd rfl hinit

/-- R208: an instruction of any agent, other than the two resets. -/
theorem exec_terminal_keeps_rx {i : Instr} {s t : State} (hterminal : s.rx.terminal = true)
    (hreset : i ≠ .rxReset) (hinit : i ≠ .rxInit) (hnext : exec i s = .next t) : t.rx = s.rx := by
  cases hside : i.side
  case receiverOp =>
    cases (exec_receiverOp_terminal hside hreset hinit hterminal).symm.trans hnext
    rfl
  case symbol =>
    obtain ⟨c, e, rfl⟩ := symbol_cases i hside
    cases (exec_symbolInstr_not_running (not_running_of_terminal hterminal) e c).symm.trans hnext
    rfl
  case pattern => rw [exec_pattern_terminal i hside s t hterminal hnext]
  case senderOp | segment | query =>
    exact rx_of_not_receiver i (by simp [Instr.onReceiver, hside]) s t hnext

theorem exec_rxReset_or_rxInit {i : Instr} (hi : i = .rxReset ∨ i = .rxInit) (s : State) :
    exec i s = .next { s with rx := softReset s.rx } := by
  obtain rfl | rfl := hi
  · exact exec_rxReset s
  · exact exec_rxInit s

/-! ### The obligations -/

/-- Settles O18: the next state is `raise` of the receiver (`exec_symbolInstr_raised`), which writes two
fields (`raise_frame`); it is terminal, so no list of ticks changes it (`runTicks_terminal`). -/
theorem raisingWritesNothingElse : Obligations.RaisingWritesNothingElse := by
  unfold Obligations.RaisingWritesNothingElse
  intro s t e c hr hnext hterminal
  have hticks (ts) : runTicks ts t = .next t := runTicks_terminal ts t hterminal
  obtain ⟨k, rfl⟩ := exec_symbolInstr_raised hr hnext hterminal
  refine ⟨?frame, raise_readState_of_stopped, raise_readState_of_not_stopped, hticks⟩
  case frame => exact congrArg (fun r => { s with rx := r }) (raise_frame k s.rx)

/-- Settles O19: the two resets are `softReset` of the receiver, and every other instruction keeps it,
whichever agent's it is (`exec_terminal_keeps_rx`). -/
theorem onlyResetLeavesATerminalState : Obligations.OnlyResetLeavesATerminalState := by
  unfold Obligations.OnlyResetLeavesATerminalState
  intro s t i hterminal hnext
  refine ⟨fun hreset hinit => exec_terminal_keeps_rx hterminal hreset hinit hnext, fun hi => ?resets⟩
  case resets =>
    cases (exec_rxReset_or_rxInit hi s).symm.trans hnext
    exact ⟨softReset_receiverState _, softReset_readState _, softReset_buf _, softReset_bitIndex _,
      softReset_timeoutCount _⟩

end Sys2Proof.Machine
end

section
/-!
SUPPORT. Each agent's instructions by what they are: the receiver's functions, the sender's operations
and the queries, so that the statements over all instructions split by agent and not by constructor
(spec/20_memory.md R51).
-/
namespace Sys2Proof.Machine

/-! ### The receiver's operations and patterns -/

theorem receiverOp_cases {i : Instr} (hi : i.side = .receiverOp) :
    i = .rxNop ∨ (∃ level now, i = .rxTick level now) ∨ i = .rxReset ∨ i = .rxInit := by
  cases i <;> simp [Instr.side] at hi ⊢

/-- A frame pattern is a half of some message, or a `FRAME`. -/
theorem pattern_cases {i : Instr} (hi : i.side = .pattern) :
    (∃ m, ∀ s, exec i s = onReceiver s (receiveHalf Config.params m s.rx))
    ∨ ∃ body, i = .frame body := by
  cases i <;> simp [Instr.side] at hi
  case hdrHalf => exact .inl ⟨hdrMessage Config.params, fun _ => rfl⟩
  case cmdHalf body => exact .inl ⟨cmdMessage Config.params body, fun _ => rfl⟩
  case cmdOnoff => exact .inl ⟨cmdMessage Config.params Config.params.bodyOnoff, fun _ => rfl⟩
  case cmdFan => exact .inl ⟨cmdMessage Config.params Config.params.bodyFan, fun _ => rfl⟩
  case frame body => exact .inr ⟨body, rfl⟩

theorem exec_frame (body : Body) (s : State) : exec (.frame body) s = onReceiver s
    (receiveFrame Config.params (hdrMessage Config.params) (cmdMessage Config.params body) s.rx) := rfl

/-! ### The sender's operations -/

theorem exec_txNop (s : State) : exec .txNop s = .next s := rfl

theorem exec_txReserved (s : State) : exec .txReserved s = .next (turnAway .reservedOp s) := rfl

/-- R188, D20. -/
theorem exec_txSend_busy {s : State} (h : s.tx.busy = true) (body : Body) :
    exec (.txSend body) s = .next (turnAway .senderBusy s) :=
  if_pos h

/-- Everything a sender's operation can do: nothing, a note, an accepted request, or the line's rest. -/
theorem exec_senderOp_cases {i : Instr} (hi : i.side = .senderOp) (s : State) :
    exec i s = .next s
    ∨ (∃ why, exec i s = .next (turnAway why s))
    ∨ (∃ body, i = .txSend body ∧ s.tx.busy = false
        ∧ exec i s = .next { s with tx := acceptSend Config.params body s.tx })
    ∨ (i = .txConstruct ∧ s.tx.busy = false ∧ exec i s = .next { s with tx := construct s.tx }) := by
  cases hbusy : s.tx.busy <;> cases i <;> simp [Instr.side] at hi
  case false.txNop | true.txNop => exact .inl (exec_txNop s)
  case false.txReserved | true.txReserved => exact .inr (.inl ⟨_, exec_txReserved s⟩)
  case true.txSend body => exact .inr (.inl ⟨_, exec_txSend_busy hbusy body⟩)
  case true.txConstruct => exact .inr (.inl ⟨_, exec_txConstruct_busy hbusy⟩)
  case false.txSend body => exact .inr (.inr (.inl ⟨body, rfl, rfl, exec_txSend_accepted hbusy body⟩))
  case false.txConstruct => exact .inr (.inr (.inr ⟨rfl, rfl, exec_txConstruct_idle hbusy⟩))

/-! ### The queries -/

/-- The receiver with other values in the two fields that R30 leaves unspecified. -/
def withLastEdge (level : Bool) (time : Time) (r : Receiver) : Receiver :=
  { r with prevLevel := level, lastEdgeTime := time }

/-- A query notes the reading of the receiver that it is. No reading depends on the previous sample or
the last edge time (R150 to R152). -/
theorem exec_query {i : Instr} (hi : i.side = .query) :
    ∃ read : Receiver → Reading, (∀ s, exec i s = .next (noteReading (read s.rx) s))
      ∧ ∀ r level time, read (withLastEdge level time r) = read r := by
  cases i <;> simp [Instr.side] at hi
  case rxHasdata => exact ⟨fun r => .hasData (hasData r), exec_rxHasdata, fun _ _ _ => rfl⟩
  case rxIserror => exact ⟨fun r => .isError (isError r), exec_rxIserror, fun _ _ _ => rfl⟩
  case rxDecode => exact ⟨fun r => .decoded (decodeButton Config.params r).button
    (decodeButton Config.params r).diag.word, exec_rxDecode, fun _ _ _ => rfl⟩

end Sys2Proof.Machine
end

section
/-!
SUPPORT. The invariants of R27 and of the sender under every instruction and every step
(spec/10_state.md section 5).
-/
namespace Sys2Proof.Machine

/-! ### The receiver under its instructions -/

/-- Under R27 a receiver's instruction completes, and R27 holds after it. -/
theorem exec_onReceiver_inv {i : Instr} {s : State} (hi : i.onReceiver = true) (hinv : s.rx.Inv) :
    ∃ r, exec i s = .next { s with rx := r } ∧ r.Inv := by
  have lift {res : Except Fault Receiver} (hexec : exec i s = onReceiver s res)
      (hres : ∃ r, res = .ok r ∧ r.Inv) : ∃ r, exec i s = .next { s with rx := r } ∧ r.Inv := by
    obtain ⟨r, rfl, hr⟩ := hres
    exact ⟨r, hexec, hr⟩
  cases hside : i.side
  case receiverOp =>
    obtain rfl | ⟨level, now, rfl⟩ | rfl | rfl := receiverOp_cases hside
    · exact ⟨s.rx, exec_rxNop s, hinv⟩
    · exact lift (exec_rxTick level now s) (tick_inv hinv level now)
    · exact ⟨_, exec_rxReset s, softReset_inv s.rx⟩
    · exact ⟨_, exec_rxInit s, softReset_inv s.rx⟩
  case symbol =>
    obtain ⟨c, e, rfl⟩ := symbol_cases i hside
    refine lift (exec_symbolInstr c e s) ?_
    split
    case isTrue hrunning => exact onEdge_inv hinv hrunning e
    case isFalse => exact ⟨s.rx, rfl, hinv⟩
  case pattern =>
    obtain ⟨m, hhalf⟩ | ⟨body, rfl⟩ := pattern_cases hside
    · exact lift (hhalf s) (runEdges_inv (halfDurations Config.params m) hinv)
    · exact lift (exec_frame body s) (receiveFrame_inv _ _ hinv)
  case senderOp | segment | query => simp [Instr.onReceiver, hside] at hi

/-! ### The sender under its instructions -/

theorem acceptSend_inv (body : Body) (t : Sender) : (acceptSend Config.params body t).Inv where
  busyPhase := by simp
  gapSeg := by simp
  restLine := by simp
  sending := fun _ => ⟨rfl, rfl, body, rfl⟩

theorem construct_inv {t : Sender} (hidle : t.busy = false) : (construct t).Inv where
  busyPhase := by simp [hidle]
  gapSeg := by simp
  restLine := by simp
  sending := by simp [hidle]

/-- Only an accepted request, a rest and a due segment write the sender. -/
theorem exec_onSender_inv {i : Instr} {s t : State} (hi : i.onSender = true) (hinv : s.tx.Inv)
    (hnext : exec i s = .next t) : t.tx.Inv := by
  cases hside : i.side
  case senderOp =>
    obtain h | ⟨why, h⟩ | ⟨body, _, _, h⟩ | ⟨_, hidle, h⟩ := exec_senderOp_cases hside s
      <;> cases h.symm.trans hnext
    · exact hinv
    · exact hinv
    · exact acceptSend_inv body s.tx
    · exact construct_inv hidle
  case segment =>
    obtain ⟨k, rfl⟩ := segment_cases i hside
    obtain ⟨hdue, rfl⟩ := segInstr_next hnext
    exact emitted_inv hinv hdue
  case receiverOp | symbol | pattern | query => simp [Instr.onSender, hside] at hi

/-! ### Every instruction and every step -/

theorem exec_inv {i : Instr} {s t : State} (hinv : s.Inv) (hnext : exec i s = .next t) : t.Inv := by
  obtain ⟨hrx, htx⟩ := hinv
  obtain hi | hi | hi := side_cases i
  · obtain ⟨r, h, hr⟩ := exec_onReceiver_inv hi hrx
    cases h.symm.trans hnext
    exact ⟨hr, htx⟩
  · refine ⟨?_, exec_onSender_inv hi htx hnext⟩
    obtain ⟨_, _, _, rfl, _⟩ := exec_onSender i hi s t hnext
    exact hrx
  · obtain ⟨v, rfl⟩ := query_next i hi s t hnext
    exact ⟨hrx, htx⟩

theorem takeUnlisted_keeps_inv {why : Reject} {bits : Nat} {s t : State} (hinv : s.Inv)
    (hnext : takeUnlisted why bits s = .next t) : t.Inv := by
  obtain ⟨r, h, hr⟩ | h := takeUnlisted_inv why bits hinv.rx <;> cases h.symm.trans hnext
  exact ⟨hr, hinv.tx⟩

/-- Settles O41: a step is an instruction (`exec_inv`) or an unlisted word (`takeUnlisted_keeps_inv`), in
the state without the word, which has the same two components. -/
theorem everyStepKeepsTheInvariants : Obligations.EveryStepKeepsTheInvariants := by
  unfold Obligations.EveryStepKeepsTheInvariants
  intro s t hinv hstep
  have htaken : (takeWord s).Inv := ⟨hinv.rx, hinv.tx⟩
  unfold step at hstep
  split at hstep
  · exact exec_inv hinv hstep
  · split at hstep
    · exact exec_inv htaken hstep
    · exact takeUnlisted_keeps_inv htaken hstep

/-- Settles O2: `Stopped` and `None` with an empty buffer, and a sender at rest. -/
theorem powerOnMeetsTheInvariants : Obligations.PowerOnMeetsTheInvariants := by
  unfold Obligations.PowerOnMeetsTheInvariants
  constructor <;> constructor <;> simp [State.reset, Receiver.reset, Sender.reset, bufBit_zero]

/-- Settles O42: a receiver's instruction completes under R27 (`exec_onReceiver_inv`), a sender's
operation and a query in every state, and a segment is refused or completes. -/
theorem instructionsCompleteUnderTheInvariants :
    Obligations.InstructionsCompleteUnderTheInvariants := by
  unfold Obligations.InstructionsCompleteUnderTheInvariants
  intro s i hinv
  by_cases hside : i.side = .segment
  · obtain ⟨k, rfl⟩ := segment_cases i hside
    refine ⟨fun f hfault => ?_, fun hne => absurd hside hne⟩
    rw [exec_segInstr] at hfault
    split at hfault <;> cases hfault
  · have hcompletes : ∃ t, exec i s = .next t := by
      cases h : i.side
      case receiverOp | symbol | pattern =>
        obtain ⟨r, hr, _⟩ := exec_onReceiver_inv (i := i) (by simp [Instr.onReceiver, h]) hinv
        exact ⟨_, hr⟩
      case senderOp =>
        obtain h | ⟨_, h⟩ | ⟨_, _, _, h⟩ | ⟨_, _, h⟩ := exec_senderOp_cases h s
          <;> exact ⟨_, h⟩
      case query =>
        obtain ⟨read, h, _⟩ := exec_query h
        exact ⟨_, h s⟩
      case segment => exact absurd h hside
    refine ⟨fun f hfault => ?_, fun _ => hcompletes⟩
    obtain ⟨t, ht⟩ := hcompletes
    cases ht.symm.trans hfault

/-- Settles O26: items 3, 5, 6 and 7 with the conditions of R150 and R151. -/
theorem flagsUnderTheInvariants : Obligations.FlagsUnderTheInvariants := by
  unfold Obligations.FlagsUnderTheInvariants
  intro r hinv
  have notFull (h : r.bitIndex.toNat < 128) : r.bitIndex ≠ 128#8 := ne_full h
  have hdata : hasData r = true ↔ r.receiverState = .overflowed := by
    rw [hasData_eq_true_iff]
    constructor
    · rintro ⟨htimed | hover, hfull⟩
      · exact absurd hfull (notFull (hinv.item5 htimed))
      · exact hover
    · exact fun hover => ⟨.inr hover, hinv.item6 hover⟩
  have herror : isError r = true ↔ r.receiverState = .stopped := by
    rw [isError_eq_true_iff]
    exact ⟨fun h => h.elim hinv.item3a id, .inr⟩
  refine ⟨hdata, herror, fun ⟨hd, he⟩ => ?both, fun hfull => ?full⟩
  case both => cases (hdata.mp hd).symm.trans (herror.mp he)
  case full =>
    cases hlife : r.receiverState
    case running => exact .inl rfl
    case overflowed => exact .inr rfl
    case stopped => exact absurd hfull (notFull (hinv.item7 hlife))
    case timedOut => exact absurd hfull (notFull (hinv.item5 hlife))
    case idle =>
      obtain ⟨_, hempty, _⟩ := hinv.item4 hlife
      cases hempty.symm.trans hfull

end Sys2Proof.Machine
end

section
/-!
SUPPORT. Decode and encode, port by port: what the decoder makes of each encoded word, and what it
accepts on each port (spec/30_encoding.md).
-/
namespace Sys2Proof.Machine

/-! ### The decoder on the encoder's words -/

theorem encode_symbolInstr (e : Time) (k : EdgeClass) :
    encode Config.params (symbolInstr e k) = ⟨.symbol, e.toNat⟩ := by
  cases k <;> rfl

theorem encode_segInstr (k : SegKind) :
    encode Config.params (segInstr k) = ⟨.driver, segmentBits (segmentOf Config.params k)⟩ := by
  cases k <;> rfl

theorem expectedIn_segInstr_iff (c : DecodeCtx) (k : SegKind) :
    (segInstr k).expectedIn c = true ↔ c.due = some k := by
  cases k <;> exact decide_eq_true_iff

theorem wellFormed_segInstr (k : SegKind) : (segInstr k).wellFormed = true := by
  cases k <;> rfl

theorem decode_driver_due {c : DecodeCtx} {k : SegKind} (hdue : c.due = some k) :
    decode Config.params c ⟨.driver, segmentBits (segmentOf Config.params k)⟩ = .ok (segInstr k) := by
  simp [decode, decodeDriver, hdue]

theorem decode_half_cmdOnoff (c : DecodeCtx) {w : Nat}
    (h : fieldOf w 0 64 = cmdMessage Config.params Config.params.bodyOnoff) :
    decode Config.params c ⟨.half, w⟩ = .ok .cmdOnoff := by
  simp only [decode, decodeHalf, h]
  rw [if_neg (cmd_ne_hdr _), if_pos trivial]

theorem decode_frame_frameWord (c : DecodeCtx) {w : Nat} {body : Body}
    (h : fieldOf w 0 128 = frameWord Config.params body) :
    decode Config.params c ⟨.frame, w⟩ = .ok (.frame body) := by
  simp only [decode, decodeFrame, h, frame_extract]
  rw [if_pos trivial]

/-- Settles O51: the decoder on a symbol's word is `symbol_complete`, on a segment's `decode_driver_due`;
the words of the operations hold their operands and those of the patterns their messages. -/
theorem decodeOfEncode : Obligations.DecodeOfEncode := by
  unfold Obligations.DecodeOfEncode
  intro i c hwf hexp
  cases hside : i.side
  case receiverOp =>
    obtain rfl | ⟨level, now, rfl⟩ | rfl | rfl := receiverOp_cases hside
    · rfl
    · exact decodeRx_tick level now
    · rfl
    · rfl
  case senderOp =>
    cases i <;> simp [Instr.side] at hside
    case txSend body => exact decodeTx_send body
    case txNop | txConstruct | txReserved => rfl
  case query =>
    cases i <;> simp [Instr.side] at hside <;> rfl
  case symbol =>
    obtain ⟨k, e, rfl⟩ := symbol_cases i hside
    rw [encode_symbolInstr, symbol_decode, symbol_complete c e k hwf hexp]
  case segment =>
    obtain ⟨k, rfl⟩ := segment_cases i hside
    rw [encode_segInstr, decode_driver_due ((expectedIn_segInstr_iff c k).mp hexp)]
  case pattern =>
    cases i <;> simp [Instr.side] at hside
    case hdrHalf => exact decode_half_hdrMessage c (by decide)
    case cmdOnoff => exact decode_half_cmdOnoff c (by decide)
    case cmdFan => exact decode_half_cmdFan c (by decide)
    case frame body => exact decode_frame_frameWord c (frame_field body)
    case cmdHalf body =>
      simp only [Instr.wellFormed, Bool.and_eq_true, decide_eq_true_eq] at hwf
      obtain ⟨honoff, hfan⟩ := hwf
      exact decode_half_cmdMessage c (cmdHalf_field body) honoff hfan

/-- Settles O52: the decoder answers the class of the duration at the position, which is well formed and
expected there (`symbolInstr_sound`) and the only symbol that is both (`symbol_complete`). -/
theorem edgesAreClassedByTheTable : Obligations.EdgesAreClassedByTheTable := by
  unfold Obligations.EdgesAreClassedByTheTable
  intro c e k
  rw [symbol_decode]
  constructor
  · intro h
    rw [← Except.ok.inj h]
    exact symbolInstr_sound c e
  · rintro ⟨hwf, hexp⟩
    rw [symbol_complete c e k hwf hexp]

/-! ### What the decoder accepts -/

/-- R61: a command half is accepted as `CMD_HALF` only if its body has no row of its own. -/
theorem decodeHalf_ok {w : Nat} {i : Instr} (h : decodeHalf Config.params w = .ok i) :
    i = .hdrHalf ∨ i = .cmdOnoff ∨ i = .cmdFan
    ∨ ∃ body, i = .cmdHalf body ∧ body ≠ Config.params.bodyOnoff
        ∧ body ≠ Config.params.bodyFan := by
  simp only [decodeHalf] at h
  split at h
  · cases h
    simp
  split at h
  · cases h
    simp
  case isFalse hne_onoff =>
  split at h
  · cases h
    simp
  case isFalse hne_fan =>
  split at h
  case isFalse => cases h
  case isTrue hcmd =>
    cases h
    rw [hcmd] at hne_onoff hne_fan
    exact .inr (.inr (.inr ⟨_, rfl, fun h => hne_onoff (congrArg _ h),
      fun h => hne_fan (congrArg _ h)⟩))

/-- Settles O53: on the symbol port by `symbolInstr_sound`, on the driver's because only the due segment
is accepted, on the half's by `decodeHalf_ok`; the other rows are well formed and expected everywhere. -/
theorem decodedInstructionsAreWellFormed : Obligations.DecodedInstructionsAreWellFormed := by
  unfold Obligations.DecodedInstructionsAreWellFormed
  rintro c ⟨port, w⟩ i h
  cases port
  case rx =>
    change decodeRx w = .ok i at h
    unfold decodeRx at h
    split at h <;> cases h <;> exact ⟨rfl, rfl⟩
  case tx =>
    change decodeTx w = .ok i at h
    unfold decodeTx at h
    split at h <;> cases h <;> exact ⟨rfl, rfl⟩
  case hasData | isError | decoded =>
    cases h
    exact ⟨rfl, rfl⟩
  case symbol =>
    cases h
    exact symbolInstr_sound c (fieldOf w 0 32)
  case driver =>
    change decodeDriver Config.params c w = .ok i at h
    unfold decodeDriver at h
    split at h
    · cases h
    case h_2 k hdue =>
      split at h <;> cases h
      exact ⟨wellFormed_segInstr k, (expectedIn_segInstr_iff c k).mpr hdue⟩
  case half =>
    obtain rfl | rfl | rfl | ⟨body, rfl, honoff, hfan⟩ := decodeHalf_ok h
    iterate 3 exact ⟨rfl, rfl⟩
    · refine ⟨?_, rfl⟩
      simp only [Instr.wellFormed, Bool.and_eq_true, decide_eq_true_eq]
      exact ⟨honoff, hfan⟩
  case frame =>
    change decodeFrame Config.params w = .ok i at h
    simp only [decodeFrame] at h
    split at h <;> cases h
    exact ⟨rfl, rfl⟩

end Sys2Proof.Machine
end

section
/-!
SUPPORT. What a step runs: the word presented, the driver's segment, or nothing (spec/20_memory.md
R51, spec/45_tx_waveform.md R187).
-/
namespace Sys2Proof.Machine

theorem dueSegment_rest {t : Sender} (h : t.phase = .rest) : dueSegment t = none := by
  simp [dueSegment, h]

/-- Settles O48: the three sources of a step, in the order of `fetch`. -/
theorem stepRunsTheDecodedInstruction : Obligations.StepRunsTheDecodedInstruction := by
  unfold Obligations.StepRunsTheDecodedInstruction
  intro s
  refine ⟨fun w rest i hp hd => ?listed, fun w rest why hp hd => step_unlisted hp hd,
    fun k hp hdue => ?driver, fun hp hrest => step_rest hp (dueSegment_rest hrest)⟩
  case listed => rw [step_presented hp, hd]
  case driver => rw [step_driver hp hdue, exec_segInstr, if_pos hdue]

/-- Only the symbol port and the driver's read the context. -/
theorem decode_ctx_irrelevant {w : PortWord} (hsymbol : w.port ≠ .symbol) (hdriver : w.port ≠ .driver)
    (p : Params) (c c' : DecodeCtx) : decode p c w = decode p c' w := by
  obtain ⟨port, bits⟩ := w
  cases port
  case symbol => exact absurd rfl hsymbol
  case driver => exact absurd rfl hdriver
  all_goals rfl

theorem tablePort_cases (nbits : Nat) :
    tablePort nbits = .tx ∨ tablePort nbits = .half ∨ tablePort nbits = .frame
      ∨ tablePort nbits = .rx := by
  unfold tablePort
  repeat' split
  all_goals simp

theorem decodeTableWord_some {nbits w : Nat} {i : Instr} (h : decodeTableWord nbits w = some i) :
    decode Config.params resetCtx ⟨tablePort nbits, w⟩ = .ok i := by
  unfold decodeTableWord at h
  split at h <;> cases h
  assumption

/-- Settles O49: a table word stands on a port that is read without the context
(`decode_ctx_irrelevant`), so it decodes in every state as it does after power-on. -/
theorem presentedTableWordRunsNext : Obligations.PresentedTableWordRunsNext := by
  unfold Obligations.PresentedTableWordRunsNext
  intro s nbits w i h
  have hport : tablePort nbits ≠ .symbol ∧ tablePort nbits ≠ .driver := by
    obtain h | h | h | h := tablePort_cases nbits <;> simp [h]
  have hdecode : decode Config.params (decodeCtx (s.withFetchWord nbits w)) ⟨tablePort nbits, w⟩
      = .ok i := by
    rw [decode_ctx_irrelevant hport.1 hport.2 _ _ resetCtx, decodeTableWord_some h]
  rw [step_presented (s := s.withFetchWord nbits w) rfl, hdecode]
  rfl

end Sys2Proof.Machine
end

section
/-!
SUPPORT. Edges and the lifecycle: the tick as an edge detector, `ReadTimeout`, and which
`receiverState` an edge ends in (spec/40_rx_sampling.md, spec/42_rx_frame_assembler.md R136,
spec/60_exceptions.md R206).
-/
namespace Sys2Proof.Machine

/-! ### The tick -/

/-- R92: a tick at the active level starts a frame. -/
theorem exec_rxTick_idle_active {s : State} (hidle : s.rx.receiverState = .idle) (now : Time) :
    exec (.rxTick Config.params.rxActiveLevel now) s = .next { s with rx := { s.rx with
      lastEdgeTime := now, prevLevel := Config.params.rxActiveLevel, receiverState := .running } } := by
  rw [exec_rxTick]
  simp only [tick, hidle, if_true]
  rfl

/-- R92: a tick at the other level writes nothing. -/
theorem exec_rxTick_idle_inactive {s : State} {level : Bool} (hidle : s.rx.receiverState = .idle)
    (hlevel : level ≠ Config.params.rxActiveLevel) (now : Time) :
    exec (.rxTick level now) s = .next s := by
  rw [exec_rxTick]
  simp only [tick, hidle, if_neg hlevel]
  rfl

/-- R93: no edge, no effect. -/
theorem exec_rxTick_sameLevel {s : State} (hr : s.rx.receiverState = .running) (now : Time) :
    exec (.rxTick s.rx.prevLevel now) s = .next s := by
  rw [exec_rxTick]
  simp only [tick, hr, ne_eq, not_true_eq_false, if_false]
  rfl

/-- R93, R94: a changed level is an edge, recorded with its time. -/
theorem exec_rxTick_edge {s : State} {level : Bool} (hr : s.rx.receiverState = .running)
    (hlevel : level ≠ s.rx.prevLevel) (now : Time) :
    exec (.rxTick level now) s = onReceiver s (onEdge Config.params (elapsedAt now s.rx)
      { s.rx with lastEdgeTime := now, prevLevel := level }) := by
  rw [exec_rxTick]
  simp only [tick, hr, if_pos hlevel]

/-- R94: the elapsed time as a number, modulo 2^32. -/
theorem eq_elapsedAt_of_toNat {e now : Time} {r : Receiver}
    (h : e.toNat = (now.toNat + 2 ^ 32 - r.lastEdgeTime.toNat) % 2 ^ 32) : e = elapsedAt now r := by
  unfold elapsedAt
  bv_omega

/-- Settles O5: the two levels of a tick in `Idle`; neither `Idle` nor `Running` shows a flag by itself. -/
theorem idleTickStartsAFrame : Obligations.IdleTickStartsAFrame := by
  unfold Obligations.IdleTickStartsAFrame
  intro s level now hidle
  refine ⟨?active, fun hlevel => exec_rxTick_idle_inactive hidle hlevel now, fun t hnext => ?flags⟩
  case active =>
    rintro rfl
    exact exec_rxTick_idle_active hidle now
  case flags =>
    by_cases hlevel : level = Config.params.rxActiveLevel
    · subst hlevel
      cases (exec_rxTick_idle_active hidle now).symm.trans hnext
      simp [hasData, isError, hidle]
    · cases (exec_rxTick_idle_inactive hidle hlevel now).symm.trans hnext
      exact ⟨rfl, rfl⟩

/-- Settles O6: a tick at the other level is the edge of the elapsed time (`exec_rxTick_edge`), and so is
the symbol instruction of any class (`exec_symbolInstr`). -/
theorem runningTickRunsTheClassifiedSymbol : Obligations.RunningTickRunsTheClassifiedSymbol := by
  unfold Obligations.RunningTickRunsTheClassifiedSymbol
  intro s level now hr
  refine ⟨?same, fun hlevel e he => ?edge⟩
  case same =>
    rintro rfl
    exact exec_rxTick_sameLevel hr now
  case edge =>
    rw [exec_rxTick_edge hr hlevel, exec_symbolInstr, if_pos (by exact hr), eq_elapsedAt_of_toNat he]
    rfl

/-- Settles O8: both are `softReset` of the receiver. -/
theorem rxInitIsRxReset : Obligations.RxInitIsRxReset := by
  unfold Obligations.RxInitIsRxReset
  intro s
  exact ⟨_, exec_rxInit s, exec_rxReset s, softReset_receiverState _, softReset_readState _,
    softReset_bitIndex _, softReset_timeoutCount _, softReset_buf _, softReset_prevLevel _,
    softReset_lastEdgeTime _, rfl, rfl, rfl, rfl⟩

/-! ### `ReadTimeout` -/

/-- R136: after the second timeout-mark an edge has the class `DONE`. -/
theorem classAt_secondTimeout {r : Receiver} {e : Time} (hp : r.readState = .readTimeout)
    (hb : r.bitIndex.toNat < 128) (he : e.toNat ≤ 31000) (ht : r.timeoutCount = 2#2) :
    classAt Config.params e r = .done := by
  rw [classAt_eq_classify hb he, hp, classify_readTimeout, ht]
  rfl

/-- R136, D10: `DONE` in `ReadTimeout` under each policy. -/
theorem applyDone_readTimeout {p : Params} {r : Receiver} (hp : r.readState = .readTimeout)
    (ht : r.timeoutCount = 2#2) : applyDone p r =
      .ok (if p.secondTimeout = .error then raise .unrecognizedSymbol r else r) := by
  rw [applyDone, if_pos hp, readCount, if_neg (by simp [ht])]

/-- The class of an edge does not depend on the policy. -/
theorem classAt_secondTimeoutPolicy (policy : SecondTimeout) (e : Time) (r : Receiver) :
    classAt { Config.params with secondTimeout := policy } e r = classAt Config.params e r := rfl

/-- Settles O14: with one timeout-mark the class is that of the window, with two it is `DONE`, whose
effect is the policy's. -/
theorem readTimeoutPosition : Obligations.ReadTimeoutPosition := by
  unfold Obligations.ReadTimeoutPosition
  refine ⟨fun s e hr hp hb he => ⟨fun ht => ?first, fun ht => ?second⟩, fun r e hp hb he ht => ?error⟩
  case first =>
    have hclass := classAt_eq_classify hb he
    rw [hp, classify_readTimeout, if_pos ht] at hclass
    refine ⟨fun hwindow => ?_, fun hout => ?_⟩
    · rw [if_pos hwindow] at hclass
      exact exec_symbolInstr_classAt hr hclass rfl
    · rw [if_neg hout] at hclass
      exact exec_invalid_next hr hclass
  case second =>
    exact exec_symbolInstr_classAt hr (classAt_secondTimeout hp hb he ht)
      (applyDone_readTimeout (p := Config.params) hp ht)
  case error =>
    rw [onEdge_eq_applyClass, classAt_secondTimeoutPolicy, classAt_secondTimeout hp hb he ht]
    exact applyDone_readTimeout hp ht

/-! ### The lifecycle -/

/-- Settles O16: outside `Running` no edge is classified. -/
theorem symbolOutsideRunningIsIgnored : Obligations.SymbolOutsideRunningIsIgnored := by
  unfold Obligations.SymbolOutsideRunningIsIgnored
  intro s e c h
  exact exec_symbolInstr_not_running h e c

/-- R206: the `receiverState` that an edge of a class ends in. -/
def lifeAfter : EdgeClass → ReceiverState
  | .overflowEdge => .overflowed
  | .ceiling => .timedOut
  | .invalid => .stopped
  | .longSpace | .startMark | .bitSpace | .zeroMark | .oneMark | .timeoutMark | .done => .running

theorem applyBit_receiverState {b : Bool} {r r' : Receiver} (h : applyBit b r = .ok r') :
    r'.receiverState = r.receiverState := by
  unfold applyBit at h
  obtain ⟨_, happend⟩ | ⟨_, happend⟩ := appendBit_cases (b := b) (r := r) rfl
    <;> rw [happend] at h <;> cases h
  rfl

/-- D10: under the machine's policy `DONE` changes nothing. -/
theorem applyDone_hold {r r' : Receiver} (h : applyDone Config.params r = .ok r') : r' = r := by
  have hpolicy : Config.params.secondTimeout ≠ .error := nofun
  unfold applyDone readCount at h
  rw [if_neg hpolicy] at h
  repeat' split at h
  all_goals cases h
  all_goals rfl

theorem applyClass_receiverState {c : EdgeClass} {r r' : Receiver} (hr : r.receiverState = .running)
    (h : applyClass Config.params c r = .ok r') : r'.receiverState = lifeAfter c := by
  cases c
  case longSpace | startMark | bitSpace =>
    cases h
    exact hr
  case zeroMark | oneMark => exact (applyBit_receiverState h).trans hr
  case timeoutMark =>
    change readCount r _ = _ at h
    unfold readCount at h
    split at h <;> cases h
    exact hr
  case done =>
    obtain rfl := applyDone_hold h
    exact hr
  case invalid | ceiling | overflowEdge =>
    cases h
    rfl

theorem lifeAfter_eq_overflowed_iff (c : EdgeClass) : lifeAfter c = .overflowed ↔ c = .overflowEdge := by
  cases c <;> decide

theorem lifeAfter_eq_timedOut_iff (c : EdgeClass) : lifeAfter c = .timedOut ↔ c = .ceiling := by
  cases c <;> decide

theorem lifeAfter_eq_stopped_iff (c : EdgeClass) : lifeAfter c = .stopped ↔ c = .invalid := by
  cases c <;> decide

theorem lifeAfter_ne_idle (c : EdgeClass) : lifeAfter c ≠ .idle := by
  cases c <;> decide

/-- Settles O17: the class of the edge decides the `receiverState` after it (`lifeAfter`), and the first
two classes are decided by `bitIndex` and the duration. -/
theorem conditionPriority : Obligations.ConditionPriority := by
  unfold Obligations.ConditionPriority
  intro s t e c hr hnext
  rw [exec_symbolInstr, if_pos hr, onEdge_eq_applyClass] at hnext
  obtain ⟨r, hclass, rfl⟩ := onReceiver_next.mp hnext
  have hlife := applyClass_receiverState hr hclass
  refine ⟨?_, ?_, ?_, ?_⟩ <;> rw [hlife]
  · rw [lifeAfter_eq_overflowed_iff, classAt_eq_overflowEdge_iff]
  · rw [lifeAfter_eq_timedOut_iff, classAt_eq_ceiling_iff]
  · rw [lifeAfter_eq_stopped_iff]
  · exact lifeAfter_ne_idle _

/-- R10: an edge that changes `receiverState` goes from `Running` to one of the three conditions. -/
theorem onEdge_changes_life {e : Time} {r r' : Receiver} (hr : r.receiverState = .running)
    (h : onEdge Config.params e r = .ok r') (hne : r'.receiverState ≠ .running) :
    r'.receiverState = .overflowed ∨ r'.receiverState = .timedOut ∨ r'.receiverState = .stopped :=
  (onEdge_life e r r' hr h).resolve_left hne

/-- Settles O20: the receiver's operations and the symbols by what each can do; no other agent writes
the receiver. -/
theorem lifecycleTransitions : Obligations.LifecycleTransitions := by
  unfold Obligations.LifecycleTransitions
  intro s t i hpattern hnext hchanged
  cases hside : i.side
  case pattern => exact absurd hside hpattern
  case senderOp | segment | query =>
    refine absurd ?_ hchanged
    rw [rx_of_not_receiver i (by simp [Instr.onReceiver, hside]) s t hnext]
  case symbol =>
    obtain ⟨c, e, rfl⟩ := symbol_cases i hside
    by_cases hr : s.rx.receiverState = .running
    · rw [exec_symbolInstr, if_pos hr] at hnext
      obtain ⟨r, hedge, rfl⟩ := onReceiver_next.mp hnext
      exact .inr (.inr ⟨hr, onEdge_changes_life hr hedge (fun h => hchanged (h.trans hr.symm)),
        .inl rfl⟩)
    · cases (exec_symbolInstr_not_running hr e c).symm.trans hnext
      exact absurd rfl hchanged
  case receiverOp =>
    obtain rfl | ⟨level, now, rfl⟩ | hreset := receiverOp_cases hside
    · cases hnext
      exact absurd rfl hchanged
    · obtain ⟨r, htick, rfl⟩ := onReceiver_next.mp ((exec_rxTick level now s).symm.trans hnext)
      have unchanged (h : tick Config.params level now s.rx = .ok s.rx) : r = s.rx :=
        Except.ok.inj (htick.symm.trans h)
      obtain ⟨_, h⟩ | ⟨hidle, rfl, h⟩ | ⟨_, _, h⟩ | ⟨_, _, h⟩ | ⟨hr, _, h⟩ :=
        tick_cases level now s.rx
      · exact absurd (congrArg _ (unchanged h)) hchanged
      · cases htick.symm.trans h
        exact .inr (.inl ⟨hidle, rfl, now, rfl⟩)
      · exact absurd (congrArg _ (unchanged h)) hchanged
      · exact absurd (congrArg _ (unchanged h)) hchanged
      · have hedge := h.symm.trans htick
        exact .inr (.inr ⟨hr, onEdge_changes_life (by exact hr) hedge
          (fun h => hchanged (h.trans hr.symm)), .inr ⟨level, now, rfl⟩⟩)
    · cases (exec_rxReset_or_rxInit hreset s).symm.trans hnext
      exact .inl ⟨hreset, rfl⟩

end Sys2Proof.Machine
end

section
/-!
SUPPORT. Halves and frames on the receiver's line, from the start of a half and from the state a reset
leaves (spec/30_encoding.md R60, R61, R76; spec/42_rx_frame_assembler.md R140).
-/
namespace Sys2Proof.Machine

/-- R61: the `HALF64` rows by the message each stands for. -/
theorem exec_half {i : Instr} {m : Half}
    (h : (i = .hdrHalf ∧ m = 0x885BE90F0000004E#64)
      ∨ (∃ body : Body, i = .cmdHalf body ∧ m = 0x885BE900F1#40 ++ body)
      ∨ (i = .cmdOnoff ∧ m = 0x885BE900F1800048#64)
      ∨ (i = .cmdFan ∧ m = 0x885BE900F1081084#64)) (s : State) :
    exec i s = onReceiver s (receiveHalf Config.params m s.rx) := by
  have honoff : cmdMessage Config.params Config.params.bodyOnoff = 0x885BE900F1800048#64 := by decide
  have hfan : cmdMessage Config.params Config.params.bodyFan = 0x885BE900F1081084#64 := by decide
  obtain ⟨rfl, rfl⟩ | ⟨body, rfl, rfl⟩ | ⟨rfl, rfl⟩ | ⟨rfl, rfl⟩ := h
  · rw [← hdrMsg_eq]
    rfl
  · rw [← cmdMsg_eq]
    rfl
  · rw [← honoff]
    rfl
  · rw [← hfan]
    rfl

/-- Settles O21: every `HALF64` row is `receiveHalf` of its message (`exec_half`), which from the start of
a half is `receiveHalf_start`; its buffer is read by `bufBit_appendHalf`. -/
theorem halfPatternsAppendTheirBits : Obligations.HalfPatternsAppendTheirBits := by
  unfold Obligations.HalfPatternsAppendTheirBits
  intro s i m hi hr hp hb
  obtain ⟨hbits, hframe⟩ := bufBit_appendHalf m s.rx.buf _ hb
  have hindex : (BitVec.ofNat 8 (s.rx.bitIndex.toNat + 64)).toNat = s.rx.bitIndex.toNat + 64 := by
    rw [BitVec.toNat_ofNat, Nat.mod_eq_of_lt (by omega)]
  rw [exec_half hi, receiveHalf_start m s.rx hr hp hb]
  exact ⟨_, rfl, hr, rfl, hindex, hbits, hframe, rfl, rfl, rfl, rfl, rfl, rfl⟩

/-- Settles O22: after the tick that starts the frame the ticks are its 263 edges (`runTicks_edges`), which
collect it (`runEdges_frame`). -/
theorem wellFormedFrameIsCollected : Obligations.WellFormedFrameIsCollected := by
  unfold Obligations.WellFormedFrameIsCollected
  intro s F start ds hidle hp hbuf hb ht hw
  have hstart := exec_rxTick_idle_active hidle start
  refine ⟨_, ?run, rfl, rfl, rfl⟩
  case run =>
    simp only [runTicks, hstart]
    exact (runTicks_edges ds { s with rx := { s.rx with
      lastEdgeTime := start, prevLevel := Config.params.rxActiveLevel,
      receiverState := .running } } rfl).trans
        (congrArg (onReceiver _) (runEdges_frame F ds _ hw rfl (by exact hp) (by exact hbuf)
          (by exact hb) (by exact ht)))

/-- R60: `FRAME` in the state a reset leaves, with the frame as a number and its length in time. -/
theorem exec_frame_idle {s : State} (hidle : s.rx.receiverState = .idle)
    (hp : s.rx.readState = .none) (hbuf : s.rx.buf = 0#128) (hb : s.rx.bitIndex = 0#8)
    (ht : s.rx.timeoutCount = 0#2) (body : Body) :
    exec (.frame body) s = .next { s with rx :=
      { receiverState := .overflowed
        readState := .readSpace
        buf := 0x885BE90F0000004E885BE900F1#104 ++ body
        bitIndex := 128#8
        timeoutCount := 1#2
        prevLevel := !Config.params.rxActiveLevel
        lastEdgeTime := BitVec.ofNat 32
          (169950 + 860 * (msgBits (cmdMessage Config.params body)).count true) } } := by
  have hones : 152750 + 860 * ((msgBits (hdrMessage Config.params)).count true
      + (msgBits (cmdMessage Config.params body)).count true)
      = 169950 + 860 * (msgBits (cmdMessage Config.params body)).count true := by
    rw [hdrMessage_bitCounts.1]
    omega
  have hbits : hdrMessage Config.params ++ cmdMessage Config.params body
      = 0x885BE90F0000004E885BE900F1#104 ++ body := frameWord_eq body
  rw [exec_frame, receiveFrame_idle _ _ _ hidle hp hbuf hb ht, timeAfter_frame, hones, hbits]
  rfl

/-- R73: no diagnostic. -/
theorem word_clear : ({} : Diag).word = 0b0000000#7 := by decide

/-- R73: `NO_MATCH` is bit 6 of the port `diag`. -/
theorem word_noMatch_alone : ({ noMatch := true } : Diag).word = 0b1000000#7 := by decide

/-- Settles O23: the state is `exec_frame_idle`'s, and its reading is `decode_frame`'s. -/
theorem receivedFrameDecodesToItsButton : Obligations.ReceivedFrameDecodesToItsButton := by
  unfold Obligations.ReceivedFrameDecodesToItsButton
  intro s body hidle hp hbuf hb ht
  refine ⟨_, _, _, _, exec_frame_idle hidle hp hbuf hb ht body, rfl, rfl, rfl, exec_rxDecode _,
    noteReading_lastRead _ _, fun k x hk hx => ?row, fun hnone => ?noRow⟩
  case row =>
    rw [(decode_frame _ body rfl rfl).1 k x hk hx]
    exact ⟨rfl, word_clear⟩
  case noRow =>
    rw [(decode_frame _ body rfl rfl).2 hnone]
    exact ⟨rfl, word_noMatch_alone⟩

end Sys2Proof.Machine
end

section
/-!
SUPPORT. The reading of 128 bits: each flag as a comparison of bytes, and the button as the row with the
body (spec/43_rx_validator.md R154 to R157).
-/
namespace Sys2Proof.Machine

/-! ### The row of a body -/

/-- R156: the row found is the one with the body. -/
theorem matchBody_buttons {k : Nat} {x : ButtonEntry} {body : Body}
    (hk : Config.buttons[k]? = some x) (hx : x.body = body) :
    matchBody Config.buttons body = some k :=
  matchBody_some _ buttons_nodup body k x hk hx

/-- R156: a row in the table, with its place. -/
theorem matchBody_of_mem {x : ButtonEntry} (hx : x ∈ Config.buttons) :
    ∃ k, Config.buttons[k]? = some x ∧ matchBody Config.buttons x.body = some k := by
  obtain ⟨k, hk⟩ := List.getElem?_of_mem hx
  exact ⟨k, hk, matchBody_buttons hk rfl⟩

/-- R156: some row is found exactly if one has the body. -/
theorem matchBody_isSome_iff (t : List ButtonEntry) (body : Body) :
    (matchBody t body).isSome = true ↔ ∃ x ∈ t, x.body = body := by
  rw [Option.isSome_iff_ne_none, ne_eq, matchBody_none]
  push Not
  rfl

/-! ### The lenient reading -/

/-- R155, R156: the button of 128 bits is that of the body. -/
theorem decodeButton_button {r : Receiver} (hb : r.bitIndex = 128#8) :
    (decodeButton Config.params r).button
      = buttonCode (matchBody Config.buttons (bytes3 r.buf 13)) := by
  rw [decode_full r hb]
  cases matchBody Config.buttons (bytes3 r.buf 13) <;> rfl

/-- R154, R157: the flags of 128 bits are the five comparisons and `NO_MATCH`. -/
theorem decodeButton_diag {r : Receiver} (hb : r.bitIndex = 128#8) :
    (decodeButton Config.params r).diag = { structuralDiag Config.params r.buf with
      noMatch := (matchBody Config.buttons (bytes3 r.buf 13)).isNone } := by
  rw [decode_full r hb]
  cases matchBody Config.buttons (bytes3 r.buf 13) <;> rfl

/-- R157: `NO_MATCH` is 0 exactly if some row has the body. -/
theorem decodeButton_noMatch_iff {r : Receiver} (hb : r.bitIndex = 128#8) :
    (decodeButton Config.params r).diag.noMatch = false
      ↔ ∃ x ∈ Config.buttons, x.body = bytes3 r.buf 13 := by
  rw [decodeButton_diag hb, ← matchBody_isSome_iff]
  exact Option.isNone_eq_false_iff

/-- R154: a structural flag is 0 exactly if its comparison holds. -/
theorem comparison_false_iff {α : Type} [DecidableEq α] (a b : α) :
    decide (a ≠ b) = false ↔ a = b := by
  simp

/-- R154: the constants that the five comparisons look for, byte by byte. -/
theorem structuralDiag_false_iff (buf : Frame) :
    ((structuralDiag Config.params buf).hdrPrefix = false ↔
      byteAt buf 0 = 0x88#8 ∧ byteAt buf 1 = 0x5B#8 ∧ byteAt buf 2 = 0xE9#8)
    ∧ ((structuralDiag Config.params buf).hdrBegin = false ↔
      byteAt buf 3 = 0x0F#8 ∧ byteAt buf 4 = 0x00#8)
    ∧ ((structuralDiag Config.params buf).hdrBody = false ↔
      byteAt buf 5 = 0x00#8 ∧ byteAt buf 6 = 0x00#8 ∧ byteAt buf 7 = 0x4E#8)
    ∧ ((structuralDiag Config.params buf).cmdPrefix = false ↔
      byteAt buf 8 = 0x88#8 ∧ byteAt buf 9 = 0x5B#8 ∧ byteAt buf 10 = 0xE9#8)
    ∧ ((structuralDiag Config.params buf).cmdBegin = false ↔
      byteAt buf 11 = 0x00#8 ∧ byteAt buf 12 = 0xF1#8) :=
  ⟨(comparison_false_iff _ _).trans (bytes3_eq buf 0 0x88#8 0x5B#8 0xE9#8),
    (comparison_false_iff _ _).trans (bytes2_eq buf 3 0x0F#8 0x00#8),
    (comparison_false_iff _ _).trans (bytes3_eq buf 5 0x00#8 0x00#8 0x4E#8),
    (comparison_false_iff _ _).trans (bytes3_eq buf 8 0x88#8 0x5B#8 0xE9#8),
    (comparison_false_iff _ _).trans (bytes2_eq buf 11 0x00#8 0xF1#8)⟩

/-- Settles O28: the port's bits are the flags (`diag_bits`), the flags those of `decodeButton_diag`, and
the button is the row's (`matchBody_buttons`). -/
theorem decodeResult : Obligations.DecodeResult := by
  unfold Obligations.DecodeResult
  intro s hb
  have hdiag := decodeButton_diag hb
  have hbutton := decodeButton_button hb
  obtain ⟨hpre, hbegin, hbody, cpre, cbegin⟩ := structuralDiag_false_iff s.rx.buf
  obtain ⟨b0, b1, b2, b3, b4, b5, b6⟩ := diag_bits (decodeButton Config.params s.rx).diag
  refine ⟨_, _, _, exec_rxDecode s, noteReading_lastRead _ s, ?_, ?_, ?_, ?_, ?_, ?_, ?_, ?row, ?noRow,
    noteReading_rx _ s, noteReading_tx _ s, noteReading_wave _ s, noteReading_pending _ s,
    noteReading_turnedAway _ s⟩
  · rw [b0, hdiag]
    rfl
  · rw [b1, hdiag]
    exact hpre
  · rw [b2, hdiag]
    exact hbegin
  · rw [b3, hdiag]
    exact hbody
  · rw [b4, hdiag]
    exact cpre
  · rw [b5, hdiag]
    exact cbegin
  · rw [b6]
    exact decodeButton_noMatch_iff hb
  case row =>
    intro k x hk hx
    rw [hbutton, matchBody_buttons hk hx]
    rfl
  case noRow =>
    intro hnone
    rw [hbutton, (matchBody_none _ _).mpr hnone]
    rfl

/-- R156: a row's body decodes to the row. -/
theorem decodeButton_of_mem {r : Receiver} {x : ButtonEntry} (hb : r.bitIndex = 128#8)
    (hx : x ∈ Config.buttons) (hbody : bytes3 r.buf 13 = x.body) :
    ∃ k, Config.buttons[k]? = some x
      ∧ (decodeButton Config.params r).button = BitVec.ofNat 4 (1 + k)
      ∧ (decodeButton Config.params r).diag.noMatch = false := by
  obtain ⟨k, hk, hmatch⟩ := matchBody_of_mem hx
  refine ⟨k, hk, ?_, (decodeButton_noMatch_iff hb).mpr ⟨x, hx, hbody.symm⟩⟩
  rw [decodeButton_button hb, hbody, hmatch]
  rfl

/-- Settles O30: both rows stand in every table the spec allows (`buttons_mem`). -/
theorem onoffAndFanDecode : Obligations.OnoffAndFanDecode := by
  unfold Obligations.OnoffAndFanDecode
  intro r hb
  obtain ⟨honoff, hfan⟩ := buttons_mem
  exact ⟨decodeButton_of_mem hb honoff, decodeButton_of_mem hb hfan⟩

/-! ### The strict reading -/

/-- R153, R157: the lenient reading and the strict one by the same comparisons. -/
theorem decodeButton_strict {r : Receiver} (hb : r.bitIndex = 128#8) :
    decodeButton { Config.params with strictDecode := true } r =
      if (structuralDiag Config.params r.buf).structural then
        ⟨0#4, structuralDiag Config.params r.buf⟩
      else decodeButton Config.params r := by
  rw [decode_gen { Config.params with strictDecode := true } r hb, decode_full r hb]
  rfl

/-- Settles O29: below 128 bits both readings are the length check's; with 128 the comparisons decide
(`decodeButton_strict`). -/
theorem strictDecode : Obligations.StrictDecode := by
  unfold Obligations.StrictDecode
  intro r lenient strict
  by_cases hb : r.bitIndex = 128#8
  · have hstructural : lenient.diag.structural = (structuralDiag Config.params r.buf).structural :=
      (congrArg Diag.structural (decodeButton_diag hb) :)
    have hflags : { lenient.diag with noMatch := false } = structuralDiag Config.params r.buf :=
      (congrArg (fun d : Diag => { d with noMatch := false }) (decodeButton_diag hb) :)
    have hstrict : strict = _ := decodeButton_strict hb
    rw [hstructural, hflags, hstrict]
    refine ⟨fun hfailed => ?_, fun hpassed => ?_⟩
    · rw [if_pos hfailed]
      exact ⟨rfl, rfl⟩
    · rw [hpassed]
      rfl
  · have hlenient : lenient = _ := decode_short _ r hb
    have hstrict : strict = _ := decode_short _ r hb
    rw [hlenient, hstrict]
    exact ⟨nofun, fun _ => rfl⟩

end Sys2Proof.Machine
end

section
/-!
SUPPORT. What each agent's instructions leave alone: the two components are separate and their steps
commute, each field has its writers, and the unspecified fields are not read before they are written
(spec/20_memory.md R51, spec/60_exceptions.md R213, spec/93_implementation_defined.md U8).
-/
namespace Sys2Proof.Machine

/-! ### The components are separate -/

theorem exec_onReceiver_frame {i : Instr} {s t : State} (hi : i.onReceiver = true)
    (hnext : exec i s = .next t) : t = { s with rx := t.rx } := by
  obtain ⟨f, hf⟩ := exec_onReceiver i hi
  obtain ⟨_, hframe⟩ := rx_next ((hf s).symm.trans hnext)
  exact hframe

/-- R181: only the driver's segments write the line. -/
theorem exec_senderOp_keeps_wave {i : Instr} {s t : State} (hi : i.side = .senderOp)
    (hnext : exec i s = .next t) : t.wave = s.wave := by
  obtain h | ⟨_, h⟩ | ⟨_, _, _, h⟩ | ⟨_, _, h⟩ := exec_senderOp_cases hi s
    <;> cases h.symm.trans hnext <;> rfl

/-- Settles O43: a receiver's instruction writes the receiver (`exec_onReceiver_frame`), a sender's the
sender, the line and its note (`exec_onSender`), a query the other note (`query_next`). -/
theorem componentsAreSeparate : Obligations.ComponentsAreSeparate := by
  unfold Obligations.ComponentsAreSeparate
  intro s t i hnext
  refine ⟨?pending, fun hi => ?receiver, fun hi => ?sender,
    fun hi => exec_senderOp_keeps_wave hi hnext, fun hi => ?query⟩
  case pending =>
    obtain hi | hi | hi := side_cases i
    · rw [exec_onReceiver_frame hi hnext]
    · obtain ⟨_, _, _, rfl, _⟩ := exec_onSender i hi s t hnext
      rfl
    · obtain ⟨_, rfl⟩ := query_next i hi s t hnext
      rfl
  case receiver =>
    rw [exec_onReceiver_frame hi hnext]
    exact ⟨rfl, rfl, rfl⟩
  case sender =>
    obtain ⟨_, _, _, rfl, _⟩ := exec_onSender i hi s t hnext
    exact ⟨rfl, rfl⟩
  case query =>
    obtain ⟨_, rfl⟩ := query_next i hi s t hnext
    exact ⟨rfl, rfl, rfl, rfl⟩

/-- Settles O44: a receiver's instruction is a function of the receiver (`exec_onReceiver`), and a sender's
does the same whatever the receiver (`exec_onSender`). -/
theorem componentStepsCommute : Obligations.ComponentStepsCommute := by
  unfold Obligations.ComponentStepsCommute
  intro s s1 s2 i j hkinds hi hj
  obtain ⟨hir, hjs⟩ | ⟨his, hjr⟩ := hkinds
  · obtain ⟨f, hf⟩ := exec_onReceiver i hir
    obtain ⟨r, hr, rfl⟩ := onReceiver_next.mp ((hf s).symm.trans hi)
    obtain ⟨_, _, _, rfl, hany⟩ := exec_onSender j hjs _ s2 hj
    refine ⟨_, hany s.rx, ?_⟩
    rw [hf]
    exact onReceiver_next.mpr ⟨r, hr, rfl⟩
  · obtain ⟨g, hg⟩ := exec_onReceiver j hjr
    obtain ⟨_, _, _, rfl, hany⟩ := exec_onSender i his s s1 hi
    obtain ⟨r, hr, rfl⟩ := onReceiver_next.mp ((hg _).symm.trans hj)
    refine ⟨{ s with rx := r }, ?_, hany r⟩
    rw [hg]
    exact onReceiver_next.mpr ⟨r, hr, rfl⟩

/-! ### The writers of each field -/

/-- R10 to R16: the instructions that write the receiver. -/
theorem rx_writers {i : Instr} {s t : State} (hnext : exec i s = .next t) (hne : t.rx ≠ s.rx) :
    i.side = .pattern ∨ i.side = .symbol ∨ i = .rxReset ∨ i = .rxInit
      ∨ ∃ level now, i = .rxTick level now := by
  cases hside : i.side
  case pattern | symbol => simp
  case senderOp | segment | query =>
    exact absurd (rx_of_not_receiver i (by simp [Instr.onReceiver, hside]) s t hnext) hne
  case receiverOp =>
    obtain rfl | htick | hreset | hinit := receiverOp_cases hside
    · cases hnext
      exact absurd rfl hne
    · exact .inr (.inr (.inr (.inr htick)))
    · exact .inr (.inr (.inl hreset))
    · exact .inr (.inr (.inr (.inl hinit)))

/-- R15, R16: a symbol does not write the two fields that its tick records. -/
theorem exec_symbolInstr_keeps_time {s t : State} {e : Time} {c : EdgeClass}
    (hnext : exec (symbolInstr e c) s = .next t) :
    t.rx.prevLevel = s.rx.prevLevel ∧ t.rx.lastEdgeTime = s.rx.lastEdgeTime := by
  by_cases hr : s.rx.receiverState = .running
  · rw [exec_symbolInstr, if_pos hr] at hnext
    obtain ⟨r, hedge, rfl⟩ := onReceiver_next.mp hnext
    exact onEdge_keeps_time e s.rx r hedge
  · cases (exec_symbolInstr_not_running hr e c).symm.trans hnext
    exact ⟨rfl, rfl⟩

/-- R15, R16: the instructions that write the previous sample and the last edge time. -/
theorem time_writers {i : Instr} {s t : State} (hnext : exec i s = .next t)
    (hne : t.rx.prevLevel ≠ s.rx.prevLevel ∨ t.rx.lastEdgeTime ≠ s.rx.lastEdgeTime) :
    i.side = .pattern ∨ ∃ level now, i = .rxTick level now := by
  have changed : ¬(t.rx.prevLevel = s.rx.prevLevel ∧ t.rx.lastEdgeTime = s.rx.lastEdgeTime) := by
    rwa [not_and_or]
  have hrx : t.rx ≠ s.rx := fun h => changed (by rw [h]; exact ⟨rfl, rfl⟩)
  obtain h | h | h | h | h := rx_writers hnext hrx
  · exact .inl h
  · obtain ⟨c, e, rfl⟩ := symbol_cases i h
    exact absurd (exec_symbolInstr_keeps_time hnext) changed
  · cases (exec_rxReset_or_rxInit (.inl h) s).symm.trans hnext
    exact absurd ⟨rfl, rfl⟩ changed
  · cases (exec_rxReset_or_rxInit (.inr h) s).symm.trans hnext
    exact absurd ⟨rfl, rfl⟩ changed
  · exact .inr h

/-- R19 to R23: everything an instruction can do to the sender. -/
theorem tx_writers {i : Instr} {s t : State} (hnext : exec i s = .next t) :
    t.tx = s.tx
    ∨ (∃ body, i = .txSend body ∧ t.tx = acceptSend Config.params body s.tx)
    ∨ (i = .txConstruct ∧ t.tx = construct s.tx)
    ∨ ∃ k, i = segInstr k ∧ dueSegment s.tx = some k
        ∧ t.tx = advance (driveLine (segmentOf Config.params k) s.tx) := by
  cases hside : i.side
  case receiverOp | symbol | pattern =>
    rw [exec_onReceiver_frame (by simp [Instr.onReceiver, hside]) hnext]
    exact .inl rfl
  case query =>
    obtain ⟨_, rfl⟩ := query_next i hside s t hnext
    exact .inl rfl
  case senderOp =>
    obtain h | ⟨_, h⟩ | ⟨body, hi, _, h⟩ | ⟨hi, _, h⟩ := exec_senderOp_cases hside s
      <;> cases h.symm.trans hnext
    · exact .inl rfl
    · exact .inl rfl
    · exact .inr (.inl ⟨body, hi, rfl⟩)
    · exact .inr (.inr (.inl ⟨hi, rfl⟩))
  case segment =>
    obtain ⟨k, rfl⟩ := segment_cases i hside
    obtain ⟨hdue, rfl⟩ := segInstr_next hnext
    exact .inr (.inr (.inr ⟨k, rfl, hdue, rfl⟩))

theorem side_segInstr (k : SegKind) : (segInstr k).side = .segment := by
  cases k <;> rfl

/-- R22, R187: the driver writes `busy` only at the end of the inter-command gap. -/
theorem advance_busy (t : Sender) :
    (advance t).busy = if t.phase = .cmdGap then false else t.busy := by
  unfold advance
  cases hphase : t.phase <;> simp
  all_goals split <;> rfl

theorem due_in_cmdGap {t : Sender} {k : SegKind} (hphase : t.phase = .cmdGap)
    (hdue : dueSegment t = some k) : k = .cmdGap := by
  simp only [dueSegment, hphase] at hdue
  split at hdue <;> cases hdue
  rfl

/-- R22: what a driver step does to `busy`. -/
theorem busy_after_segment {t : Sender} {k : SegKind} (hdue : dueSegment t = some k)
    (hne : (advance (driveLine (segmentOf Config.params k) t)).busy ≠ t.busy) :
    (advance (driveLine (segmentOf Config.params k) t)).busy = false ∧ k = .cmdGap := by
  rw [advance_busy, driveLine_phase, driveLine_busy] at hne ⊢
  split at hne
  case isTrue hphase => exact ⟨if_pos hphase, due_in_cmdGap hphase hdue⟩
  case isFalse => exact absurd rfl hne

/-- Settles O45: the receiver's fields by `rx_writers` and `time_writers`, the sender's by the four ways
an instruction leaves the sender (`tx_writers`). -/
theorem writersOfEachField : Obligations.WritersOfEachField := by
  unfold Obligations.WritersOfEachField
  intro s t i hnext
  have rxChanged {α : Type} (field : Receiver → α) (h : field t.rx ≠ field s.rx) : t.rx ≠ s.rx :=
    fun heq => h (congrArg field heq)
  refine ⟨fun h => rx_writers hnext ?_, time_writers hnext, fun h => rx_writers hnext ?_, ?sender⟩
  · exact h.elim (rxChanged Receiver.receiverState) (rxChanged Receiver.readState)
  · exact h.elim (rxChanged Receiver.timeoutCount)
      (·.elim (rxChanged Receiver.bitIndex) (rxChanged Receiver.buf))
  case sender =>
    obtain h | ⟨body, rfl, h⟩ | ⟨rfl, h⟩ | ⟨k, rfl, hdue, h⟩ := tx_writers hnext <;> rw [h]
    · simp
    · simp
    · simp
    · refine ⟨by simp, by simp, fun hbusy => ?_, fun _ => .inr (.inl (side_segInstr k)),
        fun _ => .inr (side_segInstr k)⟩
      obtain ⟨hfalse, rfl⟩ := busy_after_segment hdue hbusy
      exact .inr ⟨hfalse, rfl⟩

/-! ### The previous sample and the last edge time -/

/-- R92: the tick that starts a frame writes both fields and reads neither. -/
theorem tick_start_withLastEdge {r : Receiver} (hidle : r.receiverState = .idle) (level : Bool)
    (time now : Time) :
    tick Config.params Config.params.rxActiveLevel now (withLastEdge level time r)
      = tick Config.params Config.params.rxActiveLevel now r := by
  simp only [tick, withLastEdge, hidle, if_true]

/-- R15, R16: an instruction that starts a frame does the same whatever the two fields hold. -/
theorem exec_startsFrame_withLastEdge {i : Instr} {s t : State} (hstarts : i.startsFrame)
    (hidle : s.rx.receiverState = .idle) (hnext : exec i s = .next t) (level : Bool) (time : Time) :
    exec i { s with rx := withLastEdge level time s.rx } = .next t := by
  obtain ⟨now, rfl⟩ | ⟨body, rfl⟩ := hstarts
  · rw [exec_rxTick] at hnext ⊢
    rw [tick_start_withLastEdge hidle]
    exact onReceiver_next.mpr (onReceiver_next.mp hnext)
  · rw [exec_frame] at hnext ⊢
    unfold receiveFrame at hnext ⊢
    rw [tick_start_withLastEdge hidle]
    exact onReceiver_next.mpr (onReceiver_next.mp hnext)

/-- R91: a frame presented in a terminal state. -/
theorem receiveFrame_terminal {r : Receiver} (h : r.terminal = true) (first second : Half) :
    receiveFrame Config.params first second r = .ok r := by
  unfold receiveFrame
  rw [tick_terminal h]
  exact runEdges_terminal h _

theorem terminal_of_not_running_not_idle {r : Receiver} (hr : r.receiverState ≠ .running)
    (hidle : r.receiverState ≠ .idle) : r.terminal = true := by
  rw [terminal_iff]
  cases h : r.receiverState <;> simp_all

/-- R91, R92: outside `Running` a receiver's instruction that starts no frame is a reset or does
nothing. -/
theorem exec_onReceiver_not_running {i : Instr} {s : State} (hi : i.onReceiver = true)
    (hr : s.rx.receiverState ≠ .running) (hstarts : ¬i.startsFrame ∨ s.rx.receiverState ≠ .idle) :
    i = .rxReset ∨ i = .rxInit ∨ exec i s = .next s := by
  have inIdle (h : i.startsFrame) : s.rx.terminal = true :=
    terminal_of_not_running_not_idle hr (hstarts.resolve_left (not_not_intro h))
  cases hside : i.side
  case receiverOp =>
    obtain rfl | ⟨level, now, rfl⟩ | h | h := receiverOp_cases hside
    · exact .inr (.inr (exec_rxNop s))
    · refine .inr (.inr ?_)
      by_cases hlevel : level = Config.params.rxActiveLevel
      · subst hlevel
        exact exec_rxTick_terminal (inIdle (.inl ⟨now, rfl⟩)) _ now
      · by_cases hidle : s.rx.receiverState = .idle
        · exact exec_rxTick_idle_inactive hidle hlevel now
        · exact exec_rxTick_terminal (terminal_of_not_running_not_idle hr hidle) level now
    · exact .inl h
    · exact .inr (.inl h)
  case symbol =>
    obtain ⟨c, e, rfl⟩ := symbol_cases i hside
    exact .inr (.inr (exec_symbolInstr_not_running hr e c))
  case pattern =>
    refine .inr (.inr ?_)
    obtain ⟨m, hhalf⟩ | ⟨body, rfl⟩ := pattern_cases hside
    · rw [hhalf, receiveHalf, runEdges_not_running hr]
      rfl
    · rw [exec_frame, receiveFrame_terminal (inIdle (.inr ⟨body, rfl⟩))]
      rfl
  case senderOp | segment | query => simp [Instr.onReceiver, hside] at hi

/-- R15, R16: outside `Running` an instruction that starts no frame keeps the two fields and does the
same to everything else whatever they hold. -/
theorem exec_withLastEdge {i : Instr} {s t : State} (hr : s.rx.receiverState ≠ .running)
    (hstarts : ¬i.startsFrame ∨ s.rx.receiverState ≠ .idle) (hnext : exec i s = .next t)
    (level : Bool) (time : Time) :
    exec i { s with rx := withLastEdge level time s.rx }
      = .next { t with rx := withLastEdge level time t.rx } := by
  obtain hi | hi | hi := side_cases i
  · have hreset (h : i = .rxReset ∨ i = .rxInit) :
        exec i { s with rx := withLastEdge level time s.rx }
          = .next { t with rx := withLastEdge level time t.rx } := by
      cases (exec_rxReset_or_rxInit h s).symm.trans hnext
      exact exec_rxReset_or_rxInit h _
    obtain h | h | h := exec_onReceiver_not_running hi hr hstarts
    · exact hreset (.inl h)
    · exact hreset (.inr h)
    · cases h.symm.trans hnext
      obtain h' | h' | h' := exec_onReceiver_not_running (i := i)
        (s := { s with rx := withLastEdge level time s.rx }) hi hr hstarts
      · exact hreset (.inl h')
      · exact hreset (.inr h')
      · exact h'
  · obtain ⟨_, _, _, rfl, hany⟩ := exec_onSender i hi s t hnext
    exact hany _
  · obtain ⟨read, hread, hhidden⟩ := exec_query hi
    cases (hread s).symm.trans hnext
    have hsame : read (withLastEdge level time s.rx) = read s.rx := hhidden s.rx level time
    refine (hread _).trans ?_
    show Host.Outcome.next (noteReading (read (withLastEdge level time s.rx)) _) = _
    rw [hsame]
    rfl

/-- Settles O46: a frame's start writes the two fields before any edge reads them
(`exec_startsFrame_withLastEdge`), and outside `Running` nothing else looks at them (`exec_withLastEdge`). -/
theorem hiddenReceiverStateIsNotRead : Obligations.HiddenReceiverStateIsNotRead := by
  unfold Obligations.HiddenReceiverStateIsNotRead
  intro s t i level time hr hnext
  by_cases hstart : i.startsFrame ∧ s.rx.receiverState = .idle
  · obtain ⟨hstarts, hidle⟩ := hstart
    refine ⟨t, exec_startsFrame_withLastEdge hstarts hidle hnext level time, fun _ _ => rfl, ?_⟩
    exact fun h => (h.elim (absurd hstarts) (absurd hidle))
  · refine ⟨_, exec_withLastEdge hr (not_and_or.mp hstart) hnext level time, ?_, fun _ => rfl⟩
    exact fun hstarts hidle => absurd ⟨hstarts, hidle⟩ hstart

/-! ### The message registers -/

/-- The sender with other values in the two registers that R30 leaves unspecified. -/
def withMessages (a b : Half) (t : Sender) : Sender := { t with hdrMsg := a, cmdMsg := b }

/-- R21: at rest an instruction that leaves the sender at rest keeps the registers and does the same to
everything else whatever they hold; one that does not writes both. -/
theorem exec_withMessages {i : Instr} {s t : State} (hrest : s.tx.phase = .rest)
    (hnext : exec i s = .next t) (a b : Half) :
    (exec i { s with tx := withMessages a b s.tx } = .next { t with tx := withMessages a b t.tx }
      ∧ t.tx.phase = .rest)
    ∨ (exec i { s with tx := withMessages a b s.tx } = .next t ∧ t.tx.phase ≠ .rest) := by
  cases hside : i.side
  case receiverOp | symbol | pattern =>
    obtain ⟨f, hf⟩ := exec_onReceiver i (by simp [Instr.onReceiver, hside])
    obtain ⟨r, hr, rfl⟩ := onReceiver_next.mp ((hf s).symm.trans hnext)
    refine .inl ⟨?_, hrest⟩
    rw [hf]
    exact onReceiver_next.mpr ⟨r, hr, rfl⟩
  case query =>
    obtain ⟨read, hread, _⟩ := exec_query hside
    cases (hread s).symm.trans hnext
    exact .inl ⟨hread _, hrest⟩
  case segment =>
    obtain ⟨k, rfl⟩ := segment_cases i hside
    obtain ⟨hdue, _⟩ := segInstr_next hnext
    cases (dueSegment_rest hrest).symm.trans hdue
  case senderOp =>
    cases hbusy : s.tx.busy <;> cases i <;> simp [Instr.side] at hside
    case false.txNop | true.txNop | false.txReserved | true.txReserved =>
      cases hnext
      exact .inl ⟨rfl, hrest⟩
    case true.txSend body =>
      cases (exec_txSend_busy hbusy body).symm.trans hnext
      exact .inl ⟨exec_txSend_busy (by exact hbusy) body, hrest⟩
    case true.txConstruct =>
      cases (exec_txConstruct_busy hbusy).symm.trans hnext
      exact .inl ⟨exec_txConstruct_busy (by exact hbusy), hrest⟩
    case false.txSend body =>
      cases (exec_txSend_accepted hbusy body).symm.trans hnext
      exact .inr ⟨exec_txSend_accepted (by exact hbusy) body, nofun⟩
    case false.txConstruct =>
      cases (exec_txConstruct_idle hbusy).symm.trans hnext
      exact .inl ⟨exec_txConstruct_idle (by exact hbusy), rfl⟩

/-- Settles O47: the two ways an instruction leaves a sender at rest (`exec_withMessages`). -/
theorem messageRegistersAreNotReadAtRest : Obligations.MessageRegistersAreNotReadAtRest := by
  unfold Obligations.MessageRegistersAreNotReadAtRest
  intro s t i a b hrest hnext
  obtain ⟨h, hphase⟩ | ⟨h, hphase⟩ := exec_withMessages hrest hnext a b
  · exact ⟨_, h, fun hne => absurd hphase hne, fun _ => rfl⟩
  · exact ⟨_, h, fun _ => rfl, fun heq => absurd heq hphase⟩

end Sys2Proof.Machine
end

section
/-!
SUPPORT. The sender's operations that write nothing on the line, and power-on (spec/10_state.md R30,
spec/45_tx_waveform.md R180, R188).
-/
namespace Sys2Proof.Machine

/-- Settles O1: the record after power-on field by field, and the reading of a receiver without bits. -/
theorem powerOnStateAndOutputs : Obligations.PowerOnStateAndOutputs := by
  unfold Obligations.PowerOnStateAndOutputs
  have hdecode : decodeButton Config.params State.reset.rx = ⟨0#4, { len := true }⟩ :=
    decode_short _ _ (by decide)
  refine ⟨rfl, rfl, rfl, rfl, rfl, rfl, rfl, rfl, rfl, rfl, rfl, rfl, hdecode, ?_, rfl, rfl, rfl⟩
  rw [hdecode, word_len_alone]

/-- Settles O31: `TX_NOP` answers the state itself, the reserved operation the state with a note. -/
theorem txNopAndReservedOperation : Obligations.TxNopAndReservedOperation := by
  unfold Obligations.TxNopAndReservedOperation
  intro s
  exact ⟨exec_txNop s, _, exec_txReserved s, turnAway_rx _ s, turnAway_tx _ s, turnAway_wave _ s,
    turnAway_pending _ s, turnAway_lastRead _ s, turnAway_turnedAway _ s⟩

/-- Settles O35: a busy sender turns either operation away, which writes the note alone. -/
theorem busySenderIgnoresOperations : Obligations.BusySenderIgnoresOperations := by
  unfold Obligations.BusySenderIgnoresOperations
  intro s i hbusy hi
  have haway : exec i s = .next (turnAway .senderBusy s) := by
    obtain rfl | ⟨body, rfl⟩ := hi
    · exact exec_txConstruct_busy hbusy
    · exact exec_txSend_busy hbusy body
  exact ⟨_, haway, turnAway_rx _ s, turnAway_tx _ s, turnAway_wave _ s, turnAway_pending _ s,
    turnAway_lastRead _ s, turnAway_turnedAway _ s⟩

end Sys2Proof.Machine
end

section
/-!
SUPPORT. The sender's line driver, one step at a time and over a whole send (spec/45_tx_waveform.md
R182 to R187).
-/
namespace Sys2Proof.Machine

/-! ### One step -/

/-- The due segment is the one that runs. -/
theorem exec_segInstr_due {s : State} {k : SegKind} (hdue : dueSegment s.tx = some k) :
    exec (segInstr k) s = .next (emitted k s) := by
  rw [exec_segInstr, if_pos hdue]

theorem exec_segInstr_not_due {s : State} {k : SegKind} (hdue : dueSegment s.tx ≠ some k) :
    exec (segInstr k) s = .refused .segmentNotDue := by
  rw [exec_segInstr, if_neg hdue]

/-- R181: a segment of some length puts its level on the line. -/
theorem exec_segInstr_on_line {s : State} {k : SegKind} (hdue : dueSegment s.tx = some k)
    (hlength : (segmentOf Config.params k).duration ≠ 0) :
    exec (segInstr k) s = .next { s with
      tx := advance { s.tx with out := (segmentOf Config.params k).level.line }
      wave := s.wave ++ [segmentOf Config.params k] } := by
  rw [exec_segInstr_due hdue, emitted, driveLine, if_neg hlength]

/-- R187: within a half such a segment moves the position one on. -/
theorem exec_segInstr_within_half {s : State} {k : SegKind}
    (hphase : s.tx.phase = .hdrHalf ∨ s.tx.phase = .cmdHalf)
    (hk : halfSegment (phaseMsg s.tx) s.tx.seg = k) (hlast : s.tx.seg.val ≠ 131)
    (hlength : (segmentOf Config.params k).duration ≠ 0) :
    exec (segInstr k) s = .next { s with
      tx := { s.tx with out := (segmentOf Config.params k).level.line, seg := s.tx.seg + 1 }
      wave := s.wave ++ [segmentOf Config.params k] } := by
  have hdue : dueSegment s.tx = some k := by rw [dueSegment_half hphase, hk]
  rw [exec_segInstr_on_line hdue hlength, advance_half (by exact hphase) (by exact hlast)]

/-- R187: the last segment of a half has no length, so the line stays. -/
theorem exec_stopSpace {s : State} (hphase : s.tx.phase = .hdrHalf ∨ s.tx.phase = .cmdHalf)
    (hseg : s.tx.seg.val = 131) : exec .stopSpace s = .next { s with
      tx := { s.tx with
        phase := if s.tx.phase = .hdrHalf then .halfGap else .cmdGap, seg := 0 }
      wave := s.wave ++ [⟨.space, 0⟩] } := by
  have hdue : dueSegment s.tx = some .stopSpace := by
    rw [dueSegment_half hphase]
    simp [halfSegment, hseg]
  have hadvance : advance s.tx = { s.tx with
      phase := if s.tx.phase = .hdrHalf then .halfGap else .cmdGap, seg := 0 } := by
    obtain h | h := hphase <;> simp [advance, h, hseg]
  have hemitted : emitted .stopSpace s = { s with
      tx := advance s.tx, wave := s.wave ++ [segmentOf Config.params .stopSpace] } := rfl
  refine (exec_segInstr_due hdue).trans ?_
  rw [hemitted, hadvance]
  rfl

theorem exec_halfGap {s : State} (hphase : s.tx.phase = .halfGap) (hseg : s.tx.seg = 0) :
    exec .halfGap s = .next { s with
      tx := { s.tx with out := false, phase := .cmdHalf, seg := 0 }
      wave := s.wave ++ [⟨.space, 30000⟩] } := by
  have hdue : dueSegment s.tx = some .halfGap := by simp [dueSegment, hphase, hseg]
  refine (exec_segInstr_on_line hdue (by decide)).trans ?_
  simp only [advance, hphase]
  rfl

/-- R184: the inter-command gap is longer than the gap between the halves. -/
theorem tCmdGap_gt : 30000 < Config.params.tCmdGap := by
  show 30000 < 30000 + 1 + Config.params.cmdGapExcess
  omega

theorem exec_cmdGap {s : State} (hphase : s.tx.phase = .cmdGap) (hseg : s.tx.seg = 0) :
    exec .cmdGap s = .next { s with
      tx := { s.tx with out := false, phase := .rest, seg := 0, busy := false }
      wave := s.wave ++ [⟨.space, Config.params.tCmdGap⟩] } := by
  have hdue : dueSegment s.tx = some .cmdGap := by simp [dueSegment, hphase, hseg]
  have hlength : Config.params.tCmdGap ≠ 0 := Nat.ne_zero_of_lt tCmdGap_gt
  refine (exec_segInstr_on_line hdue hlength).trans ?_
  simp only [advance, hphase]
  rfl

/-- Settles O37: `exec` of a segment compares it with the due one, and at rest none is due. -/
theorem noOtherDriverStep : Obligations.NoOtherDriverStep := by
  unfold Obligations.NoOtherDriverStep
  intro s k
  refine ⟨⟨fun ⟨t, ht⟩ => ?due, fun hdue => ⟨_, exec_segInstr_due hdue⟩⟩, exec_segInstr_not_due,
    fun hrest => exec_segInstr_not_due ?rest⟩
  case due =>
    obtain ⟨hdue, _⟩ := segInstr_next ht
    exact hdue
  case rest => simp [dueSegment_rest hrest]

/-- Settles O36: within a half by `exec_segInstr_within_half`, at its end by `exec_stopSpace`, and the two
gaps. -/
theorem driverSteps : Obligations.DriverSteps := by
  unfold Obligations.DriverSteps
  intro s
  refine ⟨fun m hm => ?half, exec_halfGap,
    fun hphase hseg => ⟨_, tCmdGap_gt, exec_cmdGap hphase hseg⟩⟩
  case half =>
    have hphase : s.tx.phase = .hdrHalf ∨ s.tx.phase = .cmdHalf := hm.imp And.left And.left
    have hmsg : phaseMsg s.tx = m := by
      obtain ⟨h, rfl⟩ | ⟨h, rfl⟩ := hm <;> simp [phaseMsg, h]
    have next {n : Nat} (h : s.tx.seg.val = n) (hn : n < 131) : (s.tx.seg + 1).val = n + 1 := by
      rw [seg_succ (by omega), h]
    refine ⟨fun hseg => ?syncMark, fun hseg => ?syncSpace, fun i hi hseg => ?bitMark,
      fun i hi hseg hbit => ?oneSpace, fun i hi hseg hbit => ?zeroSpace, fun hseg => ?stopMark,
      exec_stopSpace hphase⟩
    case syncMark =>
      have h := exec_segInstr_within_half (k := .syncMark) hphase (by simp [halfSegment, hseg])
        (by omega) (by decide)
      rw [Fin.ext (next hseg (by omega)) (b := 1)] at h
      exact h
    case syncSpace =>
      have h := exec_segInstr_within_half (k := .syncSpace) hphase (by simp [halfSegment, hseg])
        (by omega) (by decide)
      rw [Fin.ext (next hseg (by omega)) (b := 2)] at h
      exact h
    case bitMark =>
      exact ⟨_, exec_segInstr_within_half (k := .bitMark) hphase (halfSegment_bitMark _ hi hseg)
        (by omega) (by decide), rfl, (next hseg (by omega)).trans (by omega)⟩
    case oneSpace =>
      have hk : halfSegment (phaseMsg s.tx) s.tx.seg = .oneSpace := by
        rw [halfSegment_bitSpace _ hi hseg, hmsg, msgBit, if_pos hbit]
      exact ⟨_, exec_segInstr_within_half hphase hk (by omega) (by decide), rfl,
        (next hseg (by omega)).trans (by omega)⟩
    case zeroSpace =>
      have hk : halfSegment (phaseMsg s.tx) s.tx.seg = .zeroSpace := by
        rw [halfSegment_bitSpace _ hi hseg, hmsg, msgBit, hbit, if_neg Bool.false_ne_true]
      exact ⟨_, exec_segInstr_within_half hphase hk (by omega) (by decide), rfl,
        (next hseg (by omega)).trans (by omega)⟩
    case stopMark =>
      have h := exec_segInstr_within_half (k := .stopMark) hphase (by simp [halfSegment, hseg])
        (by omega) (by decide)
      rw [Fin.ext (next hseg (by omega)) (b := 131)] at h
      exact h

/-! ### A whole send -/

theorem waveTime_append (v w : List Segment) : waveTime (v ++ w) = waveTime v + waveTime w := by
  simp [waveTime]

theorem waveTime_singleton (g : Segment) : waveTime [g] = g.duration := by
  simp [waveTime]

theorem sendWave_length (body : Body) : (sendWave Config.params body).length = 266 := by
  simp only [sendWave, List.length_append, halfWave_length, List.length_singleton]

/-- R186, R250: the two halves and the two gaps. -/
theorem waveTime_sendWave (body : Body) : waveTime (sendWave Config.params body)
    = 2 * 61375 + 860 * (20 + (msgBits (cmdMessage Config.params body)).count true) + 30000
      + Config.params.tCmdGap := by
  have hgap : Config.params.tHalfGap = 30000 := rfl
  simp only [sendWave, waveTime_append, halfTime, waveTime_singleton, hdrMessage_bitCounts.1, hgap]
  omega

/-- Settles O39: the halves by `halfWave_length` and `halfTime`, the send as two of them and its two gaps. -/
theorem sendTakesItsTime : Obligations.SendTakesItsTime := by
  unfold Obligations.SendTakesItsTime
  exact ⟨fun m => ⟨halfWave_length m, halfTime m⟩,
    fun body => ⟨sendWave_length body, waveTime_sendWave body, tCmdGap_gt⟩⟩

end Sys2Proof.Machine
end

section
/-!
SUPPORT. A whole send by the driver's own steps: what remains to be emitted shrinks by one segment a
step, and the sender is busy until nothing remains (spec/45_tx_waveform.md R186, R187).
-/
namespace Sys2Proof.Machine

/-- A sender in the middle of a transmission. -/
structure Driving (t : Sender) : Prop where
  busy : t.busy = true
  gapSeg : t.phase = .halfGap ∨ t.phase = .cmdGap → t.seg = 0
  phase : t.phase ≠ .rest

/-- A sender at the end of one. -/
structure Rested (t : Sender) : Prop where
  busy : t.busy = false
  phase : t.phase = .rest
  out : t.out = false

/-- What the driver's steps leave alone. -/
structure KeptByDriver (s t : State) : Prop where
  rx : t.rx = s.rx
  pending : t.pending = s.pending
  host : t.host = s.host
  carrierEn : t.tx.carrierEn = s.tx.carrierEn

theorem KeptByDriver.trans {s t u : State} (h : KeptByDriver s t) (h' : KeptByDriver t u) :
    KeptByDriver s u :=
  ⟨h'.rx.trans h.rx, h'.pending.trans h.pending, h'.host.trans h.host,
    h'.carrierEn.trans h.carrierEn⟩

theorem acceptSend_driving (body : Body) (t : Sender) :
    Driving (acceptSend Config.params body t) where
  busy := rfl
  gapSeg := fun _ => rfl
  phase := nofun

/-- R186: what remains right after an accepted request is the whole send. -/
theorem remaining_acceptSend (body : Body) (t : Sender) :
    remaining (acceptSend Config.params body t) = sendWave Config.params body := by
  simp [remaining, sendWave]

theorem remaining_rested {t : Sender} (h : Rested t) : remaining t = [] := by
  simp [remaining, h.phase]

/-- R187: a step of a sender in a transmission emits the first segment of what remains. -/
theorem step_driving {s : State} (hp : s.pending = []) (h : Driving s.tx) :
    ∃ t g, step s = .next t ∧ KeptByDriver s t ∧ t.wave = s.wave ++ [g]
      ∧ remaining s.tx = g :: remaining t.tx ∧ (Rested t.tx ∨ Driving t.tx) := by
  obtain ⟨k, hdue, hremaining, hcarrier, hend⟩ := remaining_step s.tx h.busy h.gapSeg h.phase
  refine ⟨emitted k s, segmentOf Config.params k, step_driver hp hdue, ⟨rfl, rfl, rfl, hcarrier⟩, rfl,
    hremaining, hend.imp ?_ ?_⟩
  · rintro ⟨hphase, hbusy, hout⟩
    exact ⟨hbusy, hphase, hout⟩
  · rintro ⟨hphase, hbusy, hgap⟩
    exact ⟨hbusy, hgap, hphase⟩

theorem remaining_driving_ne_nil {t : Sender} (h : Driving t) : remaining t ≠ [] := by
  obtain ⟨k, _, hremaining, _⟩ := remaining_step t h.busy h.gapSeg h.phase
  simp [hremaining]

theorem run_succ {s t : State} (h : step s = .next t) (n : Nat) :
    Host.Core.run Sys2Proof.core (n + 1) s = Host.Core.run Sys2Proof.core n t := by
  have hcore : Sys2Proof.core.step s = .next t := h
  simp only [Host.Core.run, hcore]

/-- R186, R187: as many steps as segments remain emit exactly those, busy until the last is out. -/
theorem run_driving {n : Nat} {s : State} (hp : s.pending = []) (h : Driving s.tx)
    (hlength : (remaining s.tx).length = n) :
    (∃ t, Host.Core.run Sys2Proof.core n s = .next t ∧ KeptByDriver s t
      ∧ t.wave = s.wave ++ remaining s.tx ∧ Rested t.tx)
    ∧ ∀ m, m < n → ∃ u, Host.Core.run Sys2Proof.core m s = .next u ∧ u.tx.busy = true := by
  induction n generalizing s with
  | zero => exact absurd (List.length_eq_zero_iff.mp hlength) (remaining_driving_ne_nil h)
  | succ n ih =>
    obtain ⟨t, g, hstep, hkept, hwave, hremaining, hend⟩ := step_driving hp h
    have hrest : (remaining t.tx).length = n := by
      rw [hremaining, List.length_cons] at hlength
      omega
    obtain hrested | hdriving := hend
    · rw [remaining_rested hrested] at hremaining hrest
      obtain rfl : n = 0 := hrest.symm
      refine ⟨⟨t, run_succ hstep 0, hkept, by rw [hwave, hremaining], hrested⟩, fun m hm => ?_⟩
      obtain rfl : m = 0 := by omega
      exact ⟨s, rfl, h.busy⟩
    · obtain ⟨⟨u, hrun, hkept', hwave', hrested⟩, hbusy⟩ :=
        ih (hkept.pending.trans hp) hdriving hrest
      refine ⟨⟨u, (run_succ hstep n).trans hrun, hkept.trans hkept', ?_, hrested⟩, fun m hm => ?_⟩
      · rw [hwave', hwave, hremaining, List.append_assoc, List.singleton_append]
      · cases m with
        | zero => exact ⟨s, rfl, h.busy⟩
        | succ m =>
          obtain ⟨v, hv, hvbusy⟩ := hbusy m (by omega)
          exact ⟨v, (run_succ hstep m).trans hv, hvbusy⟩

/-- Settles O38: after an accepted request the whole send remains (`remaining_acceptSend`), 266 segments,
which the driver's steps emit (`run_driving`). -/
theorem sendEmitsItsWaveform : Obligations.SendEmitsItsWaveform := by
  unfold Obligations.SendEmitsItsWaveform
  intro s body hidle hp
  have hremaining := remaining_acceptSend body s.tx
  obtain ⟨⟨t, hrun, hkept, hwave, hrested⟩, hbusy⟩ :=
    run_driving (n := 266) (s := { s with tx := acceptSend Config.params body s.tx }) hp
      (acceptSend_driving body s.tx) (by rw [hremaining, sendWave_length])
  refine ⟨_, t, exec_txSend_accepted hidle body, hrun, ?wave, hbusy, hrested.busy, hrested.phase,
    hrested.out, hkept.carrierEn, hkept.rx, hkept.pending.trans hp, hkept.host⟩
  case wave => rw [hwave, hremaining]

end Sys2Proof.Machine
end

section
/-!
SUPPORT. The round-trip law: the sampled edges of a send lie in the windows of its frame
(spec/45_tx_waveform.md R190, spec/41_rx_classifier.md R117).
-/
namespace Sys2Proof.Machine

/-! ### The intervals of a send -/

/-- An interval that stays in a window when it is measured 200 microseconds too short or too long. -/
abbrev roomFor (d : Nat) (w : Nat × Nat) : Prop := w.1 + 200 ≤ d ∧ d + 200 ≤ w.2 ∧ w.2 < 2 ^ 31

theorem roomFor_bits (bs : List Bool) :
    List.Forall₂ roomFor (bs.flatMap bitNat) (bs.flatMap bitWindows) := by
  induction bs with
  | nil => exact .nil
  | cons b bs ih =>
    cases b <;> exact .cons (by decide) (.cons (by decide) ih)

theorem roomFor_half (m : Half) : List.Forall₂ roomFor (halfNat m) (halfWindows (msgBits m)) :=
  .cons (by decide) (.cons (by decide) (roomFor_bits _))

/-- R117, R190: every interval of a send is in the middle of its window, the tolerance on both sides. -/
theorem roomFor_frame (body : Body) : List.Forall₂ roomFor (frameNat body)
    (frameWindows (hdrMessage Config.params ++ cmdMessage Config.params body)) := by
  rw [frameWindows_halves]
  exact List.rel_append (List.rel_append (List.rel_append (roomFor_half _)
    (.cons (by decide) (.cons (by decide) .nil))) (roomFor_half _)) (.cons (by decide) .nil)

/-- Every interval of a send is at least as long as the slowest cadence. -/
theorem le_of_mem_frameNat {body : Body} {d : Nat} (hd : d ∈ frameNat body) : 200 ≤ d := by
  obtain ⟨w, _, hroom⟩ : ∃ w,
      w ∈ frameWindows (hdrMessage Config.params ++ cmdMessage Config.params body) ∧ roomFor d w := by
    obtain ⟨i, hi, rfl⟩ := List.mem_iff_getElem.mp hd
    have h := roomFor_frame body
    exact ⟨_, List.getElem_mem (h.length_eq ▸ hi), h.get hi (h.length_eq ▸ hi)⟩
  obtain ⟨hlow, _⟩ := hroom
  omega

theorem waveTime_alternating (level : Bool) (ds : List Nat) :
    waveTime (alternating level ds) = ds.sum := by
  induction ds generalizing level with
  | nil => rfl
  | cons d ds ih =>
    rw [List.sum_cons, ← ih (!level)]
    rfl

theorem halfNat_sum (m : Half) : (halfNat m).sum + 435 = waveTime (halfWave Config.params m) := by
  simp only [halfNat_wave, waveTime_append, waveTime_alternating, waveTime_singleton, Nat.add_zero]

/-- R190: the last mark of a send ends when the inter-command gap begins. -/
theorem frameNat_sum (body : Body) : (frameNat body).sum
    = waveTime (sendWave Config.params body) - Config.params.tCmdGap := by
  have hhdr := halfNat_sum (hdrMessage Config.params)
  have hcmd := halfNat_sum (cmdMessage Config.params body)
  have hgap : Config.params.tHalfGap = 30000 := rfl
  simp only [frameNat, sendWave, waveTime_append, waveTime_singleton, List.sum_append, List.sum_cons,
    List.sum_nil, hgap]
  omega

/-! ### The sampled line -/

/-- The level that a receiver sees when the line has a value. -/
def inputLevel (line : Bool) : Bool := if line then Config.params.rxActiveLevel
  else !Config.params.rxActiveLevel

theorem inputLevel_not (line : Bool) : inputLevel (!line) = !inputLevel line := by
  cases line <;> simp [inputLevel]

/-- The level at tick number `k` of a send started at `t0`. -/
def sampledLevel (body : Body) (t0 T k : Nat) : Bool :=
  inputLevel (lineAt (sendWave Config.params body) t0 (k * T))

theorem sampleTicks_eq (body : Body) (t0 T n : Nat) :
    sampleTicks Config.params (sendWave Config.params body) t0 T n
      = ticksFrom (sampledLevel body t0 T) T 0 (n + 1) := by
  rw [sampleTicks, List.range_eq_range']
  rfl

/-- Before the send the line rests. -/
theorem sampledLevel_before {body : Body} {t0 T k : Nat} (h : k * T < t0) :
    sampledLevel body t0 T k ≠ Config.params.rxActiveLevel := by
  rw [sampledLevel, lineAt_before _ _ _ h]
  simp [inputLevel]

/-- The send begins with a mark of 3500 microseconds. -/
theorem sampledLevel_start {body : Body} {t0 T k : Nat} (h : t0 ≤ k * T) (h' : k * T < t0 + 3500) :
    sampledLevel body t0 T k = Config.params.rxActiveLevel := by
  have hline : lineAt (sendWave Config.params body) t0 (k * T) = true := by
    rw [line_send]
    show lineAt (⟨.mark, 3500⟩ :: _) t0 (k * T) = true
    rw [lineAt, if_neg (by omega), if_pos h']
    rfl
  rw [sampledLevel, hline]
  rfl

/-- R117: the level changes exactly at the ticks that see the edges of the send. -/
theorem sampledLevel_changes (body : Body) {t0 T : Nat} (hT : 0 < T) (h200 : T ≤ 200) :
    Changes (sampledLevel body t0 T) (ceilT T t0) Config.params.rxActiveLevel
      (edgeIdx T t0 (frameNat body)) :=
  changes_alt T hT (frameNat body) Config.params.tCmdGap t0 true _ inputLevel inputLevel_not
    (fun _ hd => h200.trans (le_of_mem_frameNat hd))
    (h200.trans (by have := tCmdGap_gt; omega))
    (fun k _ => by rw [sampledLevel, line_send])

/-! ### The round trip -/

/-- R190: the receiver after the sampled send; the last edge is seen at some tick. -/
theorem runTicks_sampledSend {s : State} (body : Body) {t0 T n : Nat}
    (hidle : s.rx.receiverState = .idle) (hpos : s.rx.readState = .none) (hbuf : s.rx.buf = 0#128)
    (hb : s.rx.bitIndex = 0#8) (ht : s.rx.timeoutCount = 0#2) (hT : 0 < T) (h200 : T ≤ 200)
    (hn : t0 + (frameNat body).sum ≤ n * T) :
    ∃ time, runTicks (sampleTicks Config.params (sendWave Config.params body) t0 T n) s = .next
      { s with rx :=
      { receiverState := .overflowed
        readState := .readSpace
        buf := hdrMessage Config.params ++ cmdMessage Config.params body
        bitIndex := 128#8
        timeoutCount := 1#2
        prevLevel := !Config.params.rxActiveLevel
        lastEdgeTime := time } } := by
  obtain ⟨hfirst, hfirst'⟩ := ceil_bounds T t0 hT
  have hle : ceilT T t0 ≤ n := (ceil_le T t0 n hT).mpr (by omega)
  have hsplit : n + 1 = ceilT T t0 + (1 + (n - ceilT T t0)) := by omega
  have hresting : runTicks (ticksFrom (sampledLevel body t0 T) T 0 (ceilT T t0)) s = .next s := by
    refine ticks_still _ _ _ _ _ fun k _ hk now => ?_
    have hbefore : k * T < t0 := by
      by_contra h
      have := (ceil_le T t0 k hT).mpr (by omega)
      omega
    exact exec_rxTick_idle_inactive hidle (sampledLevel_before hbefore) now
  have hstart : runTicks (ticksFrom (sampledLevel body t0 T) T (ceilT T t0) 1) s = .next { s with
      rx := { s.rx with
        lastEdgeTime := BitVec.ofNat 32 (ceilT T t0 * T)
        prevLevel := Config.params.rxActiveLevel, receiverState := .running } } := by
    have hlevel := sampledLevel_start (body := body) hfirst (by omega)
    simp only [ticksFrom, List.range'_one, List.map_cons, List.map_nil, runTicks, hlevel,
      exec_rxTick_idle_active hidle]
  have hedges := runEdges_frame (hdrMessage Config.params ++ cmdMessage Config.params body)
    (diffs T (ceilT T t0) (edgeIdx T t0 (frameNat body)))
    { s.rx with
      lastEdgeTime := BitVec.ofNat 32 (ceilT T t0 * T)
      prevLevel := Config.params.rxActiveLevel, receiverState := .running }
    (diffs_within T hT h200 _ _ t0 (roomFor_frame body)) rfl hpos hbuf hb ht
  rw [sampleTicks_eq, hsplit, ticks_split, runTicks_append _ _ _ _ hresting, Nat.zero_add, ticks_split,
    runTicks_append _ _ _ _ hstart]
  exact ⟨_, run_changes _ T _ _ n _ _ _ (sampledLevel_changes body hT h200)
    (edgeIdx_le T hT _ t0 n hn) hedges rfl (.inr ⟨rfl, rfl, rfl⟩)⟩

/-- Settles O40: the sampled send is received as its frame (`runTicks_sampledSend`), which decodes to its
body's row (`decode_frame`). -/
theorem loopbackRoundTrip : Obligations.LoopbackRoundTrip := by
  unfold Obligations.LoopbackRoundTrip
  intro s body t0 T n hidle hpos hbuf hb ht hT h200 hn
  rw [← frameNat_sum] at hn
  obtain ⟨time, hrun⟩ := runTicks_sampledSend body hidle hpos hbuf hb ht hT h200 hn
  exact ⟨_, hrun, rfl, rfl, rfl, rfl, rfl, decode_frame _ body rfl (frameWord_eq body)⟩

end Sys2Proof.Machine
end
